-- ==== Sys2Proof/Word.lean ====
section
/-! DEFINITION. The two fixed widths of the block: the byte (R12) and the link or command word of `WORD_BITS` bits (R6). -/

namespace Sys2Proof

/-- A byte is 8 bits (R12): a tag, a slot value, a queue entry, one ASCII character. -/
abbrev Byte := BitVec 8

/-- `WORD_BITS`: bits in one link word (R6, R63). -/
abbrev Config.wordBits : Nat := 16

/-- A word of `WORD_BITS` bits: a slot, a handshake word (R63) or a command word (R104). -/
abbrev Word := BitVec Config.wordBits

end Sys2Proof
end

