-- ==== Sys2Proof/Config.lean ====
section
/-! DEFINITION. The named constants of rule R6, the open parameters of rule R7 and the free values the spec leaves to the
environment (the peer's answers, R121). -/

namespace Sys2Proof.Config

/-! ### Constants the source gives (R6); each is defined once, by name (U12). `WORD_BITS` is `Config.wordBits` of Word.lean. -/

/-- `SLOTS`: slots in one frame (R6, R91). -/
def slots : Nat := 2
/-- `SLOT_BYTES`: bytes in one slot, tag then value (R6, R91). -/
def slotBytes : Nat := 2
/-- `FRAME_BYTES`: bytes in one frame, each direction (R6, R91). -/
def frameBytes : Nat := slots * slotBytes
/-- `QDEPTH`: capacity of each ring in bytes (R6, R35). -/
def qDepth : Nat := 4096
/-- `TAG_EMPTY` (R6, R93). -/
def tagEmpty : Byte := 0x00
/-- `TAG_MIDI` (R6, R93). -/
def tagMidi : Byte := 0x0F
/-- `TAG_LED` (R6, R93). -/
def tagLed : Byte := 0xF0
/-- `CEILING`: the flow ceiling in milli-bytes (R6, R190). -/
def ceiling : Nat := 127000
/-- `COST`: cost of one MIDI byte in milli-bytes (R6, R190). -/
def cost : Nat := 1000
/-- `USAGE_MAX` = `CEILING + COST` (R6, R30). -/
def usageMax : Nat := ceiling + cost
/-- `WATERMARK`: the Inbound Queue's low watermark in bytes (R6, R181). -/
def watermark : Nat := 16
/-- `SERIAL_CAP`: the serial number's destination in bytes, one of them the terminator (R6, R236). -/
def serialCap : Nat := 11
/-- `ID_CAP`: the unique id's destination in characters, one of them the terminator (R6, R237). -/
def idCap : Nat := 25
/-- `HWVER_DEFAULT`, the ASCII bytes of the string 1.0 (R6, R238). -/
def hwverDefault : List Byte := [0x31, 0x2E, 0x30]
/-- `HS_REQUEST`: the handshake request word (R6, R98). -/
def hsRequest : Word := 0x0000
/-- The capacity `ID_PARSE` passes to `RDLP` (R233). -/
def rdlpScratch : Nat := 255

/-! ### Open parameters (R7): arguments of the model, held in `State.params` and changed by no step. -/

/-- The parameters some rule reads: `DRAIN_RATE` (R195, D8), milli-bytes per tick, and `PEEK_MAX` (R146, D9), bytes. -/
structure Params where
  drainRate : Nat
  peekMax : Nat
  deriving DecidableEq, Repr, Inhabited

/-- `DRAIN_RATE` has no value in the spec (R7, D8): a free constant. -/
opaque drainRate : Nat

/-- `PEEK_MAX` has no value in the spec, only the range 1..`QDEPTH` (R7, D9): a free constant that selects it. -/
opaque peekMaxPred : Nat

/-- The parameters the machine is built with: nothing in Lean can evaluate them. -/
def params : Params := { drainRate := drainRate, peekMax := peekMaxPred % qDepth + 1 }

/-- The ranges the spec requires of the parameters (R7, D8, D9): `DRAIN_RATE > 0` and `1 <= PEEK_MAX <= QDEPTH`. -/
def Params.legal (p : Params) : Bool :=
  decide (0 < p.drainRate) && decide (1 ≤ p.peekMax) && decide (p.peekMax ≤ qDepth)

/-! ### The link oracle (R121, U6). -/

/-- One answer of the physical link to one exchange (R121): whether it succeeded and the peer's inbound bytes, in link order.
`XCHG` takes all four bytes, `XCHG16` the first two; `ok = false` makes the bytes meaningless. -/
structure LinkAnswer where
  ok : Bool
  b0 : Byte
  b1 : Byte
  b2 : Byte
  b3 : Byte
  deriving DecidableEq, Repr, Inhabited

/-- The peer's answer to the `n`-th exchange where no scripted answer is left: a FREE VALUE, since the block constrains
neither the bytes nor the success of an exchange (R121, U6). -/
opaque linkAnswer : Nat → LinkAnswer

end Sys2Proof.Config
end

