-- ==== Sys2Proof/Syntax.lean ====
section
/-! DEFINITION. The syntax: the frame layout (R91, R96), the formats (R90, R104), and `Instr`, one constructor per row of
spec/opcode_table.json: 9 wire encodings and 39 operations (R93, R96, R98, R99, R103). -/

namespace Sys2Proof

/-- Which of the two slots of a frame (R91): slot 0 is composed first and crosses the link first. -/
inductive SlotIx where
  | slot0
  | slot1
  deriving DecidableEq, Repr, Inhabited

/-- A slot, the (tag, value) byte pair of R91. -/
structure Slot where
  tag : Byte
  value : Byte
  deriving DecidableEq, Repr, Inhabited

/-- A frame of four bytes, two slots (R91 outbound, R96 inbound). -/
structure Frame where
  slot0 : Slot
  slot1 : Slot
  deriving DecidableEq, Repr, Inhabited

/-- The format a 16-bit word is read in. The format is not in the bits (R90): it is which operation, port or agent the word
belongs to. `cmd` is the command port (R104), `uop` and `fn` the labels of the internal operations (R103). -/
inductive Format where
  | slotOut
  | slotIn
  | hsReq
  | hsResp
  | cmd
  | uop
  | fn
  deriving DecidableEq, Repr, Inhabited

/-- The operands the table places outside the word: the four bytes `tx` of `XCHG` and the tick count `t` of `ON_ELAPSED`
("not in the word"). -/
structure Args where
  tx : Frame
  ticks : Nat
  deriving DecidableEq, Repr, Inhabited

/-- One thing to decode: a word, the format it is read in, and the operands outside the word. -/
structure Issue where
  fmt : Format
  word : Word
  args : Args
  deriving DecidableEq, Repr, Inhabited

/-- The operations and wire encodings of the block, one constructor per row of the table, in the table's order. -/
inductive Instr where
  /-- `SLOT.EMPTY` (R177). -/
  | slotEmpty
  /-- `SLOT.MIDI b` (R176). -/
  | slotMidi (b : Byte)
  /-- `SLOT.LED d` (R175). -/
  | slotLed (d : Byte)
  /-- `SLOT.RSVD`: an outbound slot this block never produces (R95). -/
  | slotRsvd (t v : Byte)
  /-- `RX.NONE` (R183). -/
  | rxNone
  /-- `RX.DATA v` with its nonzero tag (R184). -/
  | rxData (t v : Byte)
  /-- `HS.REQ` (R98). -/
  | hsReq
  /-- `HS.INVALID` (R99). -/
  | hsInvalid
  /-- `HS.VALID p` with its nonzero ready flag (R99). -/
  | hsValid (r p : Byte)
  /-- `LINK_UP` (R286). -/
  | linkUp
  /-- `LINK_DOWN` (R291). -/
  | linkDown
  /-- `FLASH_LED d` (R171). -/
  | flashLed (d : Byte)
  /-- `REQ_CYCLE` (R141). -/
  | reqCycle
  /-- `OUT_OPEN` (R266). -/
  | outOpen
  /-- `OUT_CLOSE` (R267). -/
  | outClose
  /-- `OUT_START` (R268). -/
  | outStart
  /-- `OUT_DRAIN` (R269). -/
  | outDrain
  /-- `IN_OPEN` (R271). -/
  | inOpen
  /-- `IN_CLOSE` (R272). -/
  | inClose
  /-- `IN_START` (R273). -/
  | inStart
  /-- `IN_STOP` (R274). -/
  | inStop
  /-- `IQ_DRAIN` (R219). -/
  | iqDrain
  /-- `ID_GET sel` (R243). -/
  | idGet (sel : Byte)
  /-- `SB_LEVEL` (R253). -/
  | sbLevel
  /-- `OQ_LEN` (R207). -/
  | oqLen
  /-- `IQ_LEN` (R207). -/
  | iqLen
  /-- `OQ_PUSH b`, the test command (R221). -/
  | oqPush (b : Byte)
  /-- `CYC_START` (R143). -/
  | cycStart
  /-- `IT_REFILL` (R145). -/
  | itRefill
  /-- `COMPOSE_SLOT k` (R174). -/
  | composeSlot (k : SlotIx)
  /-- `IT_XCHG` (R148). -/
  | itXchg
  /-- `IT_DECAY` (R150). -/
  | itDecay
  /-- `DELIVER_SLOT k` (R180). -/
  | deliverSlot (k : SlotIx)
  /-- `IT_CONT` (R153). -/
  | itCont
  /-- `CYC_FLUSH` (R155). -/
  | cycFlush
  /-- `SB_SAMPLE v` (R252). -/
  | sbSample (v : Bool)
  /-- `SB_EDGE` (R254). -/
  | sbEdge
  /-- `XCHG` of the four bytes `tx` (R122). -/
  | xchg (tx : Frame)
  /-- `XCHG16` (R126). -/
  | xchg16
  /-- `RDLP max` (R128). -/
  | rdlp (max : Byte)
  /-- `ID_PARSE` (R231). -/
  | idParse
  /-- `QUIESCE` (R292). -/
  | quiesce
  /-- `OQ_POP` (R209). -/
  | oqPop
  /-- `OQ_REFILL` (R215). -/
  | oqRefill
  /-- `IQ_PUSH b` (R217). -/
  | iqPush (b : Byte)
  /-- `CAN_SEND` (R191). -/
  | canSend
  /-- `ON_SENT` (R193). -/
  | onSent
  /-- `ON_ELAPSED t` (R194). -/
  | onElapsed (t : Nat)
  deriving DecidableEq, Repr, Inhabited

end Sys2Proof
end

