-- ==== Sys2Proof/WellFormed.lean ====
section
/-! DEFINITION. Well-formed instructions: the constraints the opcode table puts on the operands of `SLOT.RSVD`, `RX.DATA` and
`HS.VALID`. Every other operand has a type that admits exactly the values the spec admits. -/

namespace Sys2Proof

/-- R95: a reserved outbound slot has a tag outside the three of R93, or tag zero with a nonzero value. -/
def reservedSlot (t v : Byte) : Bool :=
  (t != Config.tagEmpty && t != Config.tagMidi && t != Config.tagLed) || (t == Config.tagEmpty && v != 0)

/-- The operand checks of the opcode table's constraint column (R95, R96, R99). -/
def Instr.wf : Instr → Bool
  | .slotRsvd t v => reservedSlot t v
  | .rxData t _ => t != 0
  | .hsValid r _ => r != 0
  | .slotEmpty | .slotMidi _ | .slotLed _ | .rxNone | .hsReq | .hsInvalid
  | .linkUp | .linkDown | .flashLed _ | .reqCycle | .outOpen | .outClose | .outStart | .outDrain
  | .inOpen | .inClose | .inStart | .inStop | .iqDrain | .idGet _ | .sbLevel | .oqLen | .iqLen | .oqPush _
  | .cycStart | .itRefill | .composeSlot _ | .itXchg | .itDecay | .deliverSlot _ | .itCont | .cycFlush
  | .sbSample _ | .sbEdge | .xchg _ | .xchg16 | .rdlp _ | .idParse | .quiesce | .oqPop | .oqRefill
  | .iqPush _ | .canSend | .onSent | .onElapsed _ => true

end Sys2Proof
end

