-- ==== Sys2Proof/Decode.lean ====
section
/-! DEFINITION. Decoding, total on every word of every format and rejecting by name, and the encoder, both written from the
tables of 30_encoding.md (R93, R96, R98, R99, R103, R104). -/

namespace Sys2Proof

/-! ### Bytes of a word (R12, R63, R102) -/

/-- `w[15:8]`, the byte that crosses the link first (R63). -/
def hiByte (w : Word) : Byte := w.extractLsb' 8 8

/-- `w[7:0]`, the byte that crosses the link second (R63). -/
def loByte (w : Word) : Byte := w.extractLsb' 0 8

/-- `hi ++ lo`: the word with the given high and low byte (R12). -/
def joinBytes (hi lo : Byte) : Word := hi ++ lo

/-- The two bytes of a word in link order, high byte first (R63). -/
def wordBytes (w : Word) : List Byte := [hiByte w, loByte w]

/-- The operands outside the word when there are none. -/
def Args.zero : Args := { tx := ⟨⟨0, 0⟩, ⟨0, 0⟩⟩, ticks := 0 }

/-! ### Decoding -/

/-- Why a word is no operation of its format. -/
inductive DecodeError where
  /-- The op byte is not listed for the format: on the command port this includes the `UOP` and `FN` codes (R105, U14). -/
  | unknownOp (fmt : Format) (op : Byte)
  /-- `COMPOSE_SLOT` or `DELIVER_SLOT` with `k` outside 0..1 (R105). -/
  | noSuchSlot (op arg : Byte)
  /-- `SB_SAMPLE` with a sample that is not one bit (R252). -/
  | notOneBit (arg : Byte)
  /-- A handshake request other than `0x0000`: no other request word is ever sent (R98, U15). -/
  | notTheRequest (w : Word)
  deriving DecidableEq, Repr

/-- The slot number operand of `COMPOSE_SLOT` and `DELIVER_SLOT` (R105). -/
def slotOperand (op arg : Byte) : Except DecodeError SlotIx :=
  if arg = 0 then .ok .slot0 else if arg = 1 then .ok .slot1 else .error (.noSuchSlot op arg)

/-- The one-bit operand of `SB_SAMPLE` (R252). -/
def bitOperand (arg : Byte) : Except DecodeError Bool :=
  if arg = 0 then .ok false else if arg = 1 then .ok true else .error (.notOneBit arg)

/-- The command port's codes (R103, R104): an operation without an argument ignores `c[7:0]`. -/
def decodeCmd (op arg : Byte) : Except DecodeError Instr :=
  match op.toNat with
  | 0x01 => .ok .linkUp
  | 0x02 => .ok .linkDown
  | 0x10 => .ok (.flashLed arg)
  | 0x11 => .ok .reqCycle
  | 0x20 => .ok .outOpen
  | 0x21 => .ok .outClose
  | 0x22 => .ok .outStart
  | 0x23 => .ok .outDrain
  | 0x28 => .ok .inOpen
  | 0x29 => .ok .inClose
  | 0x2A => .ok .inStart
  | 0x2B => .ok .inStop
  | 0x2C => .ok .iqDrain
  | 0x30 => .ok (.idGet arg)
  | 0x31 => .ok .sbLevel
  | 0x32 => .ok .oqLen
  | 0x33 => .ok .iqLen
  | 0x3E => .ok (.oqPush arg)
  | _ => .error (.unknownOp .cmd op)

/-- The labels of the worker's and the bridge's micro-steps (R103 kind `UOP`). -/
def decodeUop (op arg : Byte) : Except DecodeError Instr :=
  match op.toNat with
  | 0x40 => .ok .cycStart
  | 0x41 => .ok .itRefill
  | 0x42 => (slotOperand op arg).map .composeSlot
  | 0x43 => .ok .itXchg
  | 0x44 => .ok .itDecay
  | 0x45 => (slotOperand op arg).map .deliverSlot
  | 0x46 => .ok .itCont
  | 0x47 => .ok .cycFlush
  | 0x48 => (bitOperand arg).map .sbSample
  | 0x49 => .ok .sbEdge
  | _ => .error (.unknownOp .uop op)

/-- The labels of the internal functions (R103 kind `FN`); `XCHG` and `ON_ELAPSED` take their operand from outside the word. -/
def decodeFn (op arg : Byte) (a : Args) : Except DecodeError Instr :=
  match op.toNat with
  | 0x50 => .ok (.xchg a.tx)
  | 0x51 => .ok .xchg16
  | 0x52 => .ok (.rdlp arg)
  | 0x53 => .ok .idParse
  | 0x54 => .ok .quiesce
  | 0x58 => .ok .oqPop
  | 0x59 => .ok .oqRefill
  | 0x5A => .ok (.iqPush arg)
  | 0x60 => .ok .canSend
  | 0x61 => .ok .onSent
  | 0x62 => .ok (.onElapsed a.ticks)
  | _ => .error (.unknownOp .fn op)

/-- An outbound slot as a monitor reads it (R93, R95, R107). -/
def decodeSlotOut (t v : Byte) : Instr :=
  if t = Config.tagEmpty ∧ v = 0 then .slotEmpty
  else if t = Config.tagMidi then .slotMidi v
  else if t = Config.tagLed then .slotLed v
  else .slotRsvd t v

/-- An inbound slot (R96): only the tag is tested, and only for zero (R97). -/
def decodeSlotIn (t v : Byte) : Instr :=
  if t = 0 then .rxNone else .rxData t v

/-- A handshake response (R99): the ready flag is tested only for zero. -/
def decodeHsResp (r p : Byte) : Instr :=
  if r = 0 then .hsInvalid else .hsValid r p

/-- Decode a word in its format. -/
def decode (i : Issue) : Except DecodeError Instr :=
  match i.fmt with
  | .slotOut => .ok (decodeSlotOut (hiByte i.word) (loByte i.word))
  | .slotIn => .ok (decodeSlotIn (hiByte i.word) (loByte i.word))
  | .hsReq => if i.word = Config.hsRequest then .ok .hsReq else .error (.notTheRequest i.word)
  | .hsResp => .ok (decodeHsResp (hiByte i.word) (loByte i.word))
  | .cmd => decodeCmd (hiByte i.word) (loByte i.word)
  | .uop => decodeUop (hiByte i.word) (loByte i.word)
  | .fn => decodeFn (hiByte i.word) (loByte i.word) i.args

/-- Decode from the two bytes as they cross the link, high byte first (R63). -/
def decodeLinkBytes (fmt : Format) (b0 b1 : Byte) : Except DecodeError Instr :=
  decode { fmt := fmt, word := joinBytes b0 b1, args := Args.zero }

/-- The two slots of an outbound frame as a monitor on the link reads them, slot 0 first (R107). -/
def decodeFrameOut (f : Frame) : Instr × Instr :=
  (decodeSlotOut f.slot0.tag f.slot0.value, decodeSlotOut f.slot1.tag f.slot1.value)

/-! ### The encoder -/

/-- A word of `fmt` from its two bytes, with no operand outside the word. -/
def issueOf (fmt : Format) (hi lo : Byte) : Issue := { fmt := fmt, word := joinBytes hi lo, args := Args.zero }

/-- The slot number as the operand byte (R103). -/
def slotByte : SlotIx → Byte
  | .slot0 => 0
  | .slot1 => 1

/-- The sample bit as the operand byte (R103). -/
def bitByte : Bool → Byte
  | false => 0
  | true => 1

/-- The word of an instruction, its format and its operands outside the word (R93, R96, R98, R99, R103, R104). Bits the spec
says are ignored are written as zero. -/
def encode : Instr → Issue
  | .slotEmpty => issueOf .slotOut Config.tagEmpty 0
  | .slotMidi b => issueOf .slotOut Config.tagMidi b
  | .slotLed d => issueOf .slotOut Config.tagLed d
  | .slotRsvd t v => issueOf .slotOut t v
  | .rxNone => issueOf .slotIn 0 0
  | .rxData t v => issueOf .slotIn t v
  | .hsReq => { fmt := .hsReq, word := Config.hsRequest, args := Args.zero }
  | .hsInvalid => issueOf .hsResp 0 0
  | .hsValid r p => issueOf .hsResp r p
  | .linkUp => issueOf .cmd 0x01 0
  | .linkDown => issueOf .cmd 0x02 0
  | .flashLed d => issueOf .cmd 0x10 d
  | .reqCycle => issueOf .cmd 0x11 0
  | .outOpen => issueOf .cmd 0x20 0
  | .outClose => issueOf .cmd 0x21 0
  | .outStart => issueOf .cmd 0x22 0
  | .outDrain => issueOf .cmd 0x23 0
  | .inOpen => issueOf .cmd 0x28 0
  | .inClose => issueOf .cmd 0x29 0
  | .inStart => issueOf .cmd 0x2A 0
  | .inStop => issueOf .cmd 0x2B 0
  | .iqDrain => issueOf .cmd 0x2C 0
  | .idGet sel => issueOf .cmd 0x30 sel
  | .sbLevel => issueOf .cmd 0x31 0
  | .oqLen => issueOf .cmd 0x32 0
  | .iqLen => issueOf .cmd 0x33 0
  | .oqPush b => issueOf .cmd 0x3E b
  | .cycStart => issueOf .uop 0x40 0
  | .itRefill => issueOf .uop 0x41 0
  | .composeSlot k => issueOf .uop 0x42 (slotByte k)
  | .itXchg => issueOf .uop 0x43 0
  | .itDecay => issueOf .uop 0x44 0
  | .deliverSlot k => issueOf .uop 0x45 (slotByte k)
  | .itCont => issueOf .uop 0x46 0
  | .cycFlush => issueOf .uop 0x47 0
  | .sbSample v => issueOf .uop 0x48 (bitByte v)
  | .sbEdge => issueOf .uop 0x49 0
  | .xchg tx => { fmt := .fn, word := joinBytes 0x50 0, args := { tx := tx, ticks := 0 } }
  | .xchg16 => issueOf .fn 0x51 0
  | .rdlp max => issueOf .fn 0x52 max
  | .idParse => issueOf .fn 0x53 0
  | .quiesce => issueOf .fn 0x54 0
  | .oqPop => issueOf .fn 0x58 0
  | .oqRefill => issueOf .fn 0x59 0
  | .iqPush b => issueOf .fn 0x5A b
  | .canSend => issueOf .fn 0x60 0
  | .onSent => issueOf .fn 0x61 0
  | .onElapsed t => { fmt := .fn, word := joinBytes 0x62 0, args := { tx := Args.zero.tx, ticks := t } }

/-! ### A bare word of the opcode table -/

/-- The format in which a bare word of the table is read where nothing else says it. The bits alone do not decide (R90: several
formats share words), so the model takes the first of these that lists the word: command, micro-step, function, outbound slot,
inbound slot. DESIGN CHOICE, log entry 14. -/
def tableFormat (w : Word) : Format :=
  let op := (hiByte w).toNat
  if op ∈ [0x01, 0x02, 0x10, 0x11, 0x20, 0x21, 0x22, 0x23, 0x28, 0x29, 0x2A, 0x2B, 0x2C, 0x30, 0x31, 0x32, 0x33, 0x3E] then .cmd
  else if op ∈ [0x40, 0x41, 0x42, 0x43, 0x44, 0x45, 0x46, 0x47, 0x48, 0x49] then .uop
  else if op ∈ [0x50, 0x51, 0x52, 0x53, 0x54, 0x58, 0x59, 0x5A, 0x60, 0x61, 0x62] then .fn
  else if w = 0 then .slotOut
  else if hiByte w = Config.tagMidi then .slotOut
  else if hiByte w = Config.tagLed then .slotOut
  else .slotIn

/-- The issue a bare word of the opcode table stands for: its operands outside the word are zero. -/
def issueOfTableWord (w : Nat) : Issue :=
  { fmt := tableFormat (BitVec.ofNat Config.wordBits w), word := BitVec.ofNat Config.wordBits w, args := Args.zero }

/-- The instruction the decoder reads from a bare word of `nbits` bits numbered as the opcode table numbers them; every row is
one 16-bit word. -/
def decodeTableWord (nbits w : Nat) : Option Instr :=
  if w < 2 ^ nbits ∧ w < 2 ^ Config.wordBits then (decode (issueOfTableWord w)).toOption else none

end Sys2Proof
end

