-- ==== Sys2Proof/Machine/State.lean ====
section
/-! DEFINITION. The state of the block (R20), the environment's inputs as data, the outcome of a step (R10), and the state after
hardware reset (R50, R330). -/

namespace Sys2Proof.Machine

/-- `lstate`: where the block is in its life (R21). -/
inductive LState where
  | down
  | bringup
  | up
  | shutdown
  deriving DecidableEq, Repr, Inhabited

/-- `wstate`: the request latch and run state of the worker (R23). -/
inductive WState where
  | idle
  | pending
  | running
  deriving DecidableEq, Repr, Inhabited

/-- `phase`: the worker's next micro-step while it runs (R24). -/
inductive Phase where
  | refill
  | compose0
  | compose1
  | xchg
  | decay
  | deliver0
  | deliver1
  | cont
  | flush
  deriving DecidableEq, Repr, Inhabited

/-- A byte store: (index, byte) pairs, indices strictly rising, no entry equal to what an unlisted index reads as (log entry 3). -/
abbrev Memory := List Host.Cell

/-- A byte ring in its register realisation (R35): a store of `QDEPTH` bytes, 12-bit read and write indices, and the count. -/
structure Ring where
  mem : Memory
  rd : BitVec 12
  wr : BitVec 12
  count : Nat
  deriving DecidableEq, Repr, Inhabited

/-- The error conditions of R301 and `OK`. Code 6 is reserved and never produced (U14), so it has no constructor. -/
inductive Status where
  | ok
  | linkUnavailable
  | protocolError
  | transferFault
  | resourceExhaustion
  | linkFault
  | refused
  deriving DecidableEq, Repr, Inhabited

/-- How a step ended (R10): `done .ok`, `done e` for `error(e)`, `done .refused`, or `held` (the caller waits). -/
inductive Verdict where
  | done (st : Status)
  | held
  deriving DecidableEq, Repr, Inhabited

/-- What an operation returns beside its status, on the data lines of the `CMD`, `IC` and `ID` groups (R11, R104) or to its
internal caller. -/
inductive Result where
  | none
  | flag (b : Bool)
  | number (n : Nat)
  | byte (b : Byte)
  | word (h : Word)
  | frame (f : Frame)
  | bytes (bs : List Byte)
  | block (dst : List Byte) (n : Nat)
  deriving DecidableEq, Repr, Inhabited

/-- The strings `ID_PARSE` has staged and not yet published (R231, R240). -/
structure Staging where
  fw : List Byte
  serial : List Byte
  uid : List Byte
  hw : List Byte
  deriving DecidableEq, Repr, Inhabited

/-- Where `LINK_UP` stands between its exchanges (R9, R231, R286). -/
inductive ParseStep where
  /-- No `LINK_UP` is in progress. -/
  | idle
  /-- Steps 1 to 3 are done; `ID_PARSE` begins with the count step (R232). -/
  | start
  /-- `left` fields are still to be read, the next of index `i`. -/
  | fields (left i : Nat) (st : Staging)
  deriving DecidableEq, Repr, Inhabited

/-- Where `RDLP` stands between its exchanges (R9, R128): the capacity of its destination, the data words still to come, the bytes
fetched so far. -/
structure BlockRead where
  max : Nat
  left : Nat
  got : List Byte
  deriving DecidableEq, Repr, Inhabited

/-- What an agent does next (R8): an operation or wire word is issued, or the environment acts. The list of these in the state is
the order in which the agents step. -/
inductive Event where
  /-- An operation of some agent, a command word on the command port, or a wire word. -/
  | op (i : Issue)
  /-- `WORKER` takes its next micro-step, if one is enabled (R140, R143). -/
  | worker
  /-- `HOST` takes its next step: the next exchange of a `LINK_UP` in progress (R9, R286), or a `LINK_DOWN` that is held in
  `QUIESCE` is taken again (R291, R292). -/
  | host
  /-- `CLOCK` advances `now` by `dt` ticks (R47). -/
  | clock (dt : Nat)
  /-- `OCLIENT` appends bytes to its own buffer (R48, R270). -/
  | ocAppend (bs : List Byte)
  /-- The environment drives `peer_present` (R288). -/
  | peerPresent (b : Bool)
  /-- `PEER` will answer the next exchanges with these (R121). -/
  | peerAnswers (as : List Config.LinkAnswer)
  /-- The hardware reset `rst` (R330). -/
  | rst
  deriving DecidableEq, Repr

/-- The state: every element of R20, then the environment's inputs (R46 to R49), then the outputs and the model's own fields. -/
structure State where
  -- lifecycle and link (R21, R22)
  lstate : LState
  linkBound : Bool
  -- where `LINK_UP` and `RDLP` stand between two of their exchanges (R9)
  parse : ParseStep
  block : Option BlockRead
  -- the worker (R23 to R26)
  wstate : WState
  phase : Phase
  hadData : Bool
  cbFired : Bool
  -- the datapath (R27 to R32)
  frameOut : Frame
  frameIn : Frame
  elapsed : Nat
  usage : Nat
  lastXfer : Nat
  ledDuration : Byte
  ledPending : Bool
  -- the queues (R33 to R35)
  oq : Ring
  iq : Ring
  -- endpoint and control bits (R36 to R39)
  outActive : Bool
  inActive : Bool
  readyCb : Bool
  drainWait : Bool
  -- the signal bridge (R40)
  sbMeta : Bool
  sbLevel : Bool
  sbPrev : Bool
  sbArmed : Bool
  -- the identity (R41)
  idSerial : List Byte
  idUid : List Byte
  idFw : List Byte
  idHw : List Byte
  idValid : Bool
  -- the diagnostics (R42)
  diagXferFaults : Nat
  diagInDrops : Nat
  -- inputs from outside the block: time (R47), the client's bytes (R48), the presence bit (R288), the peer's coming answers
  -- (R121), and the order of the agents' steps (R8)
  now : Nat
  ocBuf : List Byte
  peerPresent : Bool
  answers : List Config.LinkAnswer
  sched : List Event
  -- outputs: the last step's outcome (R10) and result (R11), the ready events given (R182), the last acknowledge (R212), the
  -- bytes the block last put on the link (R11)
  verdict : Verdict
  result : Result
  icReady : Nat
  ocAck : Nat
  linkTx : List Byte
  -- the model's own: exchanges made, whether the run is marked (R10, R307), the parameters (R7)
  linkCount : Nat
  marked : Bool
  params : Config.Params
  deriving DecidableEq, Repr

/-- Why the machine stops with a fault: it has NO constructor, because no step of this block halts the machine (R10); an error is
a status returned by the operation that met it (R300) and a refused operation leaves a next state (R307). SAFE: nothing stops. -/
inductive Fault where
  deriving DecidableEq, Repr

/-- Why the model has no meaning for an instruction. -/
inductive Refusal where
  /-- Raised by an arm of `exec` for an instruction the model does not give a meaning yet; no arm of this model does. SAFE: it
  stops the run. -/
  | notModelled (mnemonic : String)
  deriving DecidableEq, Repr

/-- The outcome type of a step of this machine. -/
abbrev Out := Host.Outcome State Fault Refusal

/-- A ring after reset and when created by `LINK_UP`: indices and count zero (R35). -/
def Ring.empty : Ring := { mem := [], rd := 0, wr := 0, count := 0 }

/-- The frame of four zero bytes (R106). -/
def Frame.zero : Frame := ⟨⟨0, 0⟩, ⟨0, 0⟩⟩

/-- The machine right after hardware reset: R50 for every element of the block. The inputs, the outputs and the model's own
fields take the values named in log entries 4 to 7. -/
def State.reset : State where
  lstate := .down
  linkBound := false
  parse := .idle
  block := none
  wstate := .idle
  phase := .refill
  hadData := false
  cbFired := false
  frameOut := Frame.zero
  frameIn := Frame.zero
  elapsed := 0
  usage := 0
  lastXfer := 0
  ledDuration := 0
  ledPending := false
  oq := Ring.empty
  iq := Ring.empty
  outActive := false
  inActive := false
  readyCb := false
  drainWait := false
  sbMeta := false
  sbLevel := false
  sbPrev := false
  sbArmed := false
  idSerial := []
  idUid := []
  idFw := []
  idHw := Config.hwverDefault
  idValid := false
  diagXferFaults := 0
  diagInDrops := 0
  now := 0
  ocBuf := []
  peerPresent := false
  answers := []
  sched := []
  verdict := .done .ok
  result := .none
  icReady := 0
  ocAck := 0
  linkTx := []
  linkCount := 0
  marked := false
  params := Config.params

end Sys2Proof.Machine
end

