-- ==== Sys2Proof/Machine/Operands.lean ====
section
/-! DEFINITION. Operand forms: the slots and bytes of a frame (R91, R96), the slot pairs the composer writes (R175 to R177), the
payload of a handshake word (R99, R102), and the renderings of identity fields (R234 to R238). -/

namespace Sys2Proof.Machine

/-! ### Frames and slots -/

/-- Slot `k` of a frame: bytes `2k` and `2k+1` (R65, R91). -/
def frameSlot (f : Frame) : SlotIx → Slot
  | .slot0 => f.slot0
  | .slot1 => f.slot1

/-- The frame with slot `k` replaced (R91). -/
def setFrameSlot (f : Frame) (k : SlotIx) (sl : Slot) : Frame :=
  match k with
  | .slot0 => { f with slot0 := sl }
  | .slot1 => { f with slot1 := sl }

/-- The four bytes of a frame in the order they cross the link (R63, R91). -/
def frameBytes (f : Frame) : List Byte := [f.slot0.tag, f.slot0.value, f.slot1.tag, f.slot1.value]

/-- The two 16-bit words of a frame, word 0 first: the tag is the high byte of its word (R63, R91). -/
def frameWords (f : Frame) : Word × Word :=
  (joinBytes f.slot0.tag f.slot0.value, joinBytes f.slot1.tag f.slot1.value)

/-- `SLOT.LED d` (R175). -/
def ledPair (d : Byte) : Slot := ⟨Config.tagLed, d⟩

/-- `SLOT.MIDI b` (R176). -/
def midiPair (b : Byte) : Slot := ⟨Config.tagMidi, b⟩

/-- `SLOT.EMPTY` (R177). -/
def emptyPair : Slot := ⟨Config.tagEmpty, 0⟩

/-! ### Link answers and handshake words -/

/-- The inbound frame of a successful `XCHG` (R122). -/
def answerFrame (a : Config.LinkAnswer) : Frame := ⟨⟨a.b0, a.b1⟩, ⟨a.b2, a.b3⟩⟩

/-- The response word of a successful `XCHG16`: `rx[0] ++ rx[1]` (R126). -/
def answerWord (a : Config.LinkAnswer) : Word := joinBytes a.b0 a.b1

/-- The peer's answer to an `XCHG16` that carries the response word `r p`; the two bytes `XCHG16` does not read are zero (R99, R126). -/
def handshakeAnswer (r p : Byte) : Config.LinkAnswer := { ok := true, b0 := r, b1 := p, b2 := 0, b3 := 0 }

/-- What the caller of `XCHG16` reads in the response (R99, R127): the payload, or nothing where the ready flag is zero. -/
def hsPayload (h : Word) : Option Byte := if hiByte h = 0 then none else some (loByte h)

/-- The destination buffer of `RDLP`: the bytes read, zero-filled to the capacity (R128). -/
def padTo (max : Nat) (bs : List Byte) : List Byte := bs ++ List.replicate (max - bs.length) 0

/-! ### Identity strings -/

/-- One lowercase hexadecimal digit as ASCII (R235). -/
def hexDigit (n : Nat) : Byte := if n < 10 then BitVec.ofNat 8 (0x30 + n) else BitVec.ofNat 8 (0x57 + n)

/-- A byte as exactly two hexadecimal digits, high nibble first (R234, R237). -/
def hexByte (b : Byte) : List Byte := [hexDigit (b.toNat / 16), hexDigit (b.toNat % 16)]

/-- A byte in hexadecimal with no leading zero (R234, R238). -/
def hexShort (b : Byte) : List Byte := if b.toNat < 16 then [hexDigit b.toNat] else hexByte b

/-- The full stop of the version strings (R234, R238). -/
def fullStop : Byte := 0x2E

/-- `fmt_fw(b0, b1)` (R234). -/
def fmtFw (b0 b1 : Byte) : List Byte := hexShort b0 ++ fullStop :: hexByte b1

/-- `fmt_hw(b0, b1)` (R238). -/
def fmtHw (b0 b1 : Byte) : List Byte := hexShort b0 ++ fullStop :: hexShort b1

/-- `hex(bytes)`: two digits for each byte, in the order received (R237). -/
def hexString (bs : List Byte) : List Byte := bs.flatMap hexByte

/-! ### Status codes -/

/-- The 3-bit code of a status on the command port (R104, R301). -/
def statusCode : Status → BitVec 3
  | .ok => 0
  | .linkUnavailable => 1
  | .protocolError => 2
  | .transferFault => 3
  | .resourceExhaustion => 4
  | .linkFault => 5
  | .refused => 7

/-- Whether an outcome ends its operation (R10): not while the caller is held. -/
def verdictDone : Verdict → Bool
  | .done _ => true
  | .held => false

/-! ### Phases -/

/-- The phase that enables `COMPOSE_SLOT k` (R147). -/
def composePhase : SlotIx → Phase
  | .slot0 => .compose0
  | .slot1 => .compose1

/-- The phase `COMPOSE_SLOT k` leaves (R174). -/
def afterCompose : SlotIx → Phase
  | .slot0 => .compose1
  | .slot1 => .xchg

/-- The phase that enables `DELIVER_SLOT k` (R151). -/
def deliverPhase : SlotIx → Phase
  | .slot0 => .deliver0
  | .slot1 => .deliver1

/-- The phase `DELIVER_SLOT k` leaves (R180). -/
def afterDeliver : SlotIx → Phase
  | .slot0 => .deliver1
  | .slot1 => .cont

end Sys2Proof.Machine
end

