-- ==== Sys2Proof/Machine/Flags.lean ====
section
/-! DEFINITION. The one-bit conditions the steps test (R44): no operation sets a condition code, each of these is computed where
it is read (R76). -/

namespace Sys2Proof.Machine

/-- `len(oq) = 0` (R44, R206). -/
def oqEmpty (s : State) : Bool := s.oq.count == 0

/-- `len(iq) = 0` (R155, R206). -/
def iqEmpty (s : State) : Bool := s.iq.count == 0

/-- `usage + COST < CEILING`, strict, on natural numbers (R191). -/
def gateOpen (s : State) : Bool := decide (s.usage + Config.cost < Config.ceiling)

/-- `CAN_SEND` (R191): the gate, or an LED command is pending. -/
def canSendFlag (s : State) : Bool := gateOpen s || s.ledPending

/-- `Level()` (R253): the synchronised level, not the line itself. -/
def levelFlag (s : State) : Bool := s.sbLevel

/-- The continuation condition of loop step 6, its five terms read in one step (R153). -/
def moreWork (s : State) : Bool :=
  s.hadData || !oqEmpty s || levelFlag s || s.ledPending || s.usage != 0

/-- `len(iq)` passes from at most `WATERMARK` to above it (R181). -/
def crossesWatermark (before after : Nat) : Bool :=
  decide (before ≤ Config.watermark) && decide (Config.watermark < after)

/-- Room for a full transfer's worth of bytes in the Outbound Queue (R145, R146). -/
def hasRoom (s : State) : Bool := decide (s.params.peekMax ≤ Config.qDepth - s.oq.count)

/-- A worker micro-step is enabled only while the worker runs and `phase` names it (R140). -/
def enabledAt (p : Phase) (s : State) : Bool := s.wstate == .running && s.phase == p

/-- The queues and the estimate exist: from link-up to link-down (R222, R285). -/
def linkAlive (s : State) : Bool := s.lstate == .up || s.lstate == .shutdown

/-- What R193 makes the contract of `ON_SENT`: the estimate exists (R285), and `CAN_SEND` was found true with no LED command pending
(R197, U8). -/
def sentGuard (s : State) : Bool := linkAlive s && gateOpen s && !s.ledPending

/-- The worker is in a cycle: the composition state and the link are its own (R72, R340). -/
def workerRuns (s : State) : Bool := s.wstate == .running

/-- The slot whose `COMPOSE_SLOT` is enabled, if one is (R147). -/
def composingSlot (s : State) : Option SlotIx :=
  if enabledAt .compose0 s then some .slot0 else if enabledAt .compose1 s then some .slot1 else none

/-- The slot whose `DELIVER_SLOT` is enabled, if one is (R151). -/
def deliveringSlot (s : State) : Option SlotIx :=
  if enabledAt .deliver0 s then some .slot0 else if enabledAt .deliver1 s then some .slot1 else none

/-- A command's caller is held: `OUT_DRAIN` (R39), `LINK_UP` between its exchanges (R9), `LINK_DOWN` (R292). -/
def callerHeld (s : State) : Bool := s.drainWait || s.lstate == .bringup || s.lstate == .shutdown

/-- `done` of the command port: low while a caller is held, until the hold is lifted (R104, R269). -/
def cmdDone (s : State) : Bool := !callerHeld s && verdictDone s.verdict

end Sys2Proof.Machine
end

