-- ==== Sys2Proof/Machine/Ops.lean ====
section
/-! DEFINITION. The named operations: the ring stores (R35, R62, R66), the outcomes of a step and the taking of an error (R10,
R311), the cycle request (R141), the ready event (R182), the link exchange (R121 to R128). -/

namespace Sys2Proof.Machine

/-! ### The byte store of a ring -/

/-- What an index that nothing has written reads as: the spec leaves the content of the store open (R35, U11) and no rule can
read it; log entry 3 fixes zero. -/
def unlistedByte : Byte := 0

/-- The byte at an index of a store (R62). -/
def memGet : Memory → Nat → Byte
  | [], _ => unlistedByte
  | (x, b) :: m, a => if x = a then b else memGet m a

/-- The store with one byte written (R62), in canonical form again. -/
def memSet : Memory → Nat → Byte → Memory
  | [], a, v => if v = unlistedByte then [] else [(a, v)]
  | (x, b) :: m, a, v =>
    if x = a then (if v = unlistedByte then m else (a, v) :: m)
    else if a < x then (if v = unlistedByte then (x, b) :: m else (a, v) :: (x, b) :: m)
    else (x, b) :: memSet m a v

/-- Indices at least `lo`, strictly rising, below `QDEPTH`, and no entry equal to what an unlisted index reads as. -/
def memWfFrom : Nat → Memory → Bool
  | _, [] => true
  | lo, (x, b) :: m =>
    decide (lo ≤ x) && decide (x < Config.qDepth) && b != unlistedByte && memWfFrom (x + 1) m

/-- The canonical form of a ring's store; the only indices that exist are 0..4095 (R61). -/
def Memory.wf (m : Memory) : Bool := memWfFrom 0 m

/-! ### Rings -/

/-- `MemRead(Q, addr, n)`: places `(addr + k) mod 4096` for `k = 0 .. n-1` (R62, R66). -/
def ringRead (r : Ring) (addr n : Nat) : List Byte :=
  (List.range n).map fun k => memGet r.mem ((addr + k) % Config.qDepth)

/-- `MemWrite(Q, addr, 1, v)` (R62). -/
def ringWrite (r : Ring) (addr : Nat) (v : Byte) : Ring :=
  { r with mem := memSet r.mem (addr % Config.qDepth) v }

/-- The content of a ring, oldest byte first: the list form the rules are stated on (R33 to R35). -/
def ringList (r : Ring) : List Byte := ringRead r r.rd.toNat r.count

/-- The room of a ring (R206). -/
def ringRoom (r : Ring) : Nat := Config.qDepth - r.count

/-- Push one byte at the tail, or nothing where the ring is full (R66, R206, R208, R217). -/
def ringPush (r : Ring) (b : Byte) : Option Ring :=
  if Config.qDepth ≤ r.count then none
  else some { ringWrite r r.wr.toNat b with wr := r.wr + 1, count := r.count + 1 }

/-- Pop the byte at the head, or nothing where the ring is empty (R66, R206, R209). Any value may stand in the place the byte leaves
(U11); that the old byte stays there is the model's choice, log entry 3. -/
def ringPop (r : Ring) : Option (Byte × Ring) :=
  if r.count = 0 then none
  else some (memGet r.mem r.rd.toNat, { r with rd := r.rd + 1, count := r.count - 1 })

/-- Remove every byte: the read index advances by one for each (R66, R219). That the old bytes stay in their places is the model's
choice, log entry 3. -/
def ringDrain (r : Ring) : Ring := { r with rd := r.rd + BitVec.ofNat 12 r.count, count := 0 }

/-- Push bytes in order until one is not accepted; the number accepted and the ring (R215). -/
def ringPushAll : List Byte → Ring → Nat × Ring
  | [], r => (0, r)
  | b :: bs, r =>
    match ringPush r b with
    | none => (0, r)
    | some r' => ((ringPushAll bs r').1 + 1, (ringPushAll bs r').2)

/-- The registers of a ring agree: at most `QDEPTH` bytes, the write index is the read index plus the count, and the store is in
canonical form (R35, R66). -/
def Ring.ok (r : Ring) : Bool :=
  decide (r.count ≤ Config.qDepth) && r.wr == r.rd + BitVec.ofNat 12 r.count && r.mem.wf

/-! ### How a step ends (R10) -/

/-- The step ends with this outcome and result (R10, R11). -/
def State.reply (v : Verdict) (r : Result) (s : State) : State := { s with verdict := v, result := r }

/-- The step ends `ok` with no result (R10). -/
def State.succeed (s : State) : State := s.reply (.done .ok) .none

/-- The step ends `ok` with a result (R10). -/
def State.answer (r : Result) (s : State) : State := s.reply (.done .ok) r

/-- `raise E`: TAKING AN ERROR. Nothing is saved, no vector is read, no mode changes, no mask is set, control goes nowhere: the
step ends with `error(E)` and the state is what the raising rule says (R13, R311). There is no return operation beside it, since
there is no handler inside the block (R312). -/
def State.raise (e : Status) (s : State) : State := s.reply (.done e) .none

/-- The operation is not admitted in the current state: status `Refused`, no state changes, and the model marks the run (R10,
R307, U1). -/
def State.refuse (s : State) : State := { s.reply (.done .refused) .none with marked := true }

/-- Outside the contract: the operation ran without the agent that R103 gives it. The block does not check the issuer (R317), so the
effect is the rule's; the run is marked wherever the link is up or going down, where the environment must keep the discipline (R72,
R77, U2, U3). Log entry 13. -/
def outsideContract (s : State) : State := { s with marked := s.marked || linkAlive s }

/-- The caller waits; the rule that holds it names what lifts the hold (R10). -/
def State.hold (s : State) : State := s.reply .held .none

/-! ### The request latch and the ready event -/

/-- `REQ_CYCLE` (R141): a test-and-set of the request latch, a no-op unless the link is up and the worker idle. -/
def requestCycle (s : State) : State :=
  if s.lstate = .up ∧ s.wstate = .idle then { s with wstate := .pending } else s

/-- `pulse ic_ready` (R182): one ready event to the input client, not latched; the model counts the events given. -/
def pulseReady (s : State) : State := { s with icReady := s.icReady + 1 }

/-- `SB_EDGE` (R254): its only effect is to request a cycle, while armed. -/
def notifyEdge (s : State) : State := if s.sbArmed then requestCycle s else s

/-! ### The link -/

/-- What `Link` answers to the next exchange (R121): the next scripted answer of the peer, or, where none is left, the free value
of this exchange. -/
def linkAnswerOf (s : State) : Config.LinkAnswer :=
  match s.answers with
  | a :: _ => a
  | [] => Config.linkAnswer s.linkCount

/-- The block has put `out` on the link and taken one answer of the peer (R65, R121). -/
def afterLink (out : List Byte) (s : State) : State :=
  { s with answers := s.answers.tail, linkCount := s.linkCount + 1, linkTx := out }

/-- An exchange ended in `TransferFault` or `LinkFault` (R42, R122). -/
def countFault (s : State) : State := { s with diagXferFaults := s.diagXferFaults + 1 }

/-- What an exchange answers: its status, the inbound half, and the state after it. -/
structure Exchanged (α : Type) where
  status : Status
  rx : α
  after : State

/-- The engine's exchange, for frames and handshake words alike (R122, R126): with no link bound, `LinkFault` and no byte crosses;
on a failed transfer, `TransferFault`; both answer `zero`, the zero-filled response (R123, R124). -/
def exchange {α : Type} (out : List Byte) (read : Config.LinkAnswer → α) (zero : α) (s : State) : Exchanged α :=
  if s.linkBound then
    if (linkAnswerOf s).ok then ⟨.ok, read (linkAnswerOf s), afterLink out s⟩
    else ⟨.transferFault, zero, countFault (afterLink out s)⟩
  else ⟨.linkFault, zero, countFault s⟩

/-- `XCHG` (R122). -/
def exchangeFrame (out : Frame) (s : State) : Exchanged Frame :=
  exchange (frameBytes out) answerFrame Frame.zero s

/-- `XCHG16` (R126): the request is always `0x0000`. -/
def exchangeWord (s : State) : Exchanged Word :=
  exchange (wordBytes Config.hsRequest) answerWord 0 s

end Sys2Proof.Machine
end

