-- ==== Sys2Proof/Machine/Bridge.lean ====
section
/-! DEFINITION. The signal bridge (R250 to R259). -/

namespace Sys2Proof.Machine

/-- One clock of the two-stage synchroniser, and the edge notification (R252). -/
def sampleLine (v : Bool) (s : State) : State :=
  let s' := { s with sbPrev := s.sbLevel, sbLevel := s.sbMeta, sbMeta := v }
  if s.sbArmed && !s.sbLevel && s'.sbLevel then notifyEdge s' else s'

/-- `SB_SAMPLE v` (R252): enabled in every lifecycle state. -/
def execSbSample (v : Bool) (s : State) : Out := .next (sampleLine v s).succeed

/-- `SB_EDGE` (R254). This model has the synchroniser, whose `SB_SAMPLE` takes the handler with it on a 0-to-1 change of the level; that
the label issued by itself, with no such change, also has its effect and leaves the run unmarked is the model's choice, log entry 13. -/
def execSbEdge (s : State) : Out := .next (notifyEdge s).succeed

/-- `SB_LEVEL` (R253): admitted in every lifecycle state. -/
def execSbLevel (s : State) : Out := .next (s.answer (.flag (levelFlag s)))

end Sys2Proof.Machine
end

