-- ==== Sys2Proof/Machine/Endpoints.lean ====
section
/-! DEFINITION. The stream endpoints: eight commands, all refused unless the link is up (R265 to R279). -/

namespace Sys2Proof.Machine

/-- `OUT_OPEN` (R266). -/
def execOutOpen (s : State) : Out :=
  .next (if s.lstate = .up then ({ s with outActive := true } : State).succeed else s.refuse)

/-- `OUT_CLOSE` (R267). -/
def execOutClose (s : State) : Out :=
  .next (if s.lstate = .up then ({ s with outActive := false } : State).succeed else s.refuse)

/-- `OUT_START` (R268). -/
def execOutStart (s : State) : Out :=
  .next (if s.lstate = .up then (requestCycle s).succeed else s.refuse)

/-- `OUT_DRAIN` (R269), the step the caller takes again until it is not held: it waits for the Outbound Queue alone. -/
def execOutDrain (s : State) : Out :=
  .next (
    if s.lstate ≠ .up then ({ s with drainWait := false } : State).refuse
    else if oqEmpty s then ({ s with drainWait := false } : State).succeed
    else (requestCycle { s with drainWait := true }).hold)

/-- `IN_OPEN` (R271). -/
def execInOpen (s : State) : Out :=
  .next (if s.lstate = .up then ({ s with inActive := true } : State).succeed else s.refuse)

/-- `IN_CLOSE` (R272): the callback goes with the endpoint. -/
def execInClose (s : State) : Out :=
  .next (if s.lstate = .up then ({ s with inActive := false, readyCb := false } : State).succeed else s.refuse)

/-- `IN_START` (R273). -/
def execInStart (s : State) : Out :=
  .next (if s.lstate = .up then (requestCycle { s with readyCb := true }).succeed else s.refuse)

/-- `IN_STOP` (R274). -/
def execInStop (s : State) : Out :=
  .next (if s.lstate = .up then ({ s with readyCb := false } : State).succeed else s.refuse)

end Sys2Proof.Machine
end

