-- ==== Sys2Proof/Machine/Flow.lean ====
section
/-! DEFINITION. The flow controller (R190 to R199). -/

namespace Sys2Proof.Machine

/-- The estimate after one byte was queued into a slot (R193). -/
def chargeByte (s : State) : State := { s with usage := s.usage + Config.cost }

/-- The estimate after `t` ticks, floored at zero; the product is exact (R194, R196). -/
def decayUsage (t : Nat) (s : State) : State :=
  let d := s.params.drainRate * t
  { s with usage := if d ≤ s.usage then s.usage - d else 0 }

/-- `CAN_SEND` (R191). That the run stays unmarked where it is issued as a step of its own (R190) is the model's choice, log entry 13. -/
def execCanSend (s : State) : Out := .next (s.answer (.flag (canSendFlag s)))

/-- `ON_SENT` (R193): outside its contract it is refused and the run is marked, as U8 asks (log entry 11). Within it the charge is the
rule's, also where it is issued as a step of its own, beside a running worker too; that this leaves the run unmarked is the model's
choice, log entry 13. -/
def execOnSent (s : State) : Out := .next (if sentGuard s then (chargeByte s).succeed else s.refuse)

/-- `ON_ELAPSED t` (R194). That it has its effect as a step of its own (R190), wherever it is issued, and leaves the run unmarked is the
model's choice, log entry 13. -/
def execOnElapsed (t : Nat) (s : State) : Out := .next (decayUsage t s).succeed

end Sys2Proof.Machine
end

