-- ==== Sys2Proof/Machine/Identity.lean ====
section
/-! DEFINITION. The device identity: the staging of the fields, the publication, the accessor (R231 to R245). -/

namespace Sys2Proof.Machine

/-- The staged defaults (R231, R241). -/
def staged0 : Staging := { fw := [], serial := [], uid := [], hw := Config.hwverDefault }

/-- Take field `i` with its bytes into the staging, or nothing where the field violates its length or capacity (R234 to R239). -/
def stageField (i : Nat) (bs : List Byte) (st : Staging) : Option Staging :=
  match i with
  | 0 => match bs with
    | [b0, b1] => some { st with fw := fmtFw b0 b1 }
    | _ => none
  | 1 => if Config.serialCap - 1 < bs.length then none else some { st with serial := bs }
  | 2 => if Config.idCap - 1 < 2 * bs.length then none else some { st with uid := hexString bs }
  | 3 => match bs with
    | [b0, b1] => some { st with hw := fmtHw b0 b1 }
    | _ => none
  | _ => some st

/-- Publish all four strings at once (R241). -/
def publish (st : Staging) (s : State) : State :=
  { s with idFw := st.fw, idSerial := st.serial, idUid := st.uid, idHw := st.hw, idValid := true }

/-- The identity at its defaults (R41, R293). -/
def clearIdentity (s : State) : State :=
  { s with idSerial := [], idUid := [], idFw := [], idHw := Config.hwverDefault, idValid := false }

/-- `ID_GET sel` (R243): admitted in every lifecycle state; `sel > 3` is refused (R105). -/
def execIdGet (sel : Byte) (s : State) : Out :=
  match sel.toNat with
  | 0 => .next (s.answer (.bytes s.idSerial))
  | 1 => .next (s.answer (.bytes s.idUid))
  | 2 => .next (s.answer (.bytes s.idFw))
  | 3 => .next (s.answer (.bytes s.idHw))
  | _ => .next s.refuse

end Sys2Proof.Machine
end

