-- ==== Sys2Proof/Machine/Lifecycle.lean ====
section
/-! DEFINITION. Bring-up, shutdown, quiesce (R285 to R296), and hardware reset (R330). -/

namespace Sys2Proof.Machine

/-- `LINK_UP` steps 1 and 2 (R286, R287): `BRINGUP`, the worker acquired; the line resources are always there. -/
def beginBringUp (s : State) : State := { s with lstate := .bringup, wstate := .idle }

/-- `LINK_UP` step 3 where a peripheral is present (R286, R288): a link is bound, and step 4 begins with the count step. -/
def bindLink (s : State) : State := { s with linkBound := true, parse := .start, block := none }

/-- Rollback of a failed bring-up (R290): the link is unbound and the block is `DOWN`; the identity is at its defaults (R293). -/
def rollBack (s : State) : State := { clearIdentity s with linkBound := false, lstate := .down, parse := .idle, block := none }

/-- `LINK_UP` step 5 (R286): what a successful bring-up initialises (R51), the bridge armed on the present level (R255). The rings
are new (R285, R296); that their stores read zero again at every place is the model's choice, log entry 3. -/
def createLink (s : State) : State :=
  { s with
    parse := .idle, block := none,
    oq := Ring.empty, iq := Ring.empty, usage := 0, lastXfer := s.now,
    hadData := false, cbFired := false, ledDuration := 0, ledPending := false,
    outActive := false, inActive := false, readyCb := false, drainWait := false,
    sbPrev := s.sbLevel, sbArmed := true, lstate := .up }

/-- `LINK_UP` step 6, the post-init kick (R256). -/
def kick (s : State) : State := if levelFlag s then requestCycle s else s

/-- `LINK_DOWN` step 0 (R291): new work is shut out and a held `OUT_DRAIN` ends refused, which marks the run (R307). -/
def shutOut (s : State) : State :=
  { s with lstate := .shutdown, sbArmed := false, drainWait := false, marked := s.marked || s.drainWait }

/-- `LINK_DOWN` steps 2 to 4 (R291). In `DOWN` every element but the counters and the synchroniser bits has its reset value (R21,
R293), so the datapath registers the steps do not name are cleared too (log entry 9). The rings are destroyed (R285); that their stores
read zero again at every place, also those written before, is the model's choice, log entry 3. -/
def tearDown (s : State) : State :=
  { clearIdentity s with
    linkBound := false, parse := .idle, block := none, oq := Ring.empty, iq := Ring.empty, usage := 0, ledDuration := 0, ledPending := false,
    outActive := false, inActive := false, readyCb := false, lstate := .down,
    phase := .refill, hadData := false, cbFired := false, frameOut := Frame.zero, frameIn := Frame.zero,
    elapsed := 0, lastXfer := 0 }

/-- `LINK_DOWN` from step 1 on (R291, R292): held until the worker is idle, then torn down. -/
def quiesceThenTearDown (s : State) : State :=
  if s.wstate = .idle then (tearDown s).succeed else s.hold

/-- `LINK_DOWN` (R291). -/
def execLinkDown (s : State) : Out :=
  .next (if s.lstate = .up then quiesceThenTearDown (shutOut s) else s.refuse)

/-- `QUIESCE` (R292): `ok` when the worker is idle, else `held`; it changes nothing. That the run stays unmarked where it is issued as a
step of its own (R318) is the model's choice, log entry 13. -/
def execQuiesce (s : State) : Out := .next (if s.wstate = .idle then s.succeed else s.hold)

/-- `HOST` goes on with a held `LINK_DOWN`: `QUIESCE` is taken again (R292), and steps 2 to 4 follow when it is `ok`. Without a
`LINK_DOWN` in progress `HOST` has no such step. -/
def resumeLinkDown (s : State) : State := if s.lstate = .shutdown then quiesceThenTearDown s else s

/-- Hardware reset (R330): every element of the block takes its reset value; a held `OUT_DRAIN` or `LINK_DOWN` ends refused. The
inputs from outside and the model's own counters are no state of the block and stay (R49). A bring-up or a block read in progress is
abandoned. -/
def hardReset (s : State) : State :=
  let heldCaller := s.drainWait || s.lstate == .shutdown
  { State.reset with
    now := s.now, ocBuf := s.ocBuf, peerPresent := s.peerPresent, answers := s.answers, sched := s.sched,
    verdict := if heldCaller then .done .refused else .done .ok,
    icReady := s.icReady, linkCount := s.linkCount, marked := s.marked || heldCaller, params := s.params }

end Sys2Proof.Machine
end

