-- ==== Sys2Proof/Machine/Handshake.lean ====
section
/-! DEFINITION. The sequences of handshakes (R9): `LINK_UP`, `ID_PARSE` and `RDLP` make one `XCHG16` a step, and steps of other
agents may fall between any two of them. `State.parse` and `State.block` say where they stand. Log entry 10. -/

namespace Sys2Proof.Machine

/-! ### How a sequence ends -/

/-- `LINK_UP` steps 5 and 6, after a parse that succeeded (R241, R286). -/
def finishBringUp (st : Staging) (s : State) : State := (kick (createLink (publish st s))).succeed

/-- `ID_PARSE` failed, and `LINK_UP` with it: nothing is published, no further exchange is made (R240, R289, R290). -/
def failBringUp (s : State) : State := (rollBack s).raise .protocolError

/-- `ID_PARSE` between two fields: `left` to read, the next of index `i`; with none left it has succeeded (R231). -/
def nextField (left i : Nat) (st : Staging) (s : State) : State :=
  match left with
  | 0 => finishBringUp st s
  | n + 1 => { s with parse := .fields (n + 1) i st, block := none }.hold

/-- What `RDLP` gives its caller: the destination and the number of bytes read, or a destination of zeros and `ProtocolError`
(R128). -/
def blockReply (max : Nat) (got : Option (List Byte)) (s : State) : State :=
  match got with
  | none => s.reply (.done .protocolError) (.block (padTo max []) 0)
  | some bs => s.reply (.done .ok) (.block (padTo max bs) bs.length)

/-- `RDLP` has ended. In a bring-up `ID_PARSE` takes the field or fails (R231, R240); otherwise its caller has the block. -/
def endBlock (max : Nat) (got : Option (List Byte)) (s : State) : State :=
  match s.parse with
  | .fields left i st =>
    match got.bind (stageField i · st) with
    | none => failBringUp s
    | some st' => nextField (left - 1) (i + 1) st' s
  | _ => blockReply max got { s with block := none }

/-- `RDLP` between two data words; with none left it has succeeded (R128). -/
def moreData (b : BlockRead) (s : State) : State :=
  if b.left = 0 then endBlock b.max (some b.got) s else { s with block := some b }.hold

/-! ### One handshake of a sequence -/

/-- The count step of `ID_PARSE` (R231, R232). -/
def countStep (s : State) : State :=
  match hsPayload (exchangeWord s).rx with
  | none => failBringUp (exchangeWord s).after
  | some n => nextField n.toNat 0 staged0 (exchangeWord s).after

/-- The first handshake of `RDLP`: the length. The ready flag is tested before the length (R128, R310). -/
def lengthStep (max : Nat) (s : State) : State :=
  match hsPayload (exchangeWord s).rx with
  | none => endBlock max none (exchangeWord s).after
  | some len =>
    if max < len.toNat then endBlock max none (exchangeWord s).after
    else moreData { max := max, left := len.toNat, got := [] } (exchangeWord s).after

/-- A further handshake of `RDLP`: one data byte; the first invalid one throws away what was fetched (R128, R129). -/
def dataStep (b : BlockRead) (s : State) : State :=
  match hsPayload (exchangeWord s).rx with
  | none => endBlock b.max none (exchangeWord s).after
  | some v => moreData { b with left := b.left - 1, got := b.got ++ [v] } (exchangeWord s).after

/-- An `XCHG16` that belongs to no sequence: the status and the response word are its caller's (R126). -/
def singleHandshake (s : State) : State :=
  (outsideContract (exchangeWord s).after).reply (.done (exchangeWord s).status) (.word (exchangeWord s).rx)

/-- `XCHG16` where the link's one user stands (R72): the next handshake of the `RDLP` or the `LINK_UP` in progress, or one of its
own. -/
def handshake (s : State) : State :=
  match s.block, s.parse with
  | some b, _ => dataStep b s
  | none, .start => countStep s
  | none, .fields _ _ _ => lengthStep Config.rdlpScratch s
  | none, .idle => singleHandshake s

/-- The link has a user that is between two of its exchanges: a bring-up, or an `RDLP` (R72). -/
def linkTaken (s : State) : Bool := s.parse != .idle || s.block.isSome

/-! ### The two operations of `HOST` -/

/-- `LINK_UP` steps 1 to 3 from `DOWN` (R286, R288). Its exchanges are `HOST`'s next steps, and its caller is held until the last. -/
def startBringUp (s : State) : State :=
  if s.peerPresent then (bindLink (beginBringUp s)).hold else (rollBack (beginBringUp s)).raise .linkUnavailable

/-- `LINK_UP` (R286). -/
def execLinkUp (s : State) : Out := .next (if s.lstate = .down then startBringUp s else s.refuse)

/-- `ID_PARSE` (R231): called by `LINK_UP` step 4 alone (R230, R318), where it makes its count step; its fields are the next steps.
Anywhere else it has no caller and is refused (U2). -/
def execIdParse (s : State) : Out := .next (if s.parse = .start then countStep s else s.refuse)

end Sys2Proof.Machine
end

