-- ==== Sys2Proof/Machine/Wire.lean ====
section
/-! DEFINITION. The nine wire encodings as steps: an outbound slot is placed in the frame being composed (R175 to R177), an inbound
slot is decoded and delivered (R183, R184), a handshake request is sent (R98), a handshake response is read by the sequence that waits for
it (R99, R127). Log entry 15. -/

namespace Sys2Proof.Machine

/-- Place a slot's pair in `frame_out` (R27, R174). -/
def putSlot (k : SlotIx) (sl : Slot) (s : State) : State := { s with frameOut := setFrameSlot s.frameOut k sl }

/-- Place a pair in the slot whose `COMPOSE_SLOT` is enabled, and nowhere else: the composer runs only as a micro-step of the worker
(R140, R170). `frame_out` is the worker's own (R72, R340), so a slot word that is not part of `COMPOSE_SLOT` marks the run. -/
def emitSlot (sl : Slot) (s : State) : State :=
  match composingSlot s with
  | some k => (outsideContract (putSlot k sl s)).succeed
  | none => s.refuse

/-- The queue half of `IQ_PUSH` (R217): append the byte, or drop it and count the drop; whether it was stored, and the state. -/
def storeInbound (b : Byte) (s : State) : Bool × State :=
  match ringPush s.iq b with
  | none => (false, { s with diagInDrops := s.diagInDrops + 1 })
  | some q => (true, { s with iq := q })

/-- The delivery branch of `DELIVER_SLOT` (R180): the byte arrived whether or not it was stored, and a watermark crossing gives one
ready event in an iteration while a callback is registered. -/
def deliverByte (v : Byte) (s : State) : State :=
  let stored := storeInbound v s
  let s' := { stored.2 with hadData := true }
  if stored.1 && crossesWatermark s.iq.count s'.iq.count && !s.cbFired && s.readyCb then
    { pulseReady s' with cbFired := true }
  else s'

/-- An inbound slot (R96, R180): nonzero tag delivers, zero tag does nothing whatever the value. -/
def deliverPair (t v : Byte) (s : State) : State := if t = 0 then s else deliverByte v s

/-- `SLOT.EMPTY` (R177). -/
def execSlotEmpty (s : State) : Out := .next (emitSlot emptyPair s)

/-- `SLOT.MIDI b` (R176). -/
def execSlotMidi (b : Byte) (s : State) : Out := .next (emitSlot (midiPair b) s)

/-- `SLOT.LED d` (R175): neither tests nor changes `usage`. -/
def execSlotLed (d : Byte) (s : State) : Out := .next (emitSlot (ledPair d) s)

/-- `SLOT.RSVD` (R95, U4): this block never produces it, so as a step of the block it is refused and the run is marked. -/
def execSlotRsvd (_t _v : Byte) (s : State) : Out := .next s.refuse

/-- `RX.NONE` (R183): no effect. -/
def execRxNone (s : State) : Out := .next s.succeed

/-- `RX.DATA v` (R184): the delivery branch of R180; the tag is discarded. The decoder runs only as a micro-step of the worker
(R170), so the word is delivered while a `DELIVER_SLOT` is enabled and nowhere else, and as a step of its own it marks the run
(R71, R77, U3). -/
def execRxData (t v : Byte) (s : State) : Out :=
  .next (
    match deliveringSlot s with
    | some _ => (outsideContract (deliverPair t v s)).succeed
    | none => s.refuse)

/-- `HS.REQ` (R98): the two bytes `00 00` go out on the link; with no link bound no byte crosses and the fault is counted (R42,
R123). No handshake is made in steady state (R131, U15): there it marks the run. Beside a running worker, and beside a bring-up or a block read
between two of its exchanges, whose user has the link, it is refused (R72, U2). -/
def execHsReq (s : State) : Out :=
  .next (
    if workerRuns s || linkTaken s then s.refuse
    else if s.linkBound then (outsideContract { s with linkTx := wordBytes Config.hsRequest }).succeed
    else (outsideContract (countFault s)).raise .linkFault)

/-- The peer's response `r p` to the next handshake of the sequence in progress (R99, R126): the count step or a field of `ID_PARSE`,
or a word of an `RDLP`. Its caller reads it as it reads any other (R127), so `ProtocolError` arises at the sites of R303 and nowhere
else, and rolls a bring-up back (R289, R290). Where no handshake is waiting there is no caller, and the word is refused. The choice of
the model is log entry 15. -/
def respond (r p : Byte) (s : State) : State :=
  if workerRuns s || !linkTaken s || !s.linkBound then s.refuse
  else handshake { outsideContract s with answers := handshakeAnswer r p :: s.answers }

/-- `HS.INVALID` (R99): the caller of the handshake raises `ProtocolError` (R127); the payload is not looked at. -/
def execHsInvalid (s : State) : Out := .next (respond 0 0 s)

/-- `HS.VALID p` (R99): the caller of the handshake gets the payload (R127). -/
def execHsValid (r p : Byte) (s : State) : Out := .next (respond r p s)

end Sys2Proof.Machine
end

