-- ==== Sys2Proof/Machine/Composer.lean ====
section
/-! DEFINITION. The frame composer, the LED command and the inbound slot decoder (R170 to R184). -/

namespace Sys2Proof.Machine

/-- One slot of loop step 2 (R174): LED before MIDI before empty (R112). -/
def composeOne (k : SlotIx) (s : State) : State :=
  if s.ledPending then
    { putSlot k (ledPair s.ledDuration) s with ledDuration := 0, ledPending := false }
  else if canSendFlag s then
    match ringPop s.oq with
    | some (b, q) => chargeByte { putSlot k (midiPair b) s with oq := q }
    | none => putSlot k emptyPair s
  else putSlot k emptyPair s

/-- One slot of loop step 5 (R180). -/
def deliverOne (k : SlotIx) (s : State) : State :=
  deliverPair (frameSlot s.frameIn k).tag (frameSlot s.frameIn k).value s

/-- `FLASH_LED d` (R171): the command register is overwritten, last write wins (R172), and a cycle is requested. -/
def execFlashLed (d : Byte) (s : State) : Out :=
  .next (
    if s.lstate = .up then (requestCycle { s with ledDuration := d, ledPending := true }).succeed else s.refuse)

/-- `COMPOSE_SLOT k` (R174). -/
def execComposeSlot (k : SlotIx) (s : State) : Out :=
  .next (
    if enabledAt (composePhase k) s then ({ composeOne k s with phase := afterCompose k } : State).succeed else s.refuse)

/-- `DELIVER_SLOT k` (R180). -/
def execDeliverSlot (k : SlotIx) (s : State) : Out :=
  .next (
    if enabledAt (deliverPhase k) s then ({ deliverOne k s with phase := afterDeliver k } : State).succeed else s.refuse)

end Sys2Proof.Machine
end

