-- ==== Sys2Proof/Machine/Queues.lean ====
section
/-! DEFINITION. The byte queues' operations (R205 to R222). -/

namespace Sys2Proof.Machine

/-- `MemRead(OC, 0, n)` with `n = min(len(oc_buf), PEEK_MAX)`: the peek window (R62, R211). -/
def peekWindow (s : State) : List Byte := s.ocBuf.take (min s.ocBuf.length s.params.peekMax)

/-- `OQ_REFILL` (R215): peek, push, acknowledge. The acknowledged bytes leave the client's buffer (R212). -/
def refillOutbound (s : State) : State :=
  let p := ringPushAll (peekWindow s) s.oq
  { s with oq := p.2, ocBuf := s.ocBuf.drop p.1, ocAck := p.1 }

/-- `OQ_LEN` (R207): refused outside `UP`, where the queue does not exist. -/
def execOqLen (s : State) : Out :=
  .next (if s.lstate = .up then s.answer (.number s.oq.count) else s.refuse)

/-- `IQ_LEN` (R207). -/
def execIqLen (s : State) : Out :=
  .next (if s.lstate = .up then s.answer (.number s.iq.count) else s.refuse)

/-- `CMD OQ_PUSH b` (R221): the test access, refused while the worker runs; an accepted push into an empty queue requests a cycle. -/
def execOqPush (b : Byte) (s : State) : Out :=
  .next (
    if s.lstate ≠ .up ∨ s.wstate = .running then s.refuse
    else
      match ringPush s.oq b with
      | none => s.answer (.flag false)
      | some q =>
        let s' := { s with oq := q }
        (if oqEmpty s then requestCycle s' else s').answer (.flag true))

/-- Where an inner operation of the queues can be taken alone: a queue exists (R222), and the worker, whose steps hold the one
producer and the one consumer that take part in it (R71), is not running. -/
def queueOpen (s : State) : Bool := linkAlive s && !workerRuns s

/-- `OQ_POP` (R209): on an empty queue the total form answers nothing and changes nothing. Its place is inside `COMPOSE_SLOT` (R71,
R77): taken alone it marks the run, and beside a running worker it is refused (U3). -/
def execOqPop (s : State) : Out :=
  .next (
    if queueOpen s then
      match ringPop s.oq with
      | none => (outsideContract s).succeed
      | some (b, q) => (outsideContract { s with oq := q }).answer (.byte b)
    else s.refuse)

/-- `OQ_REFILL` (R215): the result is the acknowledge count. Its place is inside `IT_REFILL` (R71): taken alone it marks the run,
and beside a running worker it is refused (U3). -/
def execOqRefill (s : State) : Out :=
  .next (
    if queueOpen s then (outsideContract (refillOutbound s)).answer (.number (refillOutbound s).ocAck) else s.refuse)

/-- `IQ_PUSH b` (R217): whether the byte was stored; a drop is silent. Its place is inside `DELIVER_SLOT` (R71, R77): taken alone it
marks the run, and beside a running worker it is refused (U3). -/
def execIqPush (b : Byte) (s : State) : Out :=
  .next (
    if queueOpen s then
      let r := storeInbound b s
      (outsideContract r.2).answer (.flag r.1)
    else s.refuse)

/-- `IQ_DRAIN` (R219): every queued byte, oldest first, and the queue empty. -/
def execIqDrain (s : State) : Out :=
  .next (
    if s.lstate = .up then ({ s with iq := ringDrain s.iq } : State).answer (.bytes (ringList s.iq)) else s.refuse)

end Sys2Proof.Machine
end

