-- ==== Sys2Proof/Machine/Scheduler.lean ====
section
/-! DEFINITION. The transport scheduler: the request latch and the micro-steps of a cycle that are its own (R140 to R158). -/

namespace Sys2Proof.Machine

/-- `REQ_CYCLE` (R141): never blocks, never fails. -/
def execReqCycle (s : State) : Out := .next (requestCycle s).succeed

/-- `CYC_START` (R143): enabled while a cycle is pending. -/
def execCycStart (s : State) : Out :=
  .next (
    if s.wstate = .pending then ({ s with wstate := .running, phase := .refill } : State).succeed else s.refuse)

/-- Loop step 1 (R145): a new iteration begins, and the client's bytes are pulled if it is active and there is room. -/
def refillStep (s : State) : State :=
  let s' := { s with hadData := false, cbFired := false }
  if s'.outActive && hasRoom s' then refillOutbound s' else s'

/-- `IT_REFILL` (R145). -/
def execItRefill (s : State) : Out :=
  .next (
    if enabledAt .refill s then ({ refillStep s with phase := .compose0 } : State).succeed else s.refuse)

/-- Loop step 3 (R148): the exchange, its time and the ticks since the one before; the status is not acted on. -/
def exchangeStep (s : State) : State :=
  let x := exchangeFrame s.frameOut s
  { x.after with frameIn := x.rx, elapsed := s.now - s.lastXfer, lastXfer := s.now }

/-- `IT_XCHG` (R148). -/
def execItXchg (s : State) : Out :=
  .next (
    if enabledAt .xchg s then ({ exchangeStep s with phase := .decay } : State).succeed else s.refuse)

/-- `IT_DECAY` (R150). -/
def execItDecay (s : State) : Out :=
  .next (
    if enabledAt .decay s then ({ decayUsage s.elapsed s with phase := .deliver0 } : State).succeed else s.refuse)

/-- `IT_CONT` (R153): the loop goes on while one of the five terms holds. -/
def execItCont (s : State) : Out :=
  .next (
    if enabledAt .cont s then ({ s with phase := if moreWork s then .refill else .flush } : State).succeed else s.refuse)

/-- `CYC_FLUSH` (R155): the final ready event, and the worker is idle. -/
def execCycFlush (s : State) : Out :=
  .next (
    if enabledAt .flush s then
      ({ (if !iqEmpty s && s.readyCb then pulseReady s else s) with wstate := .idle } : State).succeed
    else s.refuse)

end Sys2Proof.Machine
end

