-- ==== Sys2Proof/Machine/Transactor.lean ====
section
/-! DEFINITION. The frame exchange engine's three functions (R120 to R131). The engine has one caller at a time (R72, R120): a call
beside a running worker, or beside another use of the link that is between two of its exchanges, is refused and marks the run (U2). -/

namespace Sys2Proof.Machine

/-- `XCHG` (R122): the status and the inbound frame, zero-filled on a fault. In steady state its one caller is `IT_XCHG` (R120), so a
direct call marks the run; with no link bound it is the direct call of R123. -/
def execXchg (tx : Frame) (s : State) : Out :=
  .next (
    if workerRuns s || linkTaken s then s.refuse
    else
      let x := exchangeFrame tx s
      (outsideContract x.after).reply (.done x.status) (.frame x.rx))

/-- `XCHG16` (R126): the engine itself never raises `ProtocolError`; the sequence it belongs to does (R127). -/
def execXchg16 (s : State) : Out := .next (if workerRuns s then s.refuse else handshake s)

/-- `RDLP max` (R128), its first handshake; the data words are the next steps (R9). In a bring-up it reads the next field, and the
capacity `ID_PARSE` passes is 255 (R233). -/
def execRdlp (max : Byte) (s : State) : Out :=
  .next (
    if workerRuns s || s.block.isSome then s.refuse
    else
      match s.parse with
      | .idle => lengthStep max.toNat (outsideContract s)
      | .start => s.refuse
      | .fields _ _ _ => if max.toNat = Config.rdlpScratch then lengthStep Config.rdlpScratch s else s.refuse)

end Sys2Proof.Machine
end

