-- ==== Sys2Proof/Machine/Dispatch.lean ====
section
/-! DEFINITION. `exec`: one arm per constructor of `Instr`, each one direct call of its meaning. -/

namespace Sys2Proof.Machine

/-- The meaning of an instruction. -/
def exec (i : Instr) (s : State) : Host.Outcome State Fault Refusal :=
  match i with
  | .slotEmpty => Sys2Proof.Machine.execSlotEmpty s
  | .slotMidi b => Sys2Proof.Machine.execSlotMidi b s
  | .slotLed d => Sys2Proof.Machine.execSlotLed d s
  | .slotRsvd t v => Sys2Proof.Machine.execSlotRsvd t v s
  | .rxNone => Sys2Proof.Machine.execRxNone s
  | .rxData t v => Sys2Proof.Machine.execRxData t v s
  | .hsReq => Sys2Proof.Machine.execHsReq s
  | .hsInvalid => Sys2Proof.Machine.execHsInvalid s
  | .hsValid r p => Sys2Proof.Machine.execHsValid r p s
  | .linkUp => Sys2Proof.Machine.execLinkUp s
  | .linkDown => Sys2Proof.Machine.execLinkDown s
  | .flashLed d => Sys2Proof.Machine.execFlashLed d s
  | .reqCycle => Sys2Proof.Machine.execReqCycle s
  | .outOpen => Sys2Proof.Machine.execOutOpen s
  | .outClose => Sys2Proof.Machine.execOutClose s
  | .outStart => Sys2Proof.Machine.execOutStart s
  | .outDrain => Sys2Proof.Machine.execOutDrain s
  | .inOpen => Sys2Proof.Machine.execInOpen s
  | .inClose => Sys2Proof.Machine.execInClose s
  | .inStart => Sys2Proof.Machine.execInStart s
  | .inStop => Sys2Proof.Machine.execInStop s
  | .iqDrain => Sys2Proof.Machine.execIqDrain s
  | .idGet sel => Sys2Proof.Machine.execIdGet sel s
  | .sbLevel => Sys2Proof.Machine.execSbLevel s
  | .oqLen => Sys2Proof.Machine.execOqLen s
  | .iqLen => Sys2Proof.Machine.execIqLen s
  | .oqPush b => Sys2Proof.Machine.execOqPush b s
  | .cycStart => Sys2Proof.Machine.execCycStart s
  | .itRefill => Sys2Proof.Machine.execItRefill s
  | .composeSlot k => Sys2Proof.Machine.execComposeSlot k s
  | .itXchg => Sys2Proof.Machine.execItXchg s
  | .itDecay => Sys2Proof.Machine.execItDecay s
  | .deliverSlot k => Sys2Proof.Machine.execDeliverSlot k s
  | .itCont => Sys2Proof.Machine.execItCont s
  | .cycFlush => Sys2Proof.Machine.execCycFlush s
  | .sbSample v => Sys2Proof.Machine.execSbSample v s
  | .sbEdge => Sys2Proof.Machine.execSbEdge s
  | .xchg tx => Sys2Proof.Machine.execXchg tx s
  | .xchg16 => Sys2Proof.Machine.execXchg16 s
  | .rdlp max => Sys2Proof.Machine.execRdlp max s
  | .idParse => Sys2Proof.Machine.execIdParse s
  | .quiesce => Sys2Proof.Machine.execQuiesce s
  | .oqPop => Sys2Proof.Machine.execOqPop s
  | .oqRefill => Sys2Proof.Machine.execOqRefill s
  | .iqPush b => Sys2Proof.Machine.execIqPush b s
  | .canSend => Sys2Proof.Machine.execCanSend s
  | .onSent => Sys2Proof.Machine.execOnSent s
  | .onElapsed t => Sys2Proof.Machine.execOnElapsed t s

end Sys2Proof.Machine
end

