-- ==== Sys2Proof/Machine/Sequencer.lean ====
section
/-! DEFINITION. Which agent steps next (R8, R9), and what each event does. The order of the agents is plain data in the state;
where it names nobody, the block takes a step of its own. -/

namespace Sys2Proof.Machine

/-- The worker's enabled micro-step, if it has one (R140, R143, R144). -/
def workerInstr (s : State) : Option Instr :=
  match s.wstate with
  | .idle => none
  | .pending => some .cycStart
  | .running =>
    match s.phase with
    | .refill => some .itRefill
    | .compose0 => some (.composeSlot .slot0)
    | .compose1 => some (.composeSlot .slot1)
    | .xchg => some .itXchg
    | .decay => some .itDecay
    | .deliver0 => some (.deliverSlot .slot0)
    | .deliver1 => some (.deliverSlot .slot1)
    | .cont => some .itCont
    | .flush => some .cycFlush

/-- The worker steps; with no micro-step enabled nothing happens (R322). -/
def workerStep (s : State) : Out :=
  match workerInstr s with
  | some i => exec i s
  | none => .next s

/-- The exchange that a `LINK_UP` or an `RDLP` in progress makes next, by the operation that makes it (R9, R128, R231). While a cycle
is pending or running the link is the worker's (R72). -/
def hostInstr (s : State) : Option Instr :=
  if s.wstate = .idle then
    match s.block, s.parse with
    | some _, _ => some .xchg16
    | none, .start => some .idParse
    | none, .fields _ _ _ => some (.rdlp (BitVec.ofNat 8 Config.rdlpScratch))
    | none, .idle => none
  else none

/-- `HOST` steps: the next exchange in progress, or a held `LINK_DOWN` is taken again (R292); else nothing happens. -/
def hostStep (s : State) : Out :=
  match hostInstr s with
  | some i => exec i s
  | none => .next (resumeLinkDown s)

/-- The block's own next step where the environment schedules none: a held `OUT_DRAIN` is taken again while the worker is idle or
the queue has become empty (R39, R269); else the worker steps; else `HOST` (R9, R292). Log entry 16. -/
def ownStep (s : State) : Out :=
  if s.drainWait && (s.wstate == .idle || oqEmpty s) then exec .outDrain s
  else if s.wstate == .idle then hostStep s
  else workerStep s

/-- An issued word is decoded and run; a word that is no operation of its format is refused, changes no state and marks the run
(R105, U14). -/
def runIssue (i : Issue) (s : State) : Out :=
  match decode i with
  | .ok instr => exec instr s
  | .error _ => .next s.refuse

/-- One event taken by its agent (R8). -/
def takeEvent (e : Event) (s : State) : Out :=
  match e with
  | .op i => runIssue i s
  | .worker => workerStep s
  | .host => hostStep s
  | .clock dt => .next { s with now := s.now + dt }
  | .ocAppend bs => .next { s with ocBuf := s.ocBuf ++ bs }
  | .peerPresent b => .next { s with peerPresent := b }
  | .peerAnswers as => .next { s with answers := s.answers ++ as }
  | .rst => .next (hardReset s)

/-- The next scheduled event is taken; with none left the block takes its own step. -/
def nextStep (s : State) : Out :=
  match s.sched with
  | e :: rest => takeEvent e { s with sched := rest }
  | [] => ownStep s

/-- The state in which the next step takes this event. -/
def scheduleFirst (e : Event) (s : State) : State := { s with sched := e :: s.sched }

end Sys2Proof.Machine
end

