-- ==== Sys2Proof/Machine/Step.lean ====
section
/-! DEFINITION. The step of the machine, and where a bare word is placed so that the next step runs it. -/

namespace Sys2Proof.Machine

/-- One step of one agent (R9). -/
def step (s : State) : Host.Outcome State Fault Refusal := nextStep s

/-- `s` with the word `w` of the opcode table scheduled as the next operation, in the format the table lists it under; the block
stores no program (R76), so this is where its next operation comes from. -/
def State.withFetchWord (s : State) (_nbits w : Nat) : State := scheduleFirst (.op (issueOfTableWord w)) s

end Sys2Proof.Machine
end

