-- ==== Sys2Proof/Safety.lean ====
section
/-! DEFINITION. What counts as a good state: the invariants of rule R52 and the other whole-machine facts the statements speak of. -/

namespace Sys2Proof.Machine

/-- The length limits of R41 on the strings `ID_PARSE` has staged. -/
structure StagedLimits (st : Staging) : Prop where
  serial : st.serial.length ≤ 10
  uid : st.uid.length ≤ 24 ∧ st.uid.length % 2 = 0
  fw : st.fw = [] ∨ st.fw.length = 4 ∨ st.fw.length = 5
  hw : 3 ≤ st.hw.length ∧ st.hw.length ≤ 5

/-- A block read between two of its exchanges has data words to come and room for them (R128). -/
def BlockRead.ok (b : BlockRead) : Bool := decide (0 < b.left) && decide (b.got.length + b.left ≤ b.max)

/-- The invariants of R52, one field for each clause, with the two halves of R22, the arming window of R40, and what holds between
the exchanges of a bring-up or a block read (R9). -/
structure Inv (s : State) : Prop where
  /-- 0 <= `usage` <= 128000 (R30). -/
  usage_le : s.usage ≤ Config.usageMax
  /-- The Outbound Queue holds at most 4096 bytes and its registers agree (R33, R35). -/
  oq_ok : s.oq.ok = true
  /-- The Inbound Queue likewise (R34, R35). -/
  iq_ok : s.iq.ok = true
  /-- No pending command leaves no duration (R32). -/
  led : s.ledPending = false → s.ledDuration = 0
  /-- A cycle is pending or running only in `UP` or `SHUTDOWN`. -/
  worker : s.wstate ≠ .idle → s.lstate = .up ∨ s.lstate = .shutdown
  /-- In `UP` a link is bound (R22). -/
  bound : s.lstate = .up → s.linkBound = true
  /-- In `DOWN` none is (R22). -/
  unbound : s.lstate = .down → s.linkBound = false
  /-- The previous exchange is not in the future (R31). -/
  time : s.lastXfer ≤ s.now
  /-- A caller is held in `OUT_DRAIN` only in `UP` (R39). -/
  drain : s.drainWait = true → s.lstate = .up
  /-- Edges are notified only in `UP`: from the end of `LINK_UP` to the start of `LINK_DOWN` (R40, R255). -/
  armed : s.sbArmed = true → s.lstate = .up
  /-- A `LINK_UP` is between its exchanges exactly in `BRINGUP` (R21, R286). -/
  parsing : s.parse ≠ .idle ↔ s.lstate = .bringup
  /-- There a link is bound (R286 step 3). -/
  parsing_bound : s.lstate = .bringup → s.linkBound = true
  /-- The count step comes before every block (R231). -/
  count_first : s.parse = .start → s.block = none
  /-- Field indices stay below the count, at most 255 (R232), and each field is read with the capacity of R233. -/
  fields_left : ∀ left i st, s.parse = .fields left i st →
    0 < left ∧ i + left ≤ 255 ∧ ∀ b, s.block = some b → b.max = Config.rdlpScratch
  /-- A block read in progress has a link and data words to come. -/
  block_ok : ∀ b, s.block = some b → s.linkBound = true ∧ b.ok = true

/-- The bound the rules give for the estimate (R197): below the ceiling. -/
def UsageBelowCeiling (s : State) : Prop := s.usage < Config.ceiling

/-- Every element of the block that R21 and R293 say has its reset value in `DOWN`: all but the counters and the synchroniser bits. -/
structure AtResetValues (s : State) : Prop where
  link : s.linkBound = false ∧ s.wstate = .idle ∧ s.parse = .idle ∧ s.block = none
  worker : s.phase = .refill ∧ s.hadData = false ∧ s.cbFired = false
  datapath : s.frameOut = Frame.zero ∧ s.frameIn = Frame.zero ∧ s.elapsed = 0 ∧ s.usage = 0 ∧ s.lastXfer = 0
  led : s.ledDuration = 0 ∧ s.ledPending = false
  queues : s.oq = Ring.empty ∧ s.iq = Ring.empty
  endpoints : s.outActive = false ∧ s.inActive = false ∧ s.readyCb = false ∧ s.drainWait = false
  bridge : s.sbArmed = false
  identity : s.idSerial = [] ∧ s.idUid = [] ∧ s.idFw = [] ∧ s.idHw = Config.hwverDefault ∧ s.idValid = false

/-- `DOWN` is one state (R21, R293), and so is `BRINGUP` but for the link that is bound and where the parse stands: that is what
its rollback returns to (R290). -/
structure DownIsReset (s : State) : Prop where
  down : s.lstate = .down → AtResetValues s
  bringup : s.lstate = .bringup → AtResetValues { s with linkBound := false, parse := .idle, block := none }

/-- The length limits of the identity strings (R41, R236, R237): serial at most 10, unique id at most 24 and even, firmware version
4 to 5 once published, hardware version 3 to 5. -/
structure IdentityLimits (s : State) : Prop where
  serial : s.idSerial.length ≤ 10
  uid : s.idUid.length ≤ 24 ∧ s.idUid.length % 2 = 0
  fw : s.idFw = [] ∨ s.idFw.length = 4 ∨ s.idFw.length = 5
  hw : 3 ≤ s.idHw.length ∧ s.idHw.length ≤ 5
  /-- What a parse in progress has staged is within them too. -/
  staged : ∀ left i st, s.parse = .fields left i st → StagedLimits st

/-- A slot the block may produce (R93, R95). -/
def legalSlot (sl : Slot) : Bool := !reservedSlot sl.tag sl.value

/-- Both slots of the outbound frame are among the three encodings of R93. -/
def FrameOutLegal (s : State) : Prop := legalSlot s.frameOut.slot0 = true ∧ legalSlot s.frameOut.slot1 = true

/-- The MIDI bytes of an outbound frame as a monitor reads them, slot 0 before slot 1 (R107). -/
def midiValues (f : Frame) : List Byte :=
  ([f.slot0, f.slot1].filter fun sl => sl.tag == Config.tagMidi).map Slot.value

/-- The bytes an inbound frame delivers, slot 0 before slot 1: the values of the slots with a nonzero tag (R96, R97). -/
def inboundValues (f : Frame) : List Byte :=
  ([f.slot0, f.slot1].filter fun sl => sl.tag != 0).map Slot.value

/-- The commands that R318 refuses in every lifecycle state but `UP`. -/
def upOnly : Instr → Bool
  | .linkDown | .flashLed _ | .outOpen | .outClose | .outStart | .inOpen | .inClose | .inStart | .inStop
  | .iqDrain | .oqLen | .iqLen | .oqPush _ => true
  | _ => false

/-- The worker's micro-steps of an iteration and the flush, with the phase that enables each (R24, R140). -/
def microPhase : Instr → Option Phase
  | .itRefill => some .refill
  | .composeSlot k => some (composePhase k)
  | .itXchg => some .xchg
  | .itDecay => some .decay
  | .deliverSlot k => some (deliverPhase k)
  | .itCont => some .cont
  | .cycFlush => some .flush
  | _ => none

/-- The state after an operation that is not admitted (R10, R307, U1): status `Refused`, nothing else changed, the run marked. -/
def turnedAway (s : State) : State := { s with verdict := .done .refused, result := .none, marked := true }

/-- What a cycle request makes of the request latch in `UP` (R141). -/
def requested : WState → WState
  | .idle => .pending
  | .pending => .pending
  | .running => .running

/-- The identity of a state, as `ID_GET` can read it (R243), with its valid bit. -/
def identityOf (s : State) : List Byte × List Byte × List Byte × List Byte × Bool :=
  (s.idSerial, s.idUid, s.idFw, s.idHw, s.idValid)

/-- `q` is `r` with `bs` appended at the tail (R35, R62, R66): the places written are the `bs.length` places from the write index
on, modulo 4096, and every other place reads as before. -/
structure RingGained (r : Ring) (bs : List Byte) (q : Ring) : Prop where
  ok : q.ok = true
  list : ringList q = ringList r ++ bs
  count : q.count = r.count + bs.length
  rd : q.rd = r.rd
  wr : q.wr = r.wr + BitVec.ofNat 12 bs.length
  elsewhere : ∀ a, (∀ k, k < bs.length → a ≠ (r.wr.toNat + k) % 4096) → memGet q.mem a = memGet r.mem a

/-- `q` is `r` without its oldest byte `b` (R35, R66); nothing is stored. That the place the byte leaves keeps it is the model's choice,
for U11 admits any value there, log entry 3. -/
structure RingLost (r : Ring) (b : Byte) (q : Ring) : Prop where
  ok : q.ok = true
  list : ringList r = b :: ringList q
  count : r.count = q.count + 1
  rd : q.rd = r.rd + 1
  wr : q.wr = r.wr
  elsewhere : ∀ a, memGet q.mem a = memGet r.mem a

/-! ### Sequences of handshakes, for statements about `RDLP` and bring-up (R9, R99 to R101) -/

/-- `HOST` takes `n` turns in a row. -/
def hostTurns : Nat → State → Out
  | 0, s => .next s
  | n + 1, s =>
    match hostStep s with
    | .next t => hostTurns n t
    | o => o

/-- An operation is issued, and `HOST` takes the next `n` turns: each makes one further exchange of the sequence. -/
def runSequence (i : Instr) (n : Nat) (s : State) : Out :=
  match exec i s with
  | .next t => hostTurns n t
  | o => o

/-- The answer the peer gives to the `k`-th exchange from here on, counted from 0: a scripted one, or a free one (R121). -/
def answerAt (s : State) (k : Nat) : Config.LinkAnswer := (s.answers[k]?).getD (Config.linkAnswer (s.linkCount + k))

/-- A valid response (R99, R127): the exchange succeeded and the ready flag is not zero, whatever it is. -/
def validAnswer (a : Config.LinkAnswer) : Bool := a.ok && a.b0 != 0

/-- The peer's next responses are valid and carry these payloads, each with a ready flag and unread bytes of its own. -/
def PeerSends (s : State) (payloads : List Byte) : Prop :=
  ∀ k p, payloads[k]? = some p → validAnswer (answerAt s k) = true ∧ (answerAt s k).b1 = p

/-- The payloads of one `LP_BLOCK` (R100): the length, then the data bytes. -/
def blockPayloads (bs : List Byte) : List Byte := BitVec.ofNat 8 bs.length :: bs

/-- The payloads of a whole `ID_XACT` (R101): the field count, then one block for each field. -/
def identityPayloads (fields : List (List Byte)) : List Byte :=
  BitVec.ofNat 8 fields.length :: fields.flatMap blockPayloads

/-- The number of exchanges of an `ID_XACT` that does not fail: `1 + N + sum L` (R101). -/
def identityExchanges (fields : List (List Byte)) : Nat := 1 + fields.length + (fields.map List.length).sum

/-- Fields that an `ID_XACT` can carry: a count and lengths of one byte each (R100, R101). -/
def fieldsFrame (fields : List (List Byte)) : Prop := fields.length ≤ 255 ∧ ∀ f ∈ fields, f.length ≤ 255

/-- The length rules of the fields by their index (R234 to R239), for the fields that occur. -/
def fieldsFit (fields : List (List Byte)) : Bool :=
  (match fields[0]? with | some f => f.length == 2 | none => true) &&
  (match fields[1]? with | some f => decide (f.length ≤ 10) | none => true) &&
  (match fields[2]? with | some f => decide (f.length ≤ 12) | none => true) &&
  (match fields[3]? with | some f => f.length == 2 | none => true)

/-- An `ID_XACT` cut short: the payloads before the count, before the length of a field, or before a data byte of one. The fields
`read` are complete, and `n` is the count. -/
inductive CutTranscript : List Byte → Prop where
  | count : CutTranscript []
  | length (n : Byte) (read : List (List Byte)) : read.length < n.toNat → (∀ f ∈ read, f.length ≤ 255) → fieldsFit read = true →
      CutTranscript (n :: read.flatMap blockPayloads)
  | data (n : Byte) (read : List (List Byte)) (l : Byte) (bs : List Byte) : read.length < n.toNat → (∀ f ∈ read, f.length ≤ 255) →
      fieldsFit read = true → bs.length < l.toNat → CutTranscript (n :: read.flatMap blockPayloads ++ l :: bs)

/-- The firmware version of the first field, where it occurs (R234, R241). -/
def firmwareOf : Option (List Byte) → List Byte
  | some [b0, b1] => fmtFw b0 b1
  | _ => []

/-- The hardware version of the fourth field, or the default where it does not occur (R238). -/
def hardwareOf : Option (List Byte) → List Byte
  | some [b0, b1] => fmtHw b0 b1
  | _ => Config.hwverDefault

end Sys2Proof.Machine
end

