-- ==== Sys2Proof/Certificates/Slice0/Obligations.lean ====
section
/-! DEFINITION. The statements for the provers. Each docstring names the rules of spec/ it rests on, and the log entry of every
choice of the model's own that it speaks of. -/

section Statements

open Sys2Proof Sys2Proof.Machine

/-! ### Decoding and encoding -/

/-- One word of each format, written out from the tables of R93, R96, R98, R99 and R103, decodes to the instruction it stands for. -/
def Obligations.SampleWordsDecode : Prop :=
  decode ⟨.slotOut, 0x0F90, Args.zero⟩ = .ok (.slotMidi 0x90) ∧
  decode ⟨.slotOut, 0xF020, Args.zero⟩ = .ok (.slotLed 0x20) ∧
  decode ⟨.slotOut, 0x0001, Args.zero⟩ = .ok (.slotRsvd 0x00 0x01) ∧
  decode ⟨.slotIn, 0x0FF8, Args.zero⟩ = .ok (.rxData 0x0F 0xF8) ∧
  decode ⟨.hsReq, 0x0000, Args.zero⟩ = .ok .hsReq ∧
  decode ⟨.hsResp, 0x0104, Args.zero⟩ = .ok (.hsValid 0x01 0x04) ∧
  decode ⟨.cmd, 0x1020, Args.zero⟩ = .ok (.flashLed 0x20) ∧
  decode ⟨.cmd, 0x2C55, Args.zero⟩ = .ok .iqDrain ∧
  decode ⟨.uop, 0x4201, Args.zero⟩ = .ok (.composeSlot .slot1) ∧
  decode ⟨.fn, 0x52FF, Args.zero⟩ = .ok (.rdlp 0xFF)

/-- Decoding the encoding of a well-formed instruction gives it back, for every instruction and every operand. -/
def Obligations.DecodeEncodeRoundTrip : Prop :=
  ∀ i : Instr, i.wf = true → decode (encode i) = .ok i

/-- Whatever word of whatever format is decoded, the instruction read is well-formed, belongs to that format, and re-encodes to a
word with the same high byte; in the outbound slots and the valid handshake responses every bit comes back. -/
def Obligations.DecodedInstructionReencodes : Prop :=
  ∀ (iss : Issue) (i : Instr), decode iss = .ok i →
    i.wf = true ∧ (encode i).fmt = iss.fmt ∧ hiByte (encode i).word = hiByte iss.word ∧
    (iss.fmt = .slotOut → (encode i).word = iss.word) ∧
    (iss.fmt = .hsResp → i ≠ .hsInvalid → (encode i).word = iss.word)

/-- R105: a word on the command port whose high byte is not one of the eighteen listed codes is refused and changes no state, the
labels of the micro-steps and functions included; `ID_GET` past selector 3 is refused the same way; the two slot operations exist
for slots 0 and 1 only. In every format a step that takes an issued word which decodes to nothing changes nothing but the schedule, is
refused and marks the run; such are an unlisted micro-step or function label, a slot past 1, a sample that is not one bit, and a
request word other than `00 00` (R98, R252). The mark on the run is U1's and U14's; that a refusal is a next state, in every format, is
log entry 11, the worker labels with an operand that does not exist log entry 8. -/
def Obligations.CommandPortRefusesUnlistedCodes : Prop :=
  (∀ (w : Word) (a : Args) (s : State),
    (hiByte w).toNat ∉ [0x01, 0x02, 0x10, 0x11, 0x20, 0x21, 0x22, 0x23, 0x28, 0x29, 0x2A, 0x2B, 0x2C, 0x30, 0x31, 0x32, 0x33, 0x3E] →
    runIssue ⟨.cmd, w, a⟩ s = .next (turnedAway s)) ∧
  (∀ (sel : Byte) (s : State), 3 < sel.toNat → exec (.idGet sel) s = .next (turnedAway s)) ∧
  (∀ (w : Word) (a : Args) (i : Instr), hiByte w = 0x42 ∨ hiByte w = 0x45 → 1 < (loByte w).toNat → decode ⟨.uop, w, a⟩ ≠ .ok i) ∧
  (∀ (s : State) (iss : Issue) (rest : List Event), s.sched = .op iss :: rest → (∀ i, decode iss ≠ .ok i) →
    step s = .next (turnedAway { s with sched := rest })) ∧
  (∀ (w : Word) (a : Args) (i : Instr),
    ((hiByte w).toNat ∉ [0x40, 0x41, 0x42, 0x43, 0x44, 0x45, 0x46, 0x47, 0x48, 0x49] → decode ⟨.uop, w, a⟩ ≠ .ok i) ∧
    (hiByte w = 0x48 → 1 < (loByte w).toNat → decode ⟨.uop, w, a⟩ ≠ .ok i) ∧
    ((hiByte w).toNat ∉ [0x50, 0x51, 0x52, 0x53, 0x54, 0x58, 0x59, 0x5A, 0x60, 0x61, 0x62] → decode ⟨.fn, w, a⟩ ≠ .ok i) ∧
    (w ≠ 0x0000 → decode ⟨.hsReq, w, a⟩ ≠ .ok i))

/-! ### The step -/

/-- A step runs the decoded instruction: where the next scheduled event is a word that decodes to `i`, the step is `exec i` on the
state with that event taken off the schedule; and a word of the opcode table placed by `withFetchWord` is run so. The schedule is
the model's form of the order of the agents' steps, log entry 1. -/
def Obligations.StepRunsDecodedInstruction : Prop :=
  (∀ (s : State) (iss : Issue) (rest : List Event) (i : Instr),
    s.sched = .op iss :: rest → decode iss = .ok i → step s = exec i { s with sched := rest }) ∧
  (∀ (s : State) (n w : Nat) (i : Instr), decodeTableWord n w = some i → step (s.withFetchWord n w) = exec i s)

/-- Every agent takes its own step (R8, R9, R23, R24, R143, R144): the worker's turn runs the micro-step that `wstate` and `phase`
name, and nothing while it is idle; `HOST`'s turn makes the next exchange of a sequence in progress, and nothing where there is none
and no `LINK_DOWN` is held; while a cycle is pending or running the link is the worker's, and `HOST`'s turn does nothing (R72; in
`SHUTDOWN` see the held `LINK_DOWN` below); the environment's steps change their own input and nothing of the block (R47, R48, R49,
R288). The event list is the model's own, log entry 1; that each exchange is a turn of its own, and waits for the worker, is log entry
10. -/
def Obligations.EveryAgentTakesItsOwnStep : Prop :=
  ∀ (s : State) (rest : List Event),
    (s.sched = .worker :: rest →
      (s.wstate = .idle → step s = .next { s with sched := rest }) ∧
      (s.wstate = .pending → step s = exec .cycStart { s with sched := rest }) ∧
      (∀ i p, microPhase i = some p → s.wstate = .running → s.phase = p → step s = exec i { s with sched := rest })) ∧
    (s.sched = .host :: rest → s.wstate = .idle →
      (s.block ≠ none → step s = exec .xchg16 { s with sched := rest }) ∧
      (s.block = none → s.parse = .start → step s = exec .idParse { s with sched := rest }) ∧
      (∀ left i st, s.block = none → s.parse = .fields left i st → step s = exec (.rdlp 0xFF) { s with sched := rest }) ∧
      (s.block = none → s.parse = .idle → s.lstate ≠ .shutdown → step s = .next { s with sched := rest })) ∧
    (s.sched = .host :: rest → s.wstate ≠ .idle → s.lstate ≠ .shutdown → step s = .next { s with sched := rest }) ∧
    (∀ dt, s.sched = .clock dt :: rest → step s = .next { s with sched := rest, now := s.now + dt }) ∧
    (∀ bs, s.sched = .ocAppend bs :: rest → step s = .next { s with sched := rest, ocBuf := s.ocBuf ++ bs }) ∧
    (∀ b, s.sched = .peerPresent b :: rest → step s = .next { s with sched := rest, peerPresent := b }) ∧
    (∀ as, s.sched = .peerAnswers as :: rest → step s = .next { s with sched := rest, answers := s.answers ++ as })

/-- With nothing scheduled the block steps of its own accord. A held `OUT_DRAIN` is taken again: it requests a cycle while the worker
is idle, and it is released once the queue is empty (R39, R269). Otherwise the worker takes its micro-step (R140, R143); otherwise
`HOST` makes its next exchange (R9) or completes a held `LINK_DOWN` (R292); otherwise nothing happens. That the block steps by itself
when the schedule is empty, and in this order, is the model's choice, log entry 16; that each exchange and the resumption of a held
`LINK_DOWN` is a turn of `HOST`'s is log entry 10. That the completed `LINK_DOWN` leaves the datapath registers at their reset values is
log entry 9, and that it leaves the ring stores reading zero (AtResetValues) is log entry 3. -/
def Obligations.BlockStepsOfItsOwnAccord : Prop :=
  ∀ s : State, Inv s → s.sched = [] →
    (s.drainWait = true → s.wstate = .idle → s.oq.count ≠ 0 →
      step s = .next { s with wstate := .pending, verdict := .held, result := .none }) ∧
    (s.drainWait = true → s.oq.count = 0 →
      step s = .next { s with drainWait := false, verdict := .done .ok, result := .none }) ∧
    (¬(s.drainWait = true ∧ s.oq.count = 0) →
      (s.wstate = .pending → step s = exec .cycStart s) ∧
      (∀ i p, microPhase i = some p → s.wstate = .running → s.phase = p → step s = exec i s)) ∧
    (s.drainWait = false → s.wstate = .idle →
      (s.block ≠ none → step s = exec .xchg16 s) ∧
      (s.block = none → s.parse = .start → step s = exec .idParse s) ∧
      (∀ left i st, s.block = none → s.parse = .fields left i st → step s = exec (.rdlp 0xFF) s) ∧
      (s.block = none → s.lstate = .shutdown → ∃ t, step s = .next t ∧ t.verdict = .done .ok ∧ t.lstate = .down ∧ AtResetValues t) ∧
      (s.block = none → s.parse = .idle → s.lstate ≠ .shutdown → step s = .next s))

/-- R104: `done` of the command port stays low while a caller is held. It is low after an `OUT_DRAIN` that finds bytes, and whatever
step comes next, of any agent, it stays low with the hold, until `OUT_DRAIN` finds the queue empty (R269), `LINK_DOWN` ends it (R291)
or a reset does (R330). It is low too while `LINK_UP` or `LINK_DOWN` is in progress (R9, R292). That `done` is read off the hold and
not off the last outcome is log entry 2. -/
def Obligations.HeldCallerKeepsDoneLow : Prop :=
  (∀ s : State, s.lstate = .up → s.oq.count ≠ 0 → ∃ t, exec .outDrain s = .next t ∧ t.drainWait = true ∧ cmdDone t = false) ∧
  (∀ s : State, s.lstate = .bringup ∨ s.lstate = .shutdown → cmdDone s = false) ∧
  (∀ s t : State, Inv s → s.drainWait = true → step s = .next t →
    (t.drainWait = true ∧ cmdDone t = false) ∨
    (t.drainWait = false ∧
      ((s.oq.count = 0 ∧ (s.sched = [] ∨ ∃ iss rest, s.sched = .op iss :: rest ∧ decode iss = .ok .outDrain)) ∨
        (∃ iss rest, s.sched = .op iss :: rest ∧ decode iss = .ok .linkDown) ∨ ∃ rest, s.sched = .rst :: rest)))

/-- No step halts the machine (R10): whatever the state, the step answers a next state. -/
def Obligations.NoStepHalts : Prop :=
  ∀ s : State, ∃ t, step s = .next t

/-! ### Reset -/

/-- R50: after hardware reset, from whatever state, every element of the block has the value in that table (the content of the ring
stores, which the table leaves unspecified, is not spoken of). The worker has no step enabled, the inputs stay (R49), and a caller
held in `OUT_DRAIN` or `LINK_DOWN`, and no other, ends refused; a bring-up or a block read in progress is abandoned. That the inputs
stay is log entry 19, the mark and the outcome log entry 18, the two fields of a sequence in progress log entry 10. -/
def Obligations.HardwareResetGivesTheTable : Prop :=
  ∀ (s : State) (rest : List Event), s.sched = .rst :: rest → ∃ t, step s = .next t ∧
    t.lstate = .down ∧ t.linkBound = false ∧ t.parse = .idle ∧ t.block = none ∧ t.wstate = .idle ∧ t.phase = .refill ∧
    t.hadData = false ∧ t.cbFired = false ∧ t.frameOut = ⟨⟨0, 0⟩, ⟨0, 0⟩⟩ ∧ t.frameIn = ⟨⟨0, 0⟩, ⟨0, 0⟩⟩ ∧
    t.elapsed = 0 ∧ t.lastXfer = 0 ∧ t.usage = 0 ∧ t.ledDuration = 0 ∧ t.ledPending = false ∧
    ringList t.oq = [] ∧ t.oq.rd = 0 ∧ t.oq.wr = 0 ∧ t.oq.count = 0 ∧
    ringList t.iq = [] ∧ t.iq.rd = 0 ∧ t.iq.wr = 0 ∧ t.iq.count = 0 ∧
    t.outActive = false ∧ t.inActive = false ∧ t.readyCb = false ∧ t.drainWait = false ∧
    t.sbMeta = false ∧ t.sbLevel = false ∧ t.sbPrev = false ∧ t.sbArmed = false ∧
    t.idSerial = [] ∧ t.idUid = [] ∧ t.idFw = [] ∧ t.idHw = [0x31, 0x2E, 0x30] ∧ t.idValid = false ∧
    t.diagXferFaults = 0 ∧ t.diagInDrops = 0 ∧
    workerInstr t = none ∧ (t.verdict = .done .refused ↔ (s.drainWait = true ∨ s.lstate = .shutdown)) ∧
    t.now = s.now ∧ t.ocBuf = s.ocBuf ∧ t.peerPresent = s.peerPresent ∧ t.answers = s.answers ∧ t.sched = rest ∧
    t.params = s.params

/-! ### The wire encodings as steps (log entry 15) -/

/-- While slot `k` is being composed an outbound slot word puts its pair there and changes nothing else (R175, R176, R177), but that
the run is marked, since `frame_out` is the worker's own (R72, U2); with no slot being composed it is refused (R170). A reserved slot
word is never this block's: it is refused in every state and marks the run (R95, U4). That a slot word is a step of its own is the
model's choice, log entry 15; the mark is log entry 13. -/
def Obligations.OutboundSlotWordsArePlaced : Prop :=
  (∀ (t v : Byte) (s : State), exec (.slotRsvd t v) s = .next (turnedAway s)) ∧
  (∀ (s : State) (k : SlotIx), (s.lstate = .up ∨ s.lstate = .shutdown) → s.wstate = .running → s.phase = composePhase k →
    exec .slotEmpty s = .next { s with
      frameOut := setFrameSlot s.frameOut k ⟨0x00, 0x00⟩, marked := true, verdict := .done .ok, result := .none } ∧
    (∀ b, exec (.slotMidi b) s = .next { s with
      frameOut := setFrameSlot s.frameOut k ⟨0x0F, b⟩, marked := true, verdict := .done .ok, result := .none }) ∧
    (∀ d, exec (.slotLed d) s = .next { s with
      frameOut := setFrameSlot s.frameOut k ⟨0xF0, d⟩, marked := true, verdict := .done .ok, result := .none })) ∧
  (∀ s : State, ¬(s.wstate = .running ∧ (s.phase = .compose0 ∨ s.phase = .compose1)) →
    exec .slotEmpty s = .next (turnedAway s) ∧ (∀ b, exec (.slotMidi b) s = .next (turnedAway s)) ∧
    (∀ d, exec (.slotLed d) s = .next (turnedAway s)))

/-- An inbound slot with tag zero decodes to `RX.NONE` whatever its value, and has no effect (R96, R183). That `RX.NONE` is a step of
its own, which ends `ok`, is the model's choice, log entry 15. -/
def Obligations.EmptyInboundSlotDoesNothing : Prop :=
  (∀ (w : Word) (a : Args), hiByte w = 0 → decode ⟨.slotIn, w, a⟩ = .ok .rxNone) ∧
  (∀ s : State, exec .rxNone s = .next { s with verdict := .done .ok, result := .none })

/-- While a slot is being delivered an inbound slot word with a nonzero tag delivers its byte as the decoder does (R184, R180, R181,
R217): stored at the tail with the ready event at the crossing from 16 to 17, or dropped and counted when the queue is full; the run
is marked, since only `DELIVER_SLOT` pushes into the queue (R71, R77, U3). With no slot being delivered the word is refused (R170).
That the word is a step of its own is the model's choice, log entry 15; the mark is log entry 13. -/
def Obligations.InboundDataWordDelivers : Prop :=
  (∀ (tag v : Byte) (k : SlotIx) (s : State), tag ≠ 0 → (s.lstate = .up ∨ s.lstate = .shutdown) → s.iq.ok = true →
    s.wstate = .running → s.phase = deliverPhase k →
    (s.iq.count = 4096 → exec (.rxData tag v) s = .next { s with
      hadData := true, diagInDrops := s.diagInDrops + 1, marked := true, verdict := .done .ok, result := .none }) ∧
    (s.iq.count < 4096 → ∃ q, RingGained s.iq [v] q ∧
      ((s.iq.count = 16 ∧ s.cbFired = false ∧ s.readyCb = true → exec (.rxData tag v) s = .next { s with
          iq := q, hadData := true, icReady := s.icReady + 1, cbFired := true, marked := true, verdict := .done .ok,
          result := .none }) ∧
        (¬(s.iq.count = 16 ∧ s.cbFired = false ∧ s.readyCb = true) → exec (.rxData tag v) s = .next { s with
          iq := q, hadData := true, marked := true, verdict := .done .ok, result := .none })))) ∧
  (∀ (tag v : Byte) (s : State), ¬(s.wstate = .running ∧ (s.phase = .deliver0 ∨ s.phase = .deliver1)) →
    exec (.rxData tag v) s = .next (turnedAway s))

/-- The request word (R98, R123): where the link has no user, it puts the bytes `00 00` on a bound link, and with none bound it is a
`LinkFault`. It marks the run where the link is up, for no handshake is made there (R131, U15). Beside a running worker, a bring-up or a
block read it is refused (R72, U2). The response words (R99, R127, R303): a handshake that waits for one takes it as the peer's answer
to its `XCHG16`. An invalid one is `ProtocolError`: a bring-up is rolled back (R289, R290), a block read has a destination of zeros; a
valid one gives its payload to the count step, to the length or to the data word. With no handshake waiting a response has no caller
and is refused, so no `ProtocolError` arises there. That these words are steps of their own is the model's choice, log entry 15; the
mark and the refusals are log entries 13 and 15, the two fields of a sequence in progress log entry 10. -/
def Obligations.HandshakeWords : Prop :=
  (∀ s : State, s.wstate ≠ .running → s.parse = .idle → s.block = none →
    (s.linkBound = true → exec .hsReq s = .next { s with
      linkTx := [0x00, 0x00], marked := s.marked || linkAlive s, verdict := .done .ok, result := .none }) ∧
    (s.linkBound = false → exec .hsReq s = .next { s with
      diagXferFaults := s.diagXferFaults + 1, marked := s.marked || linkAlive s, verdict := .done .linkFault, result := .none })) ∧
  (∀ s : State, s.wstate = .running ∨ s.parse ≠ .idle ∨ s.block ≠ none → exec .hsReq s = .next (turnedAway s)) ∧
  (∀ s : State, Inv s → s.lstate = .bringup → exec .hsInvalid s = .next { s with
    linkTx := [0x00, 0x00], linkCount := s.linkCount + 1, linkBound := false, lstate := .down, parse := .idle, block := none,
    idSerial := [], idUid := [], idFw := [], idHw := [0x31, 0x2E, 0x30], idValid := false,
    verdict := .done .protocolError, result := .none }) ∧
  (∀ (max left : Nat) (got : List Byte) (s : State), s.wstate ≠ .running → s.linkBound = true → s.parse = .idle →
    s.block = some ⟨max, left, got⟩ → exec .hsInvalid s = .next { s with
      linkTx := [0x00, 0x00], linkCount := s.linkCount + 1, block := none, marked := s.marked || linkAlive s,
      verdict := .done .protocolError, result := .block (List.replicate max 0) 0 }) ∧
  (∀ (r p : Byte) (s : State), r ≠ 0 → s.wstate ≠ .running → s.linkBound = true →
    (s.parse = .start → s.block = none → p ≠ 0 → exec (.hsValid r p) s = .next { s with
      linkTx := [0x00, 0x00], linkCount := s.linkCount + 1, marked := s.marked || linkAlive s,
      parse := .fields p.toNat 0 ⟨[], [], [], [0x31, 0x2E, 0x30]⟩, verdict := .held, result := .none }) ∧
    (∀ left i st, s.parse = .fields left i st → s.block = none → p ≠ 0 → exec (.hsValid r p) s = .next { s with
      linkTx := [0x00, 0x00], linkCount := s.linkCount + 1, marked := s.marked || linkAlive s,
      block := some ⟨255, p.toNat, []⟩, verdict := .held, result := .none }) ∧
    (∀ max left got, s.block = some ⟨max, left, got⟩ → 1 < left → exec (.hsValid r p) s = .next { s with
      linkTx := [0x00, 0x00], linkCount := s.linkCount + 1, marked := s.marked || linkAlive s,
      block := some ⟨max, left - 1, got ++ [p]⟩, verdict := .held, result := .none }) ∧
    (s.parse ≠ .idle ∨ s.block ≠ none → ∀ b2 b3, exec (.hsValid r p) s = exec .xchg16 { s with
      answers := ⟨true, r, p, b2, b3⟩ :: s.answers, marked := s.marked || linkAlive s })) ∧
  (∀ s : State, s.wstate = .running ∨ (s.parse = .idle ∧ s.block = none) ∨ s.linkBound = false →
    exec .hsInvalid s = .next (turnedAway s) ∧ ∀ r p, r ≠ 0 → exec (.hsValid r p) s = .next (turnedAway s))

/-! ### The frame exchange engine -/

/-- `XCHG` called where the link has no other user (R122): with no link `LinkFault` and no byte crosses; a failed transfer is
`TransferFault`; both answer four zero bytes and are counted; otherwise the peer's four bytes come back unchanged. A direct call while
the link is up marks the run (R340, U2), and a call beside a running worker, a bring-up or a block read in progress is refused (R72,
R120). The mark and the refusal are log entry 13. -/
def Obligations.FrameExchangeOutcomes : Prop :=
  ∀ (tx : Frame) (s : State),
    (s.wstate ≠ .running → s.parse = .idle → s.block = none →
      (s.linkBound = false → exec (.xchg tx) s = .next { s with
        diagXferFaults := s.diagXferFaults + 1, marked := s.marked || linkAlive s,
        verdict := .done .linkFault, result := .frame ⟨⟨0, 0⟩, ⟨0, 0⟩⟩ }) ∧
      (s.linkBound = true → (answerAt s 0).ok = false → exec (.xchg tx) s = .next { s with
        answers := s.answers.tail, linkCount := s.linkCount + 1,
        linkTx := [tx.slot0.tag, tx.slot0.value, tx.slot1.tag, tx.slot1.value],
        diagXferFaults := s.diagXferFaults + 1, marked := s.marked || linkAlive s,
        verdict := .done .transferFault, result := .frame ⟨⟨0, 0⟩, ⟨0, 0⟩⟩ }) ∧
      (s.linkBound = true → (answerAt s 0).ok = true → exec (.xchg tx) s = .next { s with
        answers := s.answers.tail, linkCount := s.linkCount + 1,
        linkTx := [tx.slot0.tag, tx.slot0.value, tx.slot1.tag, tx.slot1.value],
        marked := s.marked || linkAlive s, verdict := .done .ok,
        result := .frame ⟨⟨(answerAt s 0).b0, (answerAt s 0).b1⟩, ⟨(answerAt s 0).b2, (answerAt s 0).b3⟩⟩ })) ∧
    (s.wstate = .running ∨ s.parse ≠ .idle ∨ s.block ≠ none → exec (.xchg tx) s = .next (turnedAway s))

/-- `XCHG16` (R126). In a bring-up it is the count step of `ID_PARSE`, or the length of a field (R9, R128, R231); with data words of a
block to come it is the next of them (see the block reads). In one that belongs to no sequence the request is always the two bytes
`00 00`, and the response is the peer's two bytes, high byte first, or zero on a fault. While the link is up such a call marks the run
(R131, R340, U2), and beside a running worker it is refused (R72, R120). The mark and the refusal are log entry 13, the steps of a
sequence log entry 10. -/
def Obligations.HandshakeExchangeOutcomes : Prop :=
  ∀ s : State,
    (s.wstate ≠ .running → s.parse = .idle → s.block = none →
      (s.linkBound = false → exec .xchg16 s = .next { s with
        diagXferFaults := s.diagXferFaults + 1, marked := s.marked || linkAlive s,
        verdict := .done .linkFault, result := .word 0x0000 }) ∧
      (s.linkBound = true → (answerAt s 0).ok = false → exec .xchg16 s = .next { s with
        answers := s.answers.tail, linkCount := s.linkCount + 1, linkTx := [0x00, 0x00],
        diagXferFaults := s.diagXferFaults + 1, marked := s.marked || linkAlive s,
        verdict := .done .transferFault, result := .word 0x0000 }) ∧
      (s.linkBound = true → (answerAt s 0).ok = true → exec .xchg16 s = .next { s with
        answers := s.answers.tail, linkCount := s.linkCount + 1, linkTx := [0x00, 0x00], marked := s.marked || linkAlive s,
        verdict := .done .ok, result := .word ((answerAt s 0).b0 ++ (answerAt s 0).b1) })) ∧
    (s.wstate ≠ .running → s.block = none →
      (s.parse = .start → exec .xchg16 s = exec .idParse s) ∧
      (∀ left i st, s.parse = .fields left i st → exec .xchg16 s = exec (.rdlp 0xFF) s)) ∧
    (s.wstate = .running → exec .xchg16 s = .next (turnedAway s))

/-- `RDLP` and its data words, step by step and as a whole (R100, R128, R129). A valid length within the capacity leaves it held with
that many words to come, in a bring-up too, where the capacity is 255 (R233); each valid `XCHG16` that follows, whatever stepped in between, adds one byte, and the last ends it. So on a
peer that sends a whole block, each response with a ready flag of its own, `RDLP` and `L` further turns make `1 + L` handshakes, and
the destination holds the `L` bytes in order, zero-filled to its capacity. That each handshake is a step is log entry 10; the mark of a
direct call while the link is up is log entry 13. -/
def Obligations.BlockReadSucceeds : Prop :=
  (∀ (max : Byte) (s : State), s.wstate ≠ .running → s.block = none → s.linkBound = true →
    s.parse = .idle ∨ (max = 0xFF ∧ ∃ left i st, s.parse = .fields left i st) →
    validAnswer (answerAt s 0) = true → 0 < (answerAt s 0).b1.toNat → (answerAt s 0).b1.toNat ≤ max.toNat →
    exec (.rdlp max) s = .next { s with
      answers := s.answers.tail, linkCount := s.linkCount + 1, linkTx := [0x00, 0x00],
      marked := s.marked || (s.parse == .idle && linkAlive s),
      block := some ⟨max.toNat, (answerAt s 0).b1.toNat, []⟩, verdict := .held, result := .none }) ∧
  (∀ (max left : Nat) (got : List Byte) (s : State), s.wstate ≠ .running → s.linkBound = true →
    s.block = some ⟨max, left, got⟩ → validAnswer (answerAt s 0) = true →
    (1 < left → exec .xchg16 s = .next { s with
      answers := s.answers.tail, linkCount := s.linkCount + 1, linkTx := [0x00, 0x00],
      block := some ⟨max, left - 1, got ++ [(answerAt s 0).b1]⟩, verdict := .held, result := .none }) ∧
    (left = 1 → s.parse = .idle → exec .xchg16 s = .next { s with
      answers := s.answers.tail, linkCount := s.linkCount + 1, linkTx := [0x00, 0x00], block := none, verdict := .done .ok,
      result := .block (got ++ (answerAt s 0).b1 :: List.replicate (max - (got.length + 1)) 0) (got.length + 1) })) ∧
  ∀ (max : Byte) (bs : List Byte) (s : State),
    s.wstate = .idle → s.parse = .idle → s.block = none → s.linkBound = true → bs.length ≤ max.toNat →
    PeerSends s (blockPayloads bs) →
    runSequence (.rdlp max) bs.length s = .next { s with
      answers := s.answers.drop (1 + bs.length), linkCount := s.linkCount + (1 + bs.length), linkTx := [0x00, 0x00],
      marked := s.marked || linkAlive s, verdict := .done .ok,
      result := .block (bs ++ List.replicate (max.toNat - bs.length) 0) bs.length }

/-- `RDLP` fails at the first bad handshake (R128, R129, R310): no link bound; the first one invalid or failed; a length past the
capacity (one exchange, the data words not fetched); or data word `k` invalid or failed (`k + 2` exchanges). The destination is all
zeros. Beside a running worker or another block read it is refused, and in a bring-up it is `ID_PARSE`'s alone (R72, R120). Each
handshake is a step, log entry 10; the mark and the refusals are log entry 13. -/
def Obligations.BlockReadFailsAtTheFirstBadWord : Prop :=
  ∀ (max : Byte) (s : State),
    (s.wstate = .idle → s.parse = .idle → s.block = none →
      (s.linkBound = false → exec (.rdlp max) s = .next { s with
        diagXferFaults := s.diagXferFaults + 1, marked := s.marked || linkAlive s,
        verdict := .done .protocolError, result := .block (List.replicate max.toNat 0) 0 }) ∧
      (s.linkBound = true → validAnswer (answerAt s 0) = false ∨ max.toNat < (answerAt s 0).b1.toNat →
        exec (.rdlp max) s = .next { s with
          answers := s.answers.tail, linkCount := s.linkCount + 1, linkTx := [0x00, 0x00],
          diagXferFaults := s.diagXferFaults + (if (answerAt s 0).ok then 0 else 1), marked := s.marked || linkAlive s,
          verdict := .done .protocolError, result := .block (List.replicate max.toNat 0) 0 }) ∧
      (∀ (len : Byte) (bs : List Byte), s.linkBound = true → len.toNat ≤ max.toNat → bs.length < len.toNat →
        PeerSends s (len :: bs) → validAnswer (answerAt s (bs.length + 1)) = false →
        runSequence (.rdlp max) (bs.length + 1) s = .next { s with
          answers := s.answers.drop (bs.length + 2), linkCount := s.linkCount + (bs.length + 2), linkTx := [0x00, 0x00],
          diagXferFaults := s.diagXferFaults + (if (answerAt s (bs.length + 1)).ok then 0 else 1),
          marked := s.marked || linkAlive s,
          verdict := .done .protocolError, result := .block (List.replicate max.toNat 0) 0 })) ∧
    (s.wstate = .running ∨ s.block ≠ none ∨ s.parse = .start → exec (.rdlp max) s = .next (turnedAway s)) ∧
    (∀ left i st, s.parse = .fields left i st → max ≠ 0xFF → exec (.rdlp max) s = .next (turnedAway s))

/-- Whatever the peer does, `RDLP` comes to an end within as many further turns as its capacity, with a destination of exactly its
capacity: the whole block, as long as the first response said and byte for byte what the peer sent, after one handshake more than it
has bytes; or all zeros and `ProtocolError` (R128, R308: no partial copy). It touches nothing but the link's own bookkeeping and the
mark. Each handshake is a step, log entry 10; the mark is log entry 13. -/
def Obligations.BlockReadIsWholeOrZero : Prop :=
  ∀ (max : Byte) (s : State), s.wstate = .idle → s.parse = .idle → s.block = none →
    ∃ n t, n ≤ max.toNat ∧ runSequence (.rdlp max) n s = .next t ∧
      t = { s with answers := t.answers, linkCount := t.linkCount, linkTx := t.linkTx, diagXferFaults := t.diagXferFaults,
                   marked := s.marked || linkAlive s, verdict := t.verdict, result := t.result } ∧
      ((t.verdict = .done .ok ∧ ∃ bs : List Byte, PeerSends s (blockPayloads bs) ∧ bs.length = (answerAt s 0).b1.toNat ∧
          bs.length ≤ max.toNat ∧ n = bs.length ∧ t.linkCount = s.linkCount + (1 + bs.length) ∧
          t.result = .block (bs ++ List.replicate (max.toNat - bs.length) 0) bs.length) ∨
        (t.verdict = .done .protocolError ∧ t.result = .block (List.replicate max.toNat 0) 0))

/-! ### The identity -/

/-- `ID_PARSE`, where `LINK_UP` calls it: a valid count of at least one leaves it held before the first field, with the staged defaults
(R231, R232). On a peer that sends a whole `ID_XACT` whose fields fit, each response with a ready flag of its own (R101, R231 to R242),
after exactly `1 + N + sum L` handshakes it has succeeded, the four rendered strings are published, a field that did not occur at its
default, and the link is up. The renderings, digit by digit: a digit is the ASCII byte of `0123456789abcdef` at its value (R235); a
version is its first byte with no leading zero, the full stop, and its second byte, in the firmware version with exactly two digits and
in the hardware version with no leading zero (R234, R238); the unique id is two digits for each byte, the high nibble first, in the
order received (R237). Each handshake is a step, log entry 10; the lowercase digits, the leading zeros and the limits 10 and 12 are log
entry 22. -/
def Obligations.IdentityPublishedFromTranscript : Prop :=
  (∀ s : State, Inv s → s.parse = .start → validAnswer (answerAt s 0) = true → 0 < (answerAt s 0).b1.toNat →
    exec .idParse s = .next { s with
      answers := s.answers.tail, linkCount := s.linkCount + 1, linkTx := [0x00, 0x00],
      parse := .fields (answerAt s 0).b1.toNat 0 ⟨[], [], [], [0x31, 0x2E, 0x30]⟩, verdict := .held, result := .none }) ∧
  (∀ b0 b1 : Byte,
    let digit : Nat → Byte := fun n =>
      ([0x30, 0x31, 0x32, 0x33, 0x34, 0x35, 0x36, 0x37, 0x38, 0x39, 0x61, 0x62, 0x63, 0x64, 0x65, 0x66] : List Byte).getD n 0
    let two : Byte → List Byte := fun b => [digit (b.toNat / 16), digit (b.toNat % 16)]
    let short : Byte → List Byte := fun b => if b.toNat < 16 then [digit b.toNat] else two b
    firmwareOf (some [b0, b1]) = short b0 ++ [0x2E] ++ two b1 ∧ firmwareOf none = [] ∧
    hardwareOf (some [b0, b1]) = short b0 ++ [0x2E] ++ short b1 ∧ hardwareOf none = [0x31, 0x2E, 0x30] ∧
    hexString [] = [] ∧ ∀ bs, hexString (b0 :: bs) = two b0 ++ hexString bs) ∧
  ∀ (fields : List (List Byte)) (s : State), Inv s → s.parse = .start → fieldsFrame fields → fieldsFit fields = true →
    PeerSends s (identityPayloads fields) →
    ∃ t, runSequence .idParse (identityExchanges fields - 1) s = .next t ∧ t.verdict = .done .ok ∧ t.lstate = .up ∧
      t.idFw = firmwareOf fields[0]? ∧ t.idSerial = (fields[1]?).getD [] ∧ t.idUid = hexString ((fields[2]?).getD []) ∧
      t.idHw = hardwareOf fields[3]? ∧ t.idValid = true ∧
      t.linkCount = s.linkCount + identityExchanges fields ∧ t.answers = s.answers.drop (identityExchanges fields) ∧
      t.diagXferFaults = s.diagXferFaults

/-- `ID_PARSE` stops at its first failure (R232, R239, R240). A field of the wrong length fails it once that field is read in full,
also where the fields before it were good (R233, R234, R236, R237, R238). A response that is invalid or failed fails it at once,
wherever it comes: at the count step, at the length of a field or at a data byte, a field of index 4 or more included (R239, U18). Then
exactly that many exchanges were made, nothing is published, and the bring-up has been rolled back to reset values. Outside step 4 of a
bring-up `ID_PARSE` has no caller and is refused (R230, R318). Each handshake is a step, log entry 10; the refusal is log entry 13; the
limits 10 and 12 are log entry 22. -/
def Obligations.IdentityParseStopsAtTheFirstFailure : Prop :=
  (∀ s : State, Inv s → DownIsReset s → s.parse = .start →
    (∀ (n : Byte) (fields : List (List Byte)) (bad : List Byte), fields.length < n.toNat → (∀ f ∈ fields ++ [bad], f.length ≤ 255) →
      fieldsFit fields = true → fieldsFit (fields ++ [bad]) = false →
      PeerSends s (n :: (fields ++ [bad]).flatMap blockPayloads) →
      ∃ t, runSequence .idParse ((fields ++ [bad]).flatMap blockPayloads).length s = .next t ∧
        t.verdict = .done .protocolError ∧ t.lstate = .down ∧ AtResetValues t ∧ identityOf t = identityOf s ∧
        t.linkCount = s.linkCount + identityExchanges (fields ++ [bad]) ∧ t.diagXferFaults = s.diagXferFaults) ∧
    (∀ payloads : List Byte, CutTranscript payloads → PeerSends s payloads → validAnswer (answerAt s payloads.length) = false →
      ∃ t, runSequence .idParse payloads.length s = .next t ∧
        t.verdict = .done .protocolError ∧ t.lstate = .down ∧ AtResetValues t ∧ identityOf t = identityOf s ∧
        t.linkCount = s.linkCount + (payloads.length + 1))) ∧
  (∀ s : State, s.parse ≠ .start → exec .idParse s = .next (turnedAway s))

/-- Whatever the peer and the other agents do, a step taken in `BRINGUP` leaves the bring-up in progress with nothing published, or
ends it whole: up, with the four strings published within the limits of R41 after one more handshake, or down at reset values with
none published (R240, R241, R286, R289, R290). That `BRINGUP` is seen between the steps is log entry 10; the limits are log entry
22. -/
def Obligations.IdentityParseIsAllOrNothing : Prop :=
  ∀ s t : State, Inv s → DownIsReset s → IdentityLimits s → s.lstate = .bringup → step s = .next t →
    (t.lstate = .bringup ∧ t.linkBound = true ∧ identityOf t = identityOf s) ∨
    (t.lstate = .up ∧ t.linkBound = true ∧ t.idValid = true ∧ IdentityLimits t ∧ t.verdict = .done .ok ∧
      t.linkCount = s.linkCount + 1) ∨
    (t.lstate = .down ∧ AtResetValues t ∧ identityOf t = identityOf s ∧
      ((t.verdict = .done .protocolError ∧ t.linkCount = s.linkCount + 1) ∨ ∃ rest, s.sched = .rst :: rest))

/-- R243: the four accessors, admitted in every lifecycle state, without a side effect; a selector past 3 is refused. -/
def Obligations.IdentityAccessors : Prop :=
  ∀ s : State,
    exec (.idGet 0) s = .next { s with verdict := .done .ok, result := .bytes s.idSerial } ∧
    exec (.idGet 1) s = .next { s with verdict := .done .ok, result := .bytes s.idUid } ∧
    exec (.idGet 2) s = .next { s with verdict := .done .ok, result := .bytes s.idFw } ∧
    exec (.idGet 3) s = .next { s with verdict := .done .ok, result := .bytes s.idHw } ∧
    (∀ sel : Byte, 3 < sel.toNat → exec (.idGet sel) s = .next (turnedAway s))

/-- The identity is immutable in steady state (R41, R230): while the link is up no step of any agent changes it. It rests on the
refusal of `ID_PARSE` there, log entry 13. -/
def Obligations.IdentityImmutableWhileUp : Prop :=
  ∀ s t : State, Inv s → step s = .next t → s.lstate = .up → t.lstate = .up → identityOf t = identityOf s

/-! ### Lifecycle -/

/-- `LINK_UP` from `DOWN` with a peripheral present that sends an identity whose fields fit, each response with a ready flag of its
own (R286, R51, R255, R256, R295): after the `1 + N + sum L` handshakes of its turns the link is bound and up, everything of R51
initialised, the bridge armed on the level present at the end, and a first cycle requested if the line is then asserted. Here no other
agent steps in between. The rendered strings are those that IdentityPublishedFromTranscript spells out digit by digit. Each handshake
is a step, log entry 10; the renderings and the limits 10 and 12 are log entry 22. -/
def Obligations.LinkUpBringsTheLinkUp : Prop :=
  ∀ (fields : List (List Byte)) (s : State),
    s.lstate = .down → s.peerPresent = true → fieldsFrame fields → fieldsFit fields = true → PeerSends s (identityPayloads fields) →
    ∃ oq iq, ringList oq = [] ∧ ringList iq = [] ∧ oq.ok = true ∧ iq.ok = true ∧
    runSequence .linkUp (identityExchanges fields) s = .next { s with
      lstate := .up, linkBound := true, parse := .idle, block := none, wstate := if s.sbLevel then .pending else .idle,
      oq := oq, iq := iq, usage := 0, lastXfer := s.now, hadData := false, cbFired := false,
      ledDuration := 0, ledPending := false, outActive := false, inActive := false, readyCb := false, drainWait := false,
      sbPrev := s.sbLevel, sbArmed := true,
      answers := s.answers.drop (identityExchanges fields), linkCount := s.linkCount + identityExchanges fields,
      linkTx := [0x00, 0x00],
      idFw := firmwareOf fields[0]?, idSerial := (fields[1]?).getD [], idUid := hexString ((fields[2]?).getD []),
      idHw := hardwareOf fields[3]?, idValid := true, verdict := .done .ok, result := .none }

/-- Every bring-up ends up or at reset values (R286, R288, R289, R290, R293). With no peripheral present `LINK_UP` ends in
`LinkUnavailable` with no exchange made. With one present it binds the link and is held in `BRINGUP`, and its exchanges come to an
end: in `OK` with the link up exactly when the peer sends a whole `ID_XACT` whose fields fit, and otherwise in `ProtocolError`, back in
`DOWN` with nothing published. Outside `DOWN` it is refused. Each handshake is a step, log entry 10; the limits 10 and 12 are log entry
22. -/
def Obligations.LinkUpIsAllOrNothing : Prop :=
  (∀ s : State, Inv s → DownIsReset s → s.lstate = .down →
    (s.peerPresent = false → ∃ t, exec .linkUp s = .next t ∧ t.verdict = .done .linkUnavailable ∧ t.lstate = .down ∧
      AtResetValues t ∧ t.linkCount = s.linkCount) ∧
    (s.peerPresent = true →
      exec .linkUp s = .next { s with
        lstate := .bringup, linkBound := true, parse := .start, verdict := .held, result := .none } ∧
      ∃ n t, runSequence .linkUp n s = .next t ∧
        ((t.verdict = .done .ok ∧ t.lstate = .up ∧ t.linkBound = true ∧ t.idValid = true ∧
            ∃ fields, fieldsFrame fields ∧ fieldsFit fields = true ∧ PeerSends s (identityPayloads fields) ∧
              t.linkCount = s.linkCount + identityExchanges fields) ∨
          (t.verdict = .done .protocolError ∧ t.lstate = .down ∧ AtResetValues t ∧
            ¬∃ fields, fieldsFrame fields ∧ fieldsFit fields = true ∧ PeerSends s (identityPayloads fields))))) ∧
  (∀ s : State, s.lstate ≠ .down → exec .linkUp s = .next (turnedAway s))

/-- `LINK_DOWN` in `UP` (R291, R292). With the worker idle it completes at once: the link released, queues, estimate, LED command
and endpoints destroyed or cleared, the identity at its defaults. With a cycle pending or running it is held in `SHUTDOWN`, new work
shut out. A held `OUT_DRAIN` ends refused, which marks the run (R269, R307). The datapath registers are cleared with the rest, the
model's reading of R21 and R293, log entry 9. The mark is log entry 18. -/
def Obligations.LinkDownShutsTheLink : Prop :=
  ∀ s : State, s.lstate = .up →
    (s.wstate = .idle → ∃ oq iq, ringList oq = [] ∧ ringList iq = [] ∧ oq.ok = true ∧ iq.ok = true ∧
      exec .linkDown s = .next { s with
        lstate := .down, linkBound := false, parse := .idle, block := none, phase := .refill, hadData := false, cbFired := false,
        frameOut := ⟨⟨0, 0⟩, ⟨0, 0⟩⟩, frameIn := ⟨⟨0, 0⟩, ⟨0, 0⟩⟩, elapsed := 0, usage := 0, lastXfer := 0,
        ledDuration := 0, ledPending := false, oq := oq, iq := iq,
        outActive := false, inActive := false, readyCb := false, drainWait := false, sbArmed := false,
        idSerial := [], idUid := [], idFw := [], idHw := [0x31, 0x2E, 0x30], idValid := false,
        marked := s.marked || s.drainWait, verdict := .done .ok, result := .none }) ∧
    (s.wstate ≠ .idle → exec .linkDown s = .next { s with
      lstate := .shutdown, sbArmed := false, drainWait := false, marked := s.marked || s.drainWait,
      verdict := .held, result := .none })

/-- `QUIESCE` is `ok` when the worker is idle and `held` otherwise, and changes nothing (R292); that it does so as a step of its own, in
every lifecycle state, and leaves the run unmarked is log entry 13. A held `LINK_DOWN` at `HOST`'s turn:
while a cycle is pending or running its caller stays held and nothing changes; once the worker is idle the block is `DOWN` with every
element at its reset value but the counters and the synchroniser bits (R293). A direct block read in progress, which the contract
excludes there (log entry 13), is finished first. That the resumption is a turn of `HOST`'s is log entry 10; that the datapath registers
are cleared is log entry 9; that the ring stores read zero (AtResetValues) is log entry 3. -/
def Obligations.HeldLinkDownCompletesWhenIdle : Prop :=
  (∀ s : State,
    (s.wstate = .idle → exec .quiesce s = .next { s with verdict := .done .ok, result := .none }) ∧
    (s.wstate ≠ .idle → exec .quiesce s = .next { s with verdict := .held, result := .none })) ∧
  ∀ (s : State) (rest : List Event), Inv s → s.lstate = .shutdown → s.sched = .host :: rest →
    (s.wstate ≠ .idle → step s = .next { s with sched := rest, verdict := .held, result := .none }) ∧
    (s.wstate = .idle → s.block ≠ none → step s = exec .xchg16 { s with sched := rest }) ∧
    (s.wstate = .idle → s.block = none → ∃ t, step s = .next t ∧ t.verdict = .done .ok ∧ t.lstate = .down ∧ AtResetValues t ∧
      t.diagXferFaults = s.diagXferFaults ∧ t.diagInDrops = s.diagInDrops ∧
      t.sbMeta = s.sbMeta ∧ t.sbLevel = s.sbLevel ∧ t.sbPrev = s.sbPrev)

/-- Lifecycle gating (R318, R265): outside `UP` every command of the queues, the endpoints and the LED is refused, and `LINK_DOWN`
with them; a refused command changes no state but the mark on the run (U1). How a refusal shows is log entry 11. -/
def Obligations.CommandsRefusedOutsideUp : Prop :=
  ∀ (i : Instr) (s : State), upOnly i = true → s.lstate ≠ .up → exec i s = .next (turnedAway s)

/-- The state machine of `lstate`, complete (R21, R294): only `LINK_UP` with a peripheral present leaves `DOWN`, and it leads to
`BRINGUP`; only a handshake leaves `BRINGUP`, for `UP` or `DOWN`; only `LINK_DOWN` leaves `UP`; only the completed shutdown leaves
`SHUTDOWN`; and a hardware reset leads to `DOWN`. A cycle becomes pending only in `UP` (R52). That `BRINGUP` is seen between the
handshakes is log entry 10, that a response word is a step which makes the handshake it answers log entry 15. -/
def Obligations.LifecycleTransitions : Prop :=
  ∀ s t : State, Inv s → step s = .next t →
    (t.lstate = s.lstate ∨
      (∃ iss rest, s.sched = .op iss :: rest ∧ decode iss = .ok .linkUp ∧ s.lstate = .down ∧ s.peerPresent = true ∧
        t.lstate = .bringup) ∨
      (s.lstate = .bringup ∧ (t.lstate = .up ∨ t.lstate = .down) ∧ t.linkCount = s.linkCount + 1 ∧
        (s.sched = [] ∨ (∃ rest, s.sched = .host :: rest) ∨
          ∃ iss rest i, s.sched = .op iss :: rest ∧ decode iss = .ok i ∧
            (i = .idParse ∨ i = .rdlp 0xFF ∨ i = .xchg16 ∨ i = .hsInvalid ∨ ∃ r p, i = .hsValid r p))) ∨
      (∃ iss rest, s.sched = .op iss :: rest ∧ decode iss = .ok .linkDown ∧ s.lstate = .up ∧
        t.lstate = if s.wstate = .idle then .down else .shutdown) ∨
      ((s.sched = [] ∨ ∃ rest, s.sched = .host :: rest) ∧ s.lstate = .shutdown ∧ s.wstate = .idle ∧ t.lstate = .down) ∨
      (∃ rest, s.sched = .rst :: rest ∧ t.lstate = .down)) ∧
    (s.wstate ≠ .pending → t.wstate = .pending → t.lstate = .up)

/-! ### The LED command and the composer -/

/-- R171: in `UP` the command register is overwritten whatever it held and a cycle is requested; outside `UP` refused. -/
def Obligations.FlashLedSetsTheCommand : Prop :=
  ∀ (d : Byte) (s : State),
    (s.lstate = .up → exec (.flashLed d) s = .next { s with
      ledDuration := d, ledPending := true, wstate := requested s.wstate, verdict := .done .ok, result := .none }) ∧
    (s.lstate ≠ .up → exec (.flashLed d) s = .next (turnedAway s))

/-- An LED command becomes pending by no step but `FLASH_LED` in `UP` (R32, R45). -/
def Obligations.OnlyFlashLedMakesACommandPending : Prop :=
  ∀ s t : State, step s = .next t → s.ledPending = false → t.ledPending = true →
    s.lstate = .up ∧ ∃ iss rest d, s.sched = .op iss :: rest ∧ decode iss = .ok (.flashLed d) ∧ t.ledDuration = d

/-- R174: the slot takes the pending LED command, or else one queued byte if the gate is open, or else it is empty; the LED slot
neither tests nor changes the estimate, the MIDI slot pops one byte and charges 1000. Nothing else changes. That the place of the byte
popped keeps it (RingLost) is the model's choice, log entry 3. -/
def Obligations.ComposeSlotChoosesLedMidiEmpty : Prop :=
  ∀ (k : SlotIx) (s : State), s.oq.ok = true → s.wstate = .running → s.phase = composePhase k →
    (s.ledPending = true → exec (.composeSlot k) s = .next { s with
      frameOut := setFrameSlot s.frameOut k ⟨0xF0, s.ledDuration⟩, ledDuration := 0, ledPending := false,
      phase := afterCompose k, verdict := .done .ok, result := .none }) ∧
    (s.ledPending = false → s.usage + 1000 < 127000 → s.oq.count ≠ 0 → ∃ b q, RingLost s.oq b q ∧
      exec (.composeSlot k) s = .next { s with
        frameOut := setFrameSlot s.frameOut k ⟨0x0F, b⟩, oq := q, usage := s.usage + 1000,
        phase := afterCompose k, verdict := .done .ok, result := .none }) ∧
    (s.ledPending = false → ¬(s.usage + 1000 < 127000 ∧ s.oq.count ≠ 0) → exec (.composeSlot k) s = .next { s with
      frameOut := setFrameSlot s.frameOut k ⟨0x00, 0x00⟩, phase := afterCompose k, verdict := .done .ok, result := .none })

/-- Order and charge of a whole frame (R107, R178, R191): composing slot 0 and then slot 1, with no other step between the two, moves
bytes from the head of the Outbound Queue into the frame, none lost, none repeated, none reordered, and charges 1000 for each; an LED
command pending when slot 0 is composed takes that slot and leaves the order as it is. -/
def Obligations.ComposedFrameCarriesTheQueueInOrder : Prop :=
  ∀ s : State, s.oq.ok = true → s.wstate = .running → s.phase = .compose0 →
    ∃ t u, exec (.composeSlot .slot0) s = .next t ∧ exec (.composeSlot .slot1) t = .next u ∧ u.phase = .xchg ∧
      midiValues u.frameOut ++ ringList u.oq = ringList s.oq ∧
      u.usage = s.usage + 1000 * (midiValues u.frameOut).length ∧
      (s.ledPending = true → u.frameOut.slot0 = ⟨0xF0, s.ledDuration⟩ ∧ u.ledPending = false)

/-- R180: a slot with tag zero delivers nothing; a nonzero tag sets `had_data` and stores the byte, or drops and counts it when the
queue is full; the ready event is given exactly at the push from 16 to 17, once in an iteration, while a callback is registered. -/
def Obligations.DeliverSlotStoresOrDrops : Prop :=
  ∀ (k : SlotIx) (s : State), s.iq.ok = true → s.wstate = .running → s.phase = deliverPhase k →
    ((frameSlot s.frameIn k).tag = 0 → exec (.deliverSlot k) s = .next { s with
      phase := afterDeliver k, verdict := .done .ok, result := .none }) ∧
    ((frameSlot s.frameIn k).tag ≠ 0 → s.iq.count = 4096 → exec (.deliverSlot k) s = .next { s with
      hadData := true, diagInDrops := s.diagInDrops + 1, phase := afterDeliver k, verdict := .done .ok, result := .none }) ∧
    ((frameSlot s.frameIn k).tag ≠ 0 → s.iq.count < 4096 → ∃ q, RingGained s.iq [(frameSlot s.frameIn k).value] q ∧
      ((s.iq.count = 16 ∧ s.cbFired = false ∧ s.readyCb = true → exec (.deliverSlot k) s = .next { s with
          iq := q, hadData := true, icReady := s.icReady + 1, cbFired := true,
          phase := afterDeliver k, verdict := .done .ok, result := .none }) ∧
        (¬(s.iq.count = 16 ∧ s.cbFired = false ∧ s.readyCb = true) → exec (.deliverSlot k) s = .next { s with
          iq := q, hadData := true, phase := afterDeliver k, verdict := .done .ok, result := .none })))

/-- A whole inbound frame (R96, R97, R210, R310): delivering slot 0 then slot 1 appends the values of the slots with a nonzero tag,
in that order, as far as there is room, and counts the rest as dropped. -/
def Obligations.DeliveredFrameKeepsOrder : Prop :=
  ∀ s : State, s.iq.ok = true → s.wstate = .running → s.phase = .deliver0 →
    ∃ t u, exec (.deliverSlot .slot0) s = .next t ∧ exec (.deliverSlot .slot1) t = .next u ∧ u.phase = .cont ∧
      ringList u.iq = ringList s.iq ++ (inboundValues s.frameIn).take (4096 - s.iq.count) ∧
      u.diagInDrops = s.diagInDrops + ((inboundValues s.frameIn).length - (4096 - s.iq.count))

/-- The outbound frame holds only the three slot encodings of R93 (R95): every step keeps it so. -/
def Obligations.OutboundFrameStaysLegal : Prop :=
  ∀ s t : State, FrameOutLegal s → step s = .next t → FrameOutLegal t

/-! ### The scheduler -/

/-- R141: the cycle request is a test-and-set of the request latch, in `UP` only; it never blocks and never fails. R143: `CYC_START`
takes up the pending request. R155: `CYC_FLUSH` gives one ready event if bytes wait and a callback is registered, and leaves the
worker idle. -/
def Obligations.CycleIsRequestedStartedAndFlushed : Prop :=
  ∀ s : State,
    (s.lstate = .up → s.wstate = .idle →
      exec .reqCycle s = .next { s with wstate := .pending, verdict := .done .ok, result := .none }) ∧
    (s.lstate ≠ .up ∨ s.wstate ≠ .idle → exec .reqCycle s = .next { s with verdict := .done .ok, result := .none }) ∧
    (s.wstate = .pending → exec .cycStart s = .next { s with
      wstate := .running, phase := .refill, verdict := .done .ok, result := .none }) ∧
    (s.wstate = .running → s.phase = .flush → exec .cycFlush s = .next { s with
      icReady := s.icReady + (if s.iq.count ≠ 0 ∧ s.readyCb = true then 1 else 0),
      wstate := .idle, verdict := .done .ok, result := .none })

/-- A micro-step the worker's state does not enable does not run (R140): asked for all the same, it is refused and changes nothing.
That it is refused rather than absent is the model's choice, log entry 8. -/
def Obligations.MicroStepsRunOnlyInTheirPhase : Prop :=
  (∀ (i : Instr) (p : Phase) (s : State), microPhase i = some p → ¬(s.wstate = .running ∧ s.phase = p) →
    exec i s = .next (turnedAway s)) ∧
  (∀ s : State, s.wstate ≠ .pending → exec .cycStart s = .next (turnedAway s))

/-- R145: a new iteration clears its two flags; if the client is active and there is room for a full transfer, the first bytes of
its window move to the tail of the queue and are acknowledged, all of them; otherwise nothing is pulled, not even a part. -/
def Obligations.RefillPullsAWholeWindow : Prop :=
  ∀ s : State, s.oq.ok = true → s.wstate = .running → s.phase = .refill →
    (s.outActive = true → s.params.peekMax ≤ 4096 - s.oq.count →
      ∃ q, RingGained s.oq (s.ocBuf.take s.params.peekMax) q ∧
        exec .itRefill s = .next { s with
          hadData := false, cbFired := false, oq := q, ocBuf := s.ocBuf.drop s.params.peekMax,
          ocAck := min s.ocBuf.length s.params.peekMax, phase := .compose0, verdict := .done .ok, result := .none }) ∧
    (s.outActive = false ∨ 4096 - s.oq.count < s.params.peekMax → exec .itRefill s = .next { s with
      hadData := false, cbFired := false, phase := .compose0, verdict := .done .ok, result := .none })

/-- R148: one exchange of the composed frame; its status is not acted on (a failed one leaves a zero inbound frame); the time since
the previous exchange and the time of this one are recorded also then. -/
def Obligations.IterationExchange : Prop :=
  ∀ s : State, s.wstate = .running → s.phase = .xchg →
    (s.linkBound = false → exec .itXchg s = .next { s with
      diagXferFaults := s.diagXferFaults + 1, frameIn := ⟨⟨0, 0⟩, ⟨0, 0⟩⟩, elapsed := s.now - s.lastXfer, lastXfer := s.now,
      phase := .decay, verdict := .done .ok, result := .none }) ∧
    (s.linkBound = true → exec .itXchg s = .next { s with
      answers := s.answers.tail, linkCount := s.linkCount + 1,
      linkTx := [s.frameOut.slot0.tag, s.frameOut.slot0.value, s.frameOut.slot1.tag, s.frameOut.slot1.value],
      diagXferFaults := s.diagXferFaults + (if (linkAnswerOf s).ok then 0 else 1),
      frameIn := if (linkAnswerOf s).ok
        then ⟨⟨(linkAnswerOf s).b0, (linkAnswerOf s).b1⟩, ⟨(linkAnswerOf s).b2, (linkAnswerOf s).b3⟩⟩
        else ⟨⟨0, 0⟩, ⟨0, 0⟩⟩,
      elapsed := s.now - s.lastXfer, lastXfer := s.now, phase := .decay, verdict := .done .ok, result := .none })

/-- R153: the loop goes on while one of the five terms holds and leaves for the flush otherwise; nothing but `phase` changes. -/
def Obligations.IterationContinues : Prop :=
  ∀ s : State, s.wstate = .running → s.phase = .cont →
    ((s.hadData = true ∨ s.oq.count ≠ 0 ∨ s.sbLevel = true ∨ s.ledPending = true ∨ s.usage ≠ 0) →
      exec .itCont s = .next { s with phase := .refill, verdict := .done .ok, result := .none }) ∧
    (s.hadData = false → s.oq.count = 0 → s.sbLevel = false → s.ledPending = false → s.usage = 0 →
      exec .itCont s = .next { s with phase := .flush, verdict := .done .ok, result := .none })

/-! ### The flow controller -/

/-- R191: true exactly when `usage + 1000 < 127000` or an LED command is pending; it reads only. That it answers as a step of its own, in
every lifecycle state and beside a running worker, and leaves the run unmarked is the model's choice, log entry 13 (R190 has
`COMPOSE_SLOT` alone call it). -/
def Obligations.CanSendReadsTheGate : Prop :=
  ∀ s : State,
    ((s.usage + 1000 < 127000 ∨ s.ledPending = true) →
      exec .canSend s = .next { s with verdict := .done .ok, result := .flag true }) ∧
    (¬(s.usage + 1000 < 127000) → s.ledPending = false →
      exec .canSend s = .next { s with verdict := .done .ok, result := .flag false })

/-- `ON_SENT` under its guard charges 1000 (R193); without it, or where no estimate exists, it is refused (U8, R285). The guard is that
of R193: the gate open and no LED command pending. The refusals are log entry 11; that the charge made by a step of its own, also beside
a running worker, leaves the run unmarked is log entry 13. -/
def Obligations.OnSentChargesUnderItsGuard : Prop :=
  ∀ s : State,
    ((s.lstate = .up ∨ s.lstate = .shutdown) → s.usage + 1000 < 127000 → s.ledPending = false →
      exec .onSent s = .next { s with usage := s.usage + 1000, verdict := .done .ok, result := .none }) ∧
    (¬(s.lstate = .up ∨ s.lstate = .shutdown) ∨ ¬(s.usage + 1000 < 127000) ∨ s.ledPending = true →
      exec .onSent s = .next (turnedAway s))

/-- R194: the exact product is subtracted, floored at zero, for every number of ticks. R150: loop step 4 does this with the elapsed
ticks. That `ON_ELAPSED` has its effect as a step of its own, in every lifecycle state and beside a running worker, and leaves the run
unmarked is the model's choice, log entry 13 (R190 has `IT_DECAY` alone call it). -/
def Obligations.DecayIsExactAndFloored : Prop :=
  (∀ s : State, s.wstate = .running → s.phase = .decay → exec .itDecay s = .next { s with
    usage := if s.params.drainRate * s.elapsed ≤ s.usage then s.usage - s.params.drainRate * s.elapsed else 0,
    phase := .deliver0, verdict := .done .ok, result := .none }) ∧
  ∀ (n : Nat) (s : State),
    (s.params.drainRate * n ≤ s.usage → exec (.onElapsed n) s =
      .next { s with usage := s.usage - s.params.drainRate * n, verdict := .done .ok, result := .none }) ∧
    (s.usage < s.params.drainRate * n → exec (.onElapsed n) s = .next { s with usage := 0, verdict := .done .ok, result := .none })

/-- The tight bound on the estimate (R197): every step, of any agent, keeps it below the ceiling. It rests on the refusal of `ON_SENT`
outside its guard, log entry 11. -/
def Obligations.UsageStaysBelowTheCeiling : Prop :=
  ∀ s t : State, UsageBelowCeiling s → step s = .next t → UsageBelowCeiling t

/-! ### The queues -/

/-- R221: the test push is refused outside `UP` and while the worker runs; a full queue gives `false`; otherwise the byte goes to
the tail, and a push into an empty queue requests a cycle. -/
def Obligations.TestPushAppends : Prop :=
  ∀ (b : Byte) (s : State), s.oq.ok = true →
    (s.lstate ≠ .up ∨ s.wstate = .running → exec (.oqPush b) s = .next (turnedAway s)) ∧
    (s.lstate = .up → s.wstate ≠ .running → s.oq.count = 4096 →
      exec (.oqPush b) s = .next { s with verdict := .done .ok, result := .flag false }) ∧
    (s.lstate = .up → s.wstate ≠ .running → s.oq.count < 4096 → ∃ q, RingGained s.oq [b] q ∧
      exec (.oqPush b) s = .next { s with
        oq := q, wstate := if s.oq.count = 0 then requested s.wstate else s.wstate,
        verdict := .done .ok, result := .flag true })

/-- `OQ_POP` taken alone while the worker is not running (R209, R206): the oldest byte leaves; on an empty queue nothing changes. Its
place is inside `COMPOSE_SLOT`, so the run is marked (R71, R77, U3); beside a running worker, and where no queue exists (R222), it is
refused. The mark is log entry 13, the refusals log entries 11 and 13; that the byte's place keeps it (RingLost) is log entry 3. -/
def Obligations.PopTakesTheOldest : Prop :=
  ∀ s : State, s.oq.ok = true →
    ((s.lstate = .up ∨ s.lstate = .shutdown) → s.wstate ≠ .running → s.oq.count ≠ 0 → ∃ b q, RingLost s.oq b q ∧
      exec .oqPop s = .next { s with oq := q, marked := true, verdict := .done .ok, result := .byte b }) ∧
    ((s.lstate = .up ∨ s.lstate = .shutdown) → s.wstate ≠ .running → s.oq.count = 0 →
      exec .oqPop s = .next { s with marked := true, verdict := .done .ok, result := .none }) ∧
    (¬(s.lstate = .up ∨ s.lstate = .shutdown) ∨ s.wstate = .running → exec .oqPop s = .next (turnedAway s))

/-- `OQ_REFILL` taken alone while the worker is not running (R211, R212, R215, R216): the first bytes of the peek window that fit move
to the tail of the queue, in order, leave the client's buffer, and are acknowledged. Its place is inside `IT_REFILL`, so the run is
marked (R71, U3); beside a running worker, and where no queue exists (R222), it is refused. The mark is log entry 13, the refusals log
entries 11 and 13. -/
def Obligations.RefillMovesWhatFits : Prop :=
  ∀ s : State, s.oq.ok = true →
    ((s.lstate = .up ∨ s.lstate = .shutdown) → s.wstate ≠ .running → ∃ q n,
      n = min (min s.ocBuf.length s.params.peekMax) (4096 - s.oq.count) ∧ RingGained s.oq (s.ocBuf.take n) q ∧
      exec .oqRefill s = .next { s with
        oq := q, ocBuf := s.ocBuf.drop n, ocAck := n, marked := true, verdict := .done .ok, result := .number n }) ∧
    (¬(s.lstate = .up ∨ s.lstate = .shutdown) ∨ s.wstate = .running → exec .oqRefill s = .next (turnedAway s))

/-- `IQ_PUSH` taken alone while the worker is not running (R217, R218): the byte is stored at the tail, or, the queue full, it alone is
dropped and counted. Its place is inside `DELIVER_SLOT`, so the run is marked (R71, R77, U3); beside a running worker, and where no
queue exists (R222), it is refused. The mark is log entry 13, the refusals log entries 11 and 13. -/
def Obligations.InboundPushStoresOrDrops : Prop :=
  ∀ (b : Byte) (s : State), s.iq.ok = true →
    ((s.lstate = .up ∨ s.lstate = .shutdown) → s.wstate ≠ .running → s.iq.count = 4096 → exec (.iqPush b) s = .next { s with
      diagInDrops := s.diagInDrops + 1, marked := true, verdict := .done .ok, result := .flag false }) ∧
    ((s.lstate = .up ∨ s.lstate = .shutdown) → s.wstate ≠ .running → s.iq.count < 4096 → ∃ q, RingGained s.iq [b] q ∧
      exec (.iqPush b) s = .next { s with iq := q, marked := true, verdict := .done .ok, result := .flag true }) ∧
    (¬(s.lstate = .up ∨ s.lstate = .shutdown) ∨ s.wstate = .running → exec (.iqPush b) s = .next (turnedAway s))

/-- R219: in `UP`, whatever `ready_cb` and `in_active` say, the drain returns every queued byte, oldest first, and leaves the queue
empty; outside `UP` it is refused. That the places of the store keep the old bytes is the model's choice, log entry 3. -/
def Obligations.DrainTakesEverything : Prop :=
  ∀ s : State, s.iq.ok = true →
    (s.lstate = .up → ∃ q, q.ok = true ∧ ringList q = [] ∧ q.wr = s.iq.wr ∧ (∀ a, memGet q.mem a = memGet s.iq.mem a) ∧
      exec .iqDrain s = .next { s with iq := q, verdict := .done .ok, result := .bytes (ringList s.iq) }) ∧
    (s.lstate ≠ .up → exec .iqDrain s = .next (turnedAway s))

/-- R207: the length queries answer the number of bytes queued and change nothing; refused outside `UP`. -/
def Obligations.LengthQueries : Prop :=
  ∀ s : State,
    (s.lstate = .up →
      exec .oqLen s = .next { s with verdict := .done .ok, result := .number (ringList s.oq).length } ∧
      exec .iqLen s = .next { s with verdict := .done .ok, result := .number (ringList s.iq).length }) ∧
    (s.lstate ≠ .up → exec .oqLen s = .next (turnedAway s) ∧ exec .iqLen s = .next (turnedAway s))

/-! ### The signal bridge -/

/-- R252: the two-stage shift, and a cycle request exactly on an armed 0-to-1 change of the level while the link is up. R254: the
edge handler's only effect is the cycle request, while armed. R253: the level query reads the synchronised level, in every state. That
the handler also runs as a step of its own, with no change of the level, and leaves the run unmarked is the model's choice, log entry
13. -/
def Obligations.SignalBridgeSamplesAndNotifies : Prop :=
  (∀ s : State,
    (s.sbArmed = true → s.lstate = .up →
      exec .sbEdge s = .next { s with wstate := requested s.wstate, verdict := .done .ok, result := .none }) ∧
    (s.sbArmed = false ∨ s.lstate ≠ .up → exec .sbEdge s = .next { s with verdict := .done .ok, result := .none }) ∧
    exec .sbLevel s = .next { s with verdict := .done .ok, result := .flag s.sbLevel }) ∧
  ∀ (v : Bool) (s : State),
    (s.sbArmed = true → s.sbLevel = false → s.sbMeta = true → s.lstate = .up → exec (.sbSample v) s = .next { s with
      sbPrev := false, sbLevel := true, sbMeta := v, wstate := requested s.wstate, verdict := .done .ok, result := .none }) ∧
    (¬(s.sbArmed = true ∧ s.sbLevel = false ∧ s.sbMeta = true ∧ s.lstate = .up) → exec (.sbSample v) s = .next { s with
      sbPrev := s.sbLevel, sbLevel := s.sbMeta, sbMeta := v, verdict := .done .ok, result := .none })

/-! ### The stream endpoints -/

/-- The seven endpoint commands that do not wait, in `UP` (R266, R267, R268, R271, R272, R273, R274): each writes its bits, the
starts request a cycle, and nothing else changes. -/
def Obligations.EndpointCommandsInUp : Prop :=
  ∀ s : State, s.lstate = .up →
    exec .outOpen s = .next { s with outActive := true, verdict := .done .ok, result := .none } ∧
    exec .outClose s = .next { s with outActive := false, verdict := .done .ok, result := .none } ∧
    exec .outStart s = .next { s with wstate := requested s.wstate, verdict := .done .ok, result := .none } ∧
    exec .inOpen s = .next { s with inActive := true, verdict := .done .ok, result := .none } ∧
    exec .inClose s = .next { s with inActive := false, readyCb := false, verdict := .done .ok, result := .none } ∧
    exec .inStart s = .next { s with readyCb := true, wstate := requested s.wstate, verdict := .done .ok, result := .none } ∧
    exec .inStop s = .next { s with readyCb := false, verdict := .done .ok, result := .none }

/-- `OUT_DRAIN` (R269, R75): refused outside `UP` with the hold cleared; `ok` exactly when the Outbound Queue is empty; held
otherwise, with a cycle requested. -/
def Obligations.DrainWaitsForTheOutboundQueue : Prop :=
  ∀ s : State,
    (s.lstate ≠ .up → exec .outDrain s = .next { turnedAway s with drainWait := false }) ∧
    (s.lstate = .up → s.oq.count = 0 →
      exec .outDrain s = .next { s with drainWait := false, verdict := .done .ok, result := .none }) ∧
    (s.lstate = .up → s.oq.count ≠ 0 → exec .outDrain s = .next { s with
      drainWait := true, wstate := requested s.wstate, verdict := .held, result := .none })

/-! ### Invariants -/

/-- The state after reset has the invariants (R52), and the other good-state predicates the statements below carry along. -/
def Obligations.ResetHasTheInvariants : Prop :=
  Inv State.reset ∧ UsageBelowCeiling State.reset ∧ DownIsReset State.reset ∧ IdentityLimits State.reset ∧
    FrameOutLegal State.reset

/-- The invariants of R52, with the ring registers in agreement (R35), the arming window (R40) and what holds between two exchanges of
a bring-up or a block read (R9, R232), are kept by every step of every agent. That those exchanges are steps is log entry 10. -/
def Obligations.EveryStepKeepsTheInvariants : Prop :=
  ∀ s t : State, Inv s → step s = .next t → Inv t

/-- `DOWN` is one state (R21, R293), and `BRINGUP` is that state but for the bound link and where the parse stands (R290): every step
keeps that there every element but the counters and the synchroniser bits has its reset value. It rests on log entry 9 for the
datapath registers after `LINK_DOWN`, on log entry 3 for the content of the ring stores, and on log entries 11 and 13 for the
functions refused there. -/
def Obligations.DownStaysOneState : Prop :=
  ∀ s t : State, Inv s → DownIsReset s → step s = .next t → DownIsReset t

/-- The length limits of the identity strings (R41, R236, R237) are kept by every step, whatever the peer sends. The limits themselves are log entry 22. -/
def Obligations.IdentityStaysWithinItsLimits : Prop :=
  ∀ s t : State, IdentityLimits s → step s = .next t → IdentityLimits t

/-- Time never falls (R47), the two diagnostic counters only grow but for a hardware reset (R42), and no step changes the parameters
(R7, R49). -/
def Obligations.TimeAndCountersNeverFall : Prop :=
  ∀ s t : State, step s = .next t →
    s.now ≤ t.now ∧ t.params = s.params ∧
    ((s.diagXferFaults ≤ t.diagXferFaults ∧ s.diagInDrops ≤ t.diagInDrops) ∨ ∃ rest, s.sched = .rst :: rest)

end Statements
end

