-- ==== Sys2Proof/Laws/Encoding.lean ====
section
/-! SUPPORT. The two bytes of a word and the word of two bytes are inverse (R12, R63). -/

namespace Sys2Proof

@[simp] theorem hiByte_joinBytes (h l : Byte) : hiByte (joinBytes h l) = h := by
  apply BitVec.eq_of_toNat_eq
  have := l.isLt
  have := h.isLt
  simp only [hiByte, joinBytes, BitVec.extractLsb'_toNat, BitVec.toNat_append, Nat.shiftRight_eq_div_pow]
  rw [← Nat.shiftLeft_add_eq_or_of_lt l.isLt, Nat.shiftLeft_eq]
  omega

@[simp] theorem loByte_joinBytes (h l : Byte) : loByte (joinBytes h l) = l := by
  apply BitVec.eq_of_toNat_eq
  have := l.isLt
  have := h.isLt
  simp only [loByte, joinBytes, BitVec.extractLsb'_toNat, BitVec.toNat_append, Nat.shiftRight_eq_div_pow]
  rw [← Nat.shiftLeft_add_eq_or_of_lt l.isLt, Nat.shiftLeft_eq]
  omega

@[simp] theorem joinBytes_hiByte_loByte (w : Word) : joinBytes (hiByte w) (loByte w) = w := by
  apply BitVec.eq_of_toNat_eq
  have : w.toNat < 2 ^ 16 := w.isLt
  simp only [hiByte, loByte, joinBytes, BitVec.extractLsb'_toNat, BitVec.toNat_append, Nat.shiftRight_eq_div_pow]
  rw [← Nat.shiftLeft_add_eq_or_of_lt (by omega), Nat.shiftLeft_eq]
  omega

@[simp] theorem issueOf_fmt (f : Format) (h l : Byte) : (issueOf f h l).fmt = f := rfl
@[simp] theorem issueOf_word (f : Format) (h l : Byte) : (issueOf f h l).word = joinBytes h l := rfl
@[simp] theorem issueOf_args (f : Format) (h l : Byte) : (issueOf f h l).args = Args.zero := rfl

end Sys2Proof
end

