-- ==== Sys2Proof/Laws/State.lean ====
section
/-! SUPPORT. One lemma for each field of the state and each named update of it, so that no later proof unfolds an update. -/

namespace Sys2Proof.Machine

@[simp] theorem State.succeed_eq (s : State) : s.succeed = s.reply (.done .ok) .none := rfl
@[simp] theorem State.answer_eq (r : Result) (s : State) : s.answer r = s.reply (.done .ok) r := rfl
@[simp] theorem State.raise_eq (e : Status) (s : State) : s.raise e = s.reply (.done e) .none := rfl
@[simp] theorem State.hold_eq (s : State) : s.hold = s.reply .held .none := rfl

@[simp] theorem State.reply_lstate (v : Verdict) (r : Result) (s : State) :
    (State.reply v r s).lstate = s.lstate := rfl
@[simp] theorem State.reply_linkBound (v : Verdict) (r : Result) (s : State) :
    (State.reply v r s).linkBound = s.linkBound := rfl
@[simp] theorem State.reply_parse (v : Verdict) (r : Result) (s : State) :
    (State.reply v r s).parse = s.parse := rfl
@[simp] theorem State.reply_block (v : Verdict) (r : Result) (s : State) :
    (State.reply v r s).block = s.block := rfl
@[simp] theorem State.reply_wstate (v : Verdict) (r : Result) (s : State) :
    (State.reply v r s).wstate = s.wstate := rfl
@[simp] theorem State.reply_phase (v : Verdict) (r : Result) (s : State) :
    (State.reply v r s).phase = s.phase := rfl
@[simp] theorem State.reply_hadData (v : Verdict) (r : Result) (s : State) :
    (State.reply v r s).hadData = s.hadData := rfl
@[simp] theorem State.reply_cbFired (v : Verdict) (r : Result) (s : State) :
    (State.reply v r s).cbFired = s.cbFired := rfl
@[simp] theorem State.reply_frameOut (v : Verdict) (r : Result) (s : State) :
    (State.reply v r s).frameOut = s.frameOut := rfl
@[simp] theorem State.reply_frameIn (v : Verdict) (r : Result) (s : State) :
    (State.reply v r s).frameIn = s.frameIn := rfl
@[simp] theorem State.reply_elapsed (v : Verdict) (r : Result) (s : State) :
    (State.reply v r s).elapsed = s.elapsed := rfl
@[simp] theorem State.reply_usage (v : Verdict) (r : Result) (s : State) :
    (State.reply v r s).usage = s.usage := rfl
@[simp] theorem State.reply_lastXfer (v : Verdict) (r : Result) (s : State) :
    (State.reply v r s).lastXfer = s.lastXfer := rfl
@[simp] theorem State.reply_ledDuration (v : Verdict) (r : Result) (s : State) :
    (State.reply v r s).ledDuration = s.ledDuration := rfl
@[simp] theorem State.reply_ledPending (v : Verdict) (r : Result) (s : State) :
    (State.reply v r s).ledPending = s.ledPending := rfl
@[simp] theorem State.reply_oq (v : Verdict) (r : Result) (s : State) :
    (State.reply v r s).oq = s.oq := rfl
@[simp] theorem State.reply_iq (v : Verdict) (r : Result) (s : State) :
    (State.reply v r s).iq = s.iq := rfl
@[simp] theorem State.reply_outActive (v : Verdict) (r : Result) (s : State) :
    (State.reply v r s).outActive = s.outActive := rfl
@[simp] theorem State.reply_inActive (v : Verdict) (r : Result) (s : State) :
    (State.reply v r s).inActive = s.inActive := rfl
@[simp] theorem State.reply_readyCb (v : Verdict) (r : Result) (s : State) :
    (State.reply v r s).readyCb = s.readyCb := rfl
@[simp] theorem State.reply_drainWait (v : Verdict) (r : Result) (s : State) :
    (State.reply v r s).drainWait = s.drainWait := rfl
@[simp] theorem State.reply_sbMeta (v : Verdict) (r : Result) (s : State) :
    (State.reply v r s).sbMeta = s.sbMeta := rfl
@[simp] theorem State.reply_sbLevel (v : Verdict) (r : Result) (s : State) :
    (State.reply v r s).sbLevel = s.sbLevel := rfl
@[simp] theorem State.reply_sbPrev (v : Verdict) (r : Result) (s : State) :
    (State.reply v r s).sbPrev = s.sbPrev := rfl
@[simp] theorem State.reply_sbArmed (v : Verdict) (r : Result) (s : State) :
    (State.reply v r s).sbArmed = s.sbArmed := rfl
@[simp] theorem State.reply_idSerial (v : Verdict) (r : Result) (s : State) :
    (State.reply v r s).idSerial = s.idSerial := rfl
@[simp] theorem State.reply_idUid (v : Verdict) (r : Result) (s : State) :
    (State.reply v r s).idUid = s.idUid := rfl
@[simp] theorem State.reply_idFw (v : Verdict) (r : Result) (s : State) :
    (State.reply v r s).idFw = s.idFw := rfl
@[simp] theorem State.reply_idHw (v : Verdict) (r : Result) (s : State) :
    (State.reply v r s).idHw = s.idHw := rfl
@[simp] theorem State.reply_idValid (v : Verdict) (r : Result) (s : State) :
    (State.reply v r s).idValid = s.idValid := rfl
@[simp] theorem State.reply_diagXferFaults (v : Verdict) (r : Result) (s : State) :
    (State.reply v r s).diagXferFaults = s.diagXferFaults := rfl
@[simp] theorem State.reply_diagInDrops (v : Verdict) (r : Result) (s : State) :
    (State.reply v r s).diagInDrops = s.diagInDrops := rfl
@[simp] theorem State.reply_now (v : Verdict) (r : Result) (s : State) :
    (State.reply v r s).now = s.now := rfl
@[simp] theorem State.reply_ocBuf (v : Verdict) (r : Result) (s : State) :
    (State.reply v r s).ocBuf = s.ocBuf := rfl
@[simp] theorem State.reply_peerPresent (v : Verdict) (r : Result) (s : State) :
    (State.reply v r s).peerPresent = s.peerPresent := rfl
@[simp] theorem State.reply_answers (v : Verdict) (r : Result) (s : State) :
    (State.reply v r s).answers = s.answers := rfl
@[simp] theorem State.reply_sched (v : Verdict) (r : Result) (s : State) :
    (State.reply v r s).sched = s.sched := rfl
@[simp] theorem State.reply_verdict (v : Verdict) (r : Result) (s : State) :
    (State.reply v r s).verdict = v := rfl
@[simp] theorem State.reply_result (v : Verdict) (r : Result) (s : State) :
    (State.reply v r s).result = r := rfl
@[simp] theorem State.reply_icReady (v : Verdict) (r : Result) (s : State) :
    (State.reply v r s).icReady = s.icReady := rfl
@[simp] theorem State.reply_ocAck (v : Verdict) (r : Result) (s : State) :
    (State.reply v r s).ocAck = s.ocAck := rfl
@[simp] theorem State.reply_linkTx (v : Verdict) (r : Result) (s : State) :
    (State.reply v r s).linkTx = s.linkTx := rfl
@[simp] theorem State.reply_linkCount (v : Verdict) (r : Result) (s : State) :
    (State.reply v r s).linkCount = s.linkCount := rfl
@[simp] theorem State.reply_marked (v : Verdict) (r : Result) (s : State) :
    (State.reply v r s).marked = s.marked := rfl
@[simp] theorem State.reply_params (v : Verdict) (r : Result) (s : State) :
    (State.reply v r s).params = s.params := rfl

@[simp] theorem State.refuse_lstate (s : State) :
    (State.refuse s).lstate = s.lstate := rfl
@[simp] theorem State.refuse_linkBound (s : State) :
    (State.refuse s).linkBound = s.linkBound := rfl
@[simp] theorem State.refuse_parse (s : State) :
    (State.refuse s).parse = s.parse := rfl
@[simp] theorem State.refuse_block (s : State) :
    (State.refuse s).block = s.block := rfl
@[simp] theorem State.refuse_wstate (s : State) :
    (State.refuse s).wstate = s.wstate := rfl
@[simp] theorem State.refuse_phase (s : State) :
    (State.refuse s).phase = s.phase := rfl
@[simp] theorem State.refuse_hadData (s : State) :
    (State.refuse s).hadData = s.hadData := rfl
@[simp] theorem State.refuse_cbFired (s : State) :
    (State.refuse s).cbFired = s.cbFired := rfl
@[simp] theorem State.refuse_frameOut (s : State) :
    (State.refuse s).frameOut = s.frameOut := rfl
@[simp] theorem State.refuse_frameIn (s : State) :
    (State.refuse s).frameIn = s.frameIn := rfl
@[simp] theorem State.refuse_elapsed (s : State) :
    (State.refuse s).elapsed = s.elapsed := rfl
@[simp] theorem State.refuse_usage (s : State) :
    (State.refuse s).usage = s.usage := rfl
@[simp] theorem State.refuse_lastXfer (s : State) :
    (State.refuse s).lastXfer = s.lastXfer := rfl
@[simp] theorem State.refuse_ledDuration (s : State) :
    (State.refuse s).ledDuration = s.ledDuration := rfl
@[simp] theorem State.refuse_ledPending (s : State) :
    (State.refuse s).ledPending = s.ledPending := rfl
@[simp] theorem State.refuse_oq (s : State) :
    (State.refuse s).oq = s.oq := rfl
@[simp] theorem State.refuse_iq (s : State) :
    (State.refuse s).iq = s.iq := rfl
@[simp] theorem State.refuse_outActive (s : State) :
    (State.refuse s).outActive = s.outActive := rfl
@[simp] theorem State.refuse_inActive (s : State) :
    (State.refuse s).inActive = s.inActive := rfl
@[simp] theorem State.refuse_readyCb (s : State) :
    (State.refuse s).readyCb = s.readyCb := rfl
@[simp] theorem State.refuse_drainWait (s : State) :
    (State.refuse s).drainWait = s.drainWait := rfl
@[simp] theorem State.refuse_sbMeta (s : State) :
    (State.refuse s).sbMeta = s.sbMeta := rfl
@[simp] theorem State.refuse_sbLevel (s : State) :
    (State.refuse s).sbLevel = s.sbLevel := rfl
@[simp] theorem State.refuse_sbPrev (s : State) :
    (State.refuse s).sbPrev = s.sbPrev := rfl
@[simp] theorem State.refuse_sbArmed (s : State) :
    (State.refuse s).sbArmed = s.sbArmed := rfl
@[simp] theorem State.refuse_idSerial (s : State) :
    (State.refuse s).idSerial = s.idSerial := rfl
@[simp] theorem State.refuse_idUid (s : State) :
    (State.refuse s).idUid = s.idUid := rfl
@[simp] theorem State.refuse_idFw (s : State) :
    (State.refuse s).idFw = s.idFw := rfl
@[simp] theorem State.refuse_idHw (s : State) :
    (State.refuse s).idHw = s.idHw := rfl
@[simp] theorem State.refuse_idValid (s : State) :
    (State.refuse s).idValid = s.idValid := rfl
@[simp] theorem State.refuse_diagXferFaults (s : State) :
    (State.refuse s).diagXferFaults = s.diagXferFaults := rfl
@[simp] theorem State.refuse_diagInDrops (s : State) :
    (State.refuse s).diagInDrops = s.diagInDrops := rfl
@[simp] theorem State.refuse_now (s : State) :
    (State.refuse s).now = s.now := rfl
@[simp] theorem State.refuse_ocBuf (s : State) :
    (State.refuse s).ocBuf = s.ocBuf := rfl
@[simp] theorem State.refuse_peerPresent (s : State) :
    (State.refuse s).peerPresent = s.peerPresent := rfl
@[simp] theorem State.refuse_answers (s : State) :
    (State.refuse s).answers = s.answers := rfl
@[simp] theorem State.refuse_sched (s : State) :
    (State.refuse s).sched = s.sched := rfl
@[simp] theorem State.refuse_verdict (s : State) :
    (State.refuse s).verdict = .done .refused := rfl
@[simp] theorem State.refuse_result (s : State) :
    (State.refuse s).result = .none := rfl
@[simp] theorem State.refuse_icReady (s : State) :
    (State.refuse s).icReady = s.icReady := rfl
@[simp] theorem State.refuse_ocAck (s : State) :
    (State.refuse s).ocAck = s.ocAck := rfl
@[simp] theorem State.refuse_linkTx (s : State) :
    (State.refuse s).linkTx = s.linkTx := rfl
@[simp] theorem State.refuse_linkCount (s : State) :
    (State.refuse s).linkCount = s.linkCount := rfl
@[simp] theorem State.refuse_marked (s : State) :
    (State.refuse s).marked = true := rfl
@[simp] theorem State.refuse_params (s : State) :
    (State.refuse s).params = s.params := rfl

@[simp] theorem outsideContract_lstate (s : State) :
    (outsideContract s).lstate = s.lstate := rfl
@[simp] theorem outsideContract_linkBound (s : State) :
    (outsideContract s).linkBound = s.linkBound := rfl
@[simp] theorem outsideContract_parse (s : State) :
    (outsideContract s).parse = s.parse := rfl
@[simp] theorem outsideContract_block (s : State) :
    (outsideContract s).block = s.block := rfl
@[simp] theorem outsideContract_wstate (s : State) :
    (outsideContract s).wstate = s.wstate := rfl
@[simp] theorem outsideContract_phase (s : State) :
    (outsideContract s).phase = s.phase := rfl
@[simp] theorem outsideContract_hadData (s : State) :
    (outsideContract s).hadData = s.hadData := rfl
@[simp] theorem outsideContract_cbFired (s : State) :
    (outsideContract s).cbFired = s.cbFired := rfl
@[simp] theorem outsideContract_frameOut (s : State) :
    (outsideContract s).frameOut = s.frameOut := rfl
@[simp] theorem outsideContract_frameIn (s : State) :
    (outsideContract s).frameIn = s.frameIn := rfl
@[simp] theorem outsideContract_elapsed (s : State) :
    (outsideContract s).elapsed = s.elapsed := rfl
@[simp] theorem outsideContract_usage (s : State) :
    (outsideContract s).usage = s.usage := rfl
@[simp] theorem outsideContract_lastXfer (s : State) :
    (outsideContract s).lastXfer = s.lastXfer := rfl
@[simp] theorem outsideContract_ledDuration (s : State) :
    (outsideContract s).ledDuration = s.ledDuration := rfl
@[simp] theorem outsideContract_ledPending (s : State) :
    (outsideContract s).ledPending = s.ledPending := rfl
@[simp] theorem outsideContract_oq (s : State) :
    (outsideContract s).oq = s.oq := rfl
@[simp] theorem outsideContract_iq (s : State) :
    (outsideContract s).iq = s.iq := rfl
@[simp] theorem outsideContract_outActive (s : State) :
    (outsideContract s).outActive = s.outActive := rfl
@[simp] theorem outsideContract_inActive (s : State) :
    (outsideContract s).inActive = s.inActive := rfl
@[simp] theorem outsideContract_readyCb (s : State) :
    (outsideContract s).readyCb = s.readyCb := rfl
@[simp] theorem outsideContract_drainWait (s : State) :
    (outsideContract s).drainWait = s.drainWait := rfl
@[simp] theorem outsideContract_sbMeta (s : State) :
    (outsideContract s).sbMeta = s.sbMeta := rfl
@[simp] theorem outsideContract_sbLevel (s : State) :
    (outsideContract s).sbLevel = s.sbLevel := rfl
@[simp] theorem outsideContract_sbPrev (s : State) :
    (outsideContract s).sbPrev = s.sbPrev := rfl
@[simp] theorem outsideContract_sbArmed (s : State) :
    (outsideContract s).sbArmed = s.sbArmed := rfl
@[simp] theorem outsideContract_idSerial (s : State) :
    (outsideContract s).idSerial = s.idSerial := rfl
@[simp] theorem outsideContract_idUid (s : State) :
    (outsideContract s).idUid = s.idUid := rfl
@[simp] theorem outsideContract_idFw (s : State) :
    (outsideContract s).idFw = s.idFw := rfl
@[simp] theorem outsideContract_idHw (s : State) :
    (outsideContract s).idHw = s.idHw := rfl
@[simp] theorem outsideContract_idValid (s : State) :
    (outsideContract s).idValid = s.idValid := rfl
@[simp] theorem outsideContract_diagXferFaults (s : State) :
    (outsideContract s).diagXferFaults = s.diagXferFaults := rfl
@[simp] theorem outsideContract_diagInDrops (s : State) :
    (outsideContract s).diagInDrops = s.diagInDrops := rfl
@[simp] theorem outsideContract_now (s : State) :
    (outsideContract s).now = s.now := rfl
@[simp] theorem outsideContract_ocBuf (s : State) :
    (outsideContract s).ocBuf = s.ocBuf := rfl
@[simp] theorem outsideContract_peerPresent (s : State) :
    (outsideContract s).peerPresent = s.peerPresent := rfl
@[simp] theorem outsideContract_answers (s : State) :
    (outsideContract s).answers = s.answers := rfl
@[simp] theorem outsideContract_sched (s : State) :
    (outsideContract s).sched = s.sched := rfl
@[simp] theorem outsideContract_verdict (s : State) :
    (outsideContract s).verdict = s.verdict := rfl
@[simp] theorem outsideContract_result (s : State) :
    (outsideContract s).result = s.result := rfl
@[simp] theorem outsideContract_icReady (s : State) :
    (outsideContract s).icReady = s.icReady := rfl
@[simp] theorem outsideContract_ocAck (s : State) :
    (outsideContract s).ocAck = s.ocAck := rfl
@[simp] theorem outsideContract_linkTx (s : State) :
    (outsideContract s).linkTx = s.linkTx := rfl
@[simp] theorem outsideContract_linkCount (s : State) :
    (outsideContract s).linkCount = s.linkCount := rfl
@[simp] theorem outsideContract_marked (s : State) :
    (outsideContract s).marked = (s.marked || linkAlive s) := rfl
@[simp] theorem outsideContract_params (s : State) :
    (outsideContract s).params = s.params := rfl

@[simp] theorem pulseReady_lstate (s : State) :
    (pulseReady s).lstate = s.lstate := rfl
@[simp] theorem pulseReady_linkBound (s : State) :
    (pulseReady s).linkBound = s.linkBound := rfl
@[simp] theorem pulseReady_parse (s : State) :
    (pulseReady s).parse = s.parse := rfl
@[simp] theorem pulseReady_block (s : State) :
    (pulseReady s).block = s.block := rfl
@[simp] theorem pulseReady_wstate (s : State) :
    (pulseReady s).wstate = s.wstate := rfl
@[simp] theorem pulseReady_phase (s : State) :
    (pulseReady s).phase = s.phase := rfl
@[simp] theorem pulseReady_hadData (s : State) :
    (pulseReady s).hadData = s.hadData := rfl
@[simp] theorem pulseReady_cbFired (s : State) :
    (pulseReady s).cbFired = s.cbFired := rfl
@[simp] theorem pulseReady_frameOut (s : State) :
    (pulseReady s).frameOut = s.frameOut := rfl
@[simp] theorem pulseReady_frameIn (s : State) :
    (pulseReady s).frameIn = s.frameIn := rfl
@[simp] theorem pulseReady_elapsed (s : State) :
    (pulseReady s).elapsed = s.elapsed := rfl
@[simp] theorem pulseReady_usage (s : State) :
    (pulseReady s).usage = s.usage := rfl
@[simp] theorem pulseReady_lastXfer (s : State) :
    (pulseReady s).lastXfer = s.lastXfer := rfl
@[simp] theorem pulseReady_ledDuration (s : State) :
    (pulseReady s).ledDuration = s.ledDuration := rfl
@[simp] theorem pulseReady_ledPending (s : State) :
    (pulseReady s).ledPending = s.ledPending := rfl
@[simp] theorem pulseReady_oq (s : State) :
    (pulseReady s).oq = s.oq := rfl
@[simp] theorem pulseReady_iq (s : State) :
    (pulseReady s).iq = s.iq := rfl
@[simp] theorem pulseReady_outActive (s : State) :
    (pulseReady s).outActive = s.outActive := rfl
@[simp] theorem pulseReady_inActive (s : State) :
    (pulseReady s).inActive = s.inActive := rfl
@[simp] theorem pulseReady_readyCb (s : State) :
    (pulseReady s).readyCb = s.readyCb := rfl
@[simp] theorem pulseReady_drainWait (s : State) :
    (pulseReady s).drainWait = s.drainWait := rfl
@[simp] theorem pulseReady_sbMeta (s : State) :
    (pulseReady s).sbMeta = s.sbMeta := rfl
@[simp] theorem pulseReady_sbLevel (s : State) :
    (pulseReady s).sbLevel = s.sbLevel := rfl
@[simp] theorem pulseReady_sbPrev (s : State) :
    (pulseReady s).sbPrev = s.sbPrev := rfl
@[simp] theorem pulseReady_sbArmed (s : State) :
    (pulseReady s).sbArmed = s.sbArmed := rfl
@[simp] theorem pulseReady_idSerial (s : State) :
    (pulseReady s).idSerial = s.idSerial := rfl
@[simp] theorem pulseReady_idUid (s : State) :
    (pulseReady s).idUid = s.idUid := rfl
@[simp] theorem pulseReady_idFw (s : State) :
    (pulseReady s).idFw = s.idFw := rfl
@[simp] theorem pulseReady_idHw (s : State) :
    (pulseReady s).idHw = s.idHw := rfl
@[simp] theorem pulseReady_idValid (s : State) :
    (pulseReady s).idValid = s.idValid := rfl
@[simp] theorem pulseReady_diagXferFaults (s : State) :
    (pulseReady s).diagXferFaults = s.diagXferFaults := rfl
@[simp] theorem pulseReady_diagInDrops (s : State) :
    (pulseReady s).diagInDrops = s.diagInDrops := rfl
@[simp] theorem pulseReady_now (s : State) :
    (pulseReady s).now = s.now := rfl
@[simp] theorem pulseReady_ocBuf (s : State) :
    (pulseReady s).ocBuf = s.ocBuf := rfl
@[simp] theorem pulseReady_peerPresent (s : State) :
    (pulseReady s).peerPresent = s.peerPresent := rfl
@[simp] theorem pulseReady_answers (s : State) :
    (pulseReady s).answers = s.answers := rfl
@[simp] theorem pulseReady_sched (s : State) :
    (pulseReady s).sched = s.sched := rfl
@[simp] theorem pulseReady_verdict (s : State) :
    (pulseReady s).verdict = s.verdict := rfl
@[simp] theorem pulseReady_result (s : State) :
    (pulseReady s).result = s.result := rfl
@[simp] theorem pulseReady_icReady (s : State) :
    (pulseReady s).icReady = s.icReady + 1 := rfl
@[simp] theorem pulseReady_ocAck (s : State) :
    (pulseReady s).ocAck = s.ocAck := rfl
@[simp] theorem pulseReady_linkTx (s : State) :
    (pulseReady s).linkTx = s.linkTx := rfl
@[simp] theorem pulseReady_linkCount (s : State) :
    (pulseReady s).linkCount = s.linkCount := rfl
@[simp] theorem pulseReady_marked (s : State) :
    (pulseReady s).marked = s.marked := rfl
@[simp] theorem pulseReady_params (s : State) :
    (pulseReady s).params = s.params := rfl

@[simp] theorem afterLink_lstate (out : List Byte) (s : State) :
    (afterLink out s).lstate = s.lstate := rfl
@[simp] theorem afterLink_linkBound (out : List Byte) (s : State) :
    (afterLink out s).linkBound = s.linkBound := rfl
@[simp] theorem afterLink_parse (out : List Byte) (s : State) :
    (afterLink out s).parse = s.parse := rfl
@[simp] theorem afterLink_block (out : List Byte) (s : State) :
    (afterLink out s).block = s.block := rfl
@[simp] theorem afterLink_wstate (out : List Byte) (s : State) :
    (afterLink out s).wstate = s.wstate := rfl
@[simp] theorem afterLink_phase (out : List Byte) (s : State) :
    (afterLink out s).phase = s.phase := rfl
@[simp] theorem afterLink_hadData (out : List Byte) (s : State) :
    (afterLink out s).hadData = s.hadData := rfl
@[simp] theorem afterLink_cbFired (out : List Byte) (s : State) :
    (afterLink out s).cbFired = s.cbFired := rfl
@[simp] theorem afterLink_frameOut (out : List Byte) (s : State) :
    (afterLink out s).frameOut = s.frameOut := rfl
@[simp] theorem afterLink_frameIn (out : List Byte) (s : State) :
    (afterLink out s).frameIn = s.frameIn := rfl
@[simp] theorem afterLink_elapsed (out : List Byte) (s : State) :
    (afterLink out s).elapsed = s.elapsed := rfl
@[simp] theorem afterLink_usage (out : List Byte) (s : State) :
    (afterLink out s).usage = s.usage := rfl
@[simp] theorem afterLink_lastXfer (out : List Byte) (s : State) :
    (afterLink out s).lastXfer = s.lastXfer := rfl
@[simp] theorem afterLink_ledDuration (out : List Byte) (s : State) :
    (afterLink out s).ledDuration = s.ledDuration := rfl
@[simp] theorem afterLink_ledPending (out : List Byte) (s : State) :
    (afterLink out s).ledPending = s.ledPending := rfl
@[simp] theorem afterLink_oq (out : List Byte) (s : State) :
    (afterLink out s).oq = s.oq := rfl
@[simp] theorem afterLink_iq (out : List Byte) (s : State) :
    (afterLink out s).iq = s.iq := rfl
@[simp] theorem afterLink_outActive (out : List Byte) (s : State) :
    (afterLink out s).outActive = s.outActive := rfl
@[simp] theorem afterLink_inActive (out : List Byte) (s : State) :
    (afterLink out s).inActive = s.inActive := rfl
@[simp] theorem afterLink_readyCb (out : List Byte) (s : State) :
    (afterLink out s).readyCb = s.readyCb := rfl
@[simp] theorem afterLink_drainWait (out : List Byte) (s : State) :
    (afterLink out s).drainWait = s.drainWait := rfl
@[simp] theorem afterLink_sbMeta (out : List Byte) (s : State) :
    (afterLink out s).sbMeta = s.sbMeta := rfl
@[simp] theorem afterLink_sbLevel (out : List Byte) (s : State) :
    (afterLink out s).sbLevel = s.sbLevel := rfl
@[simp] theorem afterLink_sbPrev (out : List Byte) (s : State) :
    (afterLink out s).sbPrev = s.sbPrev := rfl
@[simp] theorem afterLink_sbArmed (out : List Byte) (s : State) :
    (afterLink out s).sbArmed = s.sbArmed := rfl
@[simp] theorem afterLink_idSerial (out : List Byte) (s : State) :
    (afterLink out s).idSerial = s.idSerial := rfl
@[simp] theorem afterLink_idUid (out : List Byte) (s : State) :
    (afterLink out s).idUid = s.idUid := rfl
@[simp] theorem afterLink_idFw (out : List Byte) (s : State) :
    (afterLink out s).idFw = s.idFw := rfl
@[simp] theorem afterLink_idHw (out : List Byte) (s : State) :
    (afterLink out s).idHw = s.idHw := rfl
@[simp] theorem afterLink_idValid (out : List Byte) (s : State) :
    (afterLink out s).idValid = s.idValid := rfl
@[simp] theorem afterLink_diagXferFaults (out : List Byte) (s : State) :
    (afterLink out s).diagXferFaults = s.diagXferFaults := rfl
@[simp] theorem afterLink_diagInDrops (out : List Byte) (s : State) :
    (afterLink out s).diagInDrops = s.diagInDrops := rfl
@[simp] theorem afterLink_now (out : List Byte) (s : State) :
    (afterLink out s).now = s.now := rfl
@[simp] theorem afterLink_ocBuf (out : List Byte) (s : State) :
    (afterLink out s).ocBuf = s.ocBuf := rfl
@[simp] theorem afterLink_peerPresent (out : List Byte) (s : State) :
    (afterLink out s).peerPresent = s.peerPresent := rfl
@[simp] theorem afterLink_answers (out : List Byte) (s : State) :
    (afterLink out s).answers = s.answers.tail := rfl
@[simp] theorem afterLink_sched (out : List Byte) (s : State) :
    (afterLink out s).sched = s.sched := rfl
@[simp] theorem afterLink_verdict (out : List Byte) (s : State) :
    (afterLink out s).verdict = s.verdict := rfl
@[simp] theorem afterLink_result (out : List Byte) (s : State) :
    (afterLink out s).result = s.result := rfl
@[simp] theorem afterLink_icReady (out : List Byte) (s : State) :
    (afterLink out s).icReady = s.icReady := rfl
@[simp] theorem afterLink_ocAck (out : List Byte) (s : State) :
    (afterLink out s).ocAck = s.ocAck := rfl
@[simp] theorem afterLink_linkTx (out : List Byte) (s : State) :
    (afterLink out s).linkTx = out := rfl
@[simp] theorem afterLink_linkCount (out : List Byte) (s : State) :
    (afterLink out s).linkCount = s.linkCount + 1 := rfl
@[simp] theorem afterLink_marked (out : List Byte) (s : State) :
    (afterLink out s).marked = s.marked := rfl
@[simp] theorem afterLink_params (out : List Byte) (s : State) :
    (afterLink out s).params = s.params := rfl

@[simp] theorem countFault_lstate (s : State) :
    (countFault s).lstate = s.lstate := rfl
@[simp] theorem countFault_linkBound (s : State) :
    (countFault s).linkBound = s.linkBound := rfl
@[simp] theorem countFault_parse (s : State) :
    (countFault s).parse = s.parse := rfl
@[simp] theorem countFault_block (s : State) :
    (countFault s).block = s.block := rfl
@[simp] theorem countFault_wstate (s : State) :
    (countFault s).wstate = s.wstate := rfl
@[simp] theorem countFault_phase (s : State) :
    (countFault s).phase = s.phase := rfl
@[simp] theorem countFault_hadData (s : State) :
    (countFault s).hadData = s.hadData := rfl
@[simp] theorem countFault_cbFired (s : State) :
    (countFault s).cbFired = s.cbFired := rfl
@[simp] theorem countFault_frameOut (s : State) :
    (countFault s).frameOut = s.frameOut := rfl
@[simp] theorem countFault_frameIn (s : State) :
    (countFault s).frameIn = s.frameIn := rfl
@[simp] theorem countFault_elapsed (s : State) :
    (countFault s).elapsed = s.elapsed := rfl
@[simp] theorem countFault_usage (s : State) :
    (countFault s).usage = s.usage := rfl
@[simp] theorem countFault_lastXfer (s : State) :
    (countFault s).lastXfer = s.lastXfer := rfl
@[simp] theorem countFault_ledDuration (s : State) :
    (countFault s).ledDuration = s.ledDuration := rfl
@[simp] theorem countFault_ledPending (s : State) :
    (countFault s).ledPending = s.ledPending := rfl
@[simp] theorem countFault_oq (s : State) :
    (countFault s).oq = s.oq := rfl
@[simp] theorem countFault_iq (s : State) :
    (countFault s).iq = s.iq := rfl
@[simp] theorem countFault_outActive (s : State) :
    (countFault s).outActive = s.outActive := rfl
@[simp] theorem countFault_inActive (s : State) :
    (countFault s).inActive = s.inActive := rfl
@[simp] theorem countFault_readyCb (s : State) :
    (countFault s).readyCb = s.readyCb := rfl
@[simp] theorem countFault_drainWait (s : State) :
    (countFault s).drainWait = s.drainWait := rfl
@[simp] theorem countFault_sbMeta (s : State) :
    (countFault s).sbMeta = s.sbMeta := rfl
@[simp] theorem countFault_sbLevel (s : State) :
    (countFault s).sbLevel = s.sbLevel := rfl
@[simp] theorem countFault_sbPrev (s : State) :
    (countFault s).sbPrev = s.sbPrev := rfl
@[simp] theorem countFault_sbArmed (s : State) :
    (countFault s).sbArmed = s.sbArmed := rfl
@[simp] theorem countFault_idSerial (s : State) :
    (countFault s).idSerial = s.idSerial := rfl
@[simp] theorem countFault_idUid (s : State) :
    (countFault s).idUid = s.idUid := rfl
@[simp] theorem countFault_idFw (s : State) :
    (countFault s).idFw = s.idFw := rfl
@[simp] theorem countFault_idHw (s : State) :
    (countFault s).idHw = s.idHw := rfl
@[simp] theorem countFault_idValid (s : State) :
    (countFault s).idValid = s.idValid := rfl
@[simp] theorem countFault_diagXferFaults (s : State) :
    (countFault s).diagXferFaults = s.diagXferFaults + 1 := rfl
@[simp] theorem countFault_diagInDrops (s : State) :
    (countFault s).diagInDrops = s.diagInDrops := rfl
@[simp] theorem countFault_now (s : State) :
    (countFault s).now = s.now := rfl
@[simp] theorem countFault_ocBuf (s : State) :
    (countFault s).ocBuf = s.ocBuf := rfl
@[simp] theorem countFault_peerPresent (s : State) :
    (countFault s).peerPresent = s.peerPresent := rfl
@[simp] theorem countFault_answers (s : State) :
    (countFault s).answers = s.answers := rfl
@[simp] theorem countFault_sched (s : State) :
    (countFault s).sched = s.sched := rfl
@[simp] theorem countFault_verdict (s : State) :
    (countFault s).verdict = s.verdict := rfl
@[simp] theorem countFault_result (s : State) :
    (countFault s).result = s.result := rfl
@[simp] theorem countFault_icReady (s : State) :
    (countFault s).icReady = s.icReady := rfl
@[simp] theorem countFault_ocAck (s : State) :
    (countFault s).ocAck = s.ocAck := rfl
@[simp] theorem countFault_linkTx (s : State) :
    (countFault s).linkTx = s.linkTx := rfl
@[simp] theorem countFault_linkCount (s : State) :
    (countFault s).linkCount = s.linkCount := rfl
@[simp] theorem countFault_marked (s : State) :
    (countFault s).marked = s.marked := rfl
@[simp] theorem countFault_params (s : State) :
    (countFault s).params = s.params := rfl

@[simp] theorem putSlot_lstate (k : SlotIx) (sl : Slot) (s : State) :
    (putSlot k sl s).lstate = s.lstate := rfl
@[simp] theorem putSlot_linkBound (k : SlotIx) (sl : Slot) (s : State) :
    (putSlot k sl s).linkBound = s.linkBound := rfl
@[simp] theorem putSlot_parse (k : SlotIx) (sl : Slot) (s : State) :
    (putSlot k sl s).parse = s.parse := rfl
@[simp] theorem putSlot_block (k : SlotIx) (sl : Slot) (s : State) :
    (putSlot k sl s).block = s.block := rfl
@[simp] theorem putSlot_wstate (k : SlotIx) (sl : Slot) (s : State) :
    (putSlot k sl s).wstate = s.wstate := rfl
@[simp] theorem putSlot_phase (k : SlotIx) (sl : Slot) (s : State) :
    (putSlot k sl s).phase = s.phase := rfl
@[simp] theorem putSlot_hadData (k : SlotIx) (sl : Slot) (s : State) :
    (putSlot k sl s).hadData = s.hadData := rfl
@[simp] theorem putSlot_cbFired (k : SlotIx) (sl : Slot) (s : State) :
    (putSlot k sl s).cbFired = s.cbFired := rfl
@[simp] theorem putSlot_frameOut (k : SlotIx) (sl : Slot) (s : State) :
    (putSlot k sl s).frameOut = setFrameSlot s.frameOut k sl := rfl
@[simp] theorem putSlot_frameIn (k : SlotIx) (sl : Slot) (s : State) :
    (putSlot k sl s).frameIn = s.frameIn := rfl
@[simp] theorem putSlot_elapsed (k : SlotIx) (sl : Slot) (s : State) :
    (putSlot k sl s).elapsed = s.elapsed := rfl
@[simp] theorem putSlot_usage (k : SlotIx) (sl : Slot) (s : State) :
    (putSlot k sl s).usage = s.usage := rfl
@[simp] theorem putSlot_lastXfer (k : SlotIx) (sl : Slot) (s : State) :
    (putSlot k sl s).lastXfer = s.lastXfer := rfl
@[simp] theorem putSlot_ledDuration (k : SlotIx) (sl : Slot) (s : State) :
    (putSlot k sl s).ledDuration = s.ledDuration := rfl
@[simp] theorem putSlot_ledPending (k : SlotIx) (sl : Slot) (s : State) :
    (putSlot k sl s).ledPending = s.ledPending := rfl
@[simp] theorem putSlot_oq (k : SlotIx) (sl : Slot) (s : State) :
    (putSlot k sl s).oq = s.oq := rfl
@[simp] theorem putSlot_iq (k : SlotIx) (sl : Slot) (s : State) :
    (putSlot k sl s).iq = s.iq := rfl
@[simp] theorem putSlot_outActive (k : SlotIx) (sl : Slot) (s : State) :
    (putSlot k sl s).outActive = s.outActive := rfl
@[simp] theorem putSlot_inActive (k : SlotIx) (sl : Slot) (s : State) :
    (putSlot k sl s).inActive = s.inActive := rfl
@[simp] theorem putSlot_readyCb (k : SlotIx) (sl : Slot) (s : State) :
    (putSlot k sl s).readyCb = s.readyCb := rfl
@[simp] theorem putSlot_drainWait (k : SlotIx) (sl : Slot) (s : State) :
    (putSlot k sl s).drainWait = s.drainWait := rfl
@[simp] theorem putSlot_sbMeta (k : SlotIx) (sl : Slot) (s : State) :
    (putSlot k sl s).sbMeta = s.sbMeta := rfl
@[simp] theorem putSlot_sbLevel (k : SlotIx) (sl : Slot) (s : State) :
    (putSlot k sl s).sbLevel = s.sbLevel := rfl
@[simp] theorem putSlot_sbPrev (k : SlotIx) (sl : Slot) (s : State) :
    (putSlot k sl s).sbPrev = s.sbPrev := rfl
@[simp] theorem putSlot_sbArmed (k : SlotIx) (sl : Slot) (s : State) :
    (putSlot k sl s).sbArmed = s.sbArmed := rfl
@[simp] theorem putSlot_idSerial (k : SlotIx) (sl : Slot) (s : State) :
    (putSlot k sl s).idSerial = s.idSerial := rfl
@[simp] theorem putSlot_idUid (k : SlotIx) (sl : Slot) (s : State) :
    (putSlot k sl s).idUid = s.idUid := rfl
@[simp] theorem putSlot_idFw (k : SlotIx) (sl : Slot) (s : State) :
    (putSlot k sl s).idFw = s.idFw := rfl
@[simp] theorem putSlot_idHw (k : SlotIx) (sl : Slot) (s : State) :
    (putSlot k sl s).idHw = s.idHw := rfl
@[simp] theorem putSlot_idValid (k : SlotIx) (sl : Slot) (s : State) :
    (putSlot k sl s).idValid = s.idValid := rfl
@[simp] theorem putSlot_diagXferFaults (k : SlotIx) (sl : Slot) (s : State) :
    (putSlot k sl s).diagXferFaults = s.diagXferFaults := rfl
@[simp] theorem putSlot_diagInDrops (k : SlotIx) (sl : Slot) (s : State) :
    (putSlot k sl s).diagInDrops = s.diagInDrops := rfl
@[simp] theorem putSlot_now (k : SlotIx) (sl : Slot) (s : State) :
    (putSlot k sl s).now = s.now := rfl
@[simp] theorem putSlot_ocBuf (k : SlotIx) (sl : Slot) (s : State) :
    (putSlot k sl s).ocBuf = s.ocBuf := rfl
@[simp] theorem putSlot_peerPresent (k : SlotIx) (sl : Slot) (s : State) :
    (putSlot k sl s).peerPresent = s.peerPresent := rfl
@[simp] theorem putSlot_answers (k : SlotIx) (sl : Slot) (s : State) :
    (putSlot k sl s).answers = s.answers := rfl
@[simp] theorem putSlot_sched (k : SlotIx) (sl : Slot) (s : State) :
    (putSlot k sl s).sched = s.sched := rfl
@[simp] theorem putSlot_verdict (k : SlotIx) (sl : Slot) (s : State) :
    (putSlot k sl s).verdict = s.verdict := rfl
@[simp] theorem putSlot_result (k : SlotIx) (sl : Slot) (s : State) :
    (putSlot k sl s).result = s.result := rfl
@[simp] theorem putSlot_icReady (k : SlotIx) (sl : Slot) (s : State) :
    (putSlot k sl s).icReady = s.icReady := rfl
@[simp] theorem putSlot_ocAck (k : SlotIx) (sl : Slot) (s : State) :
    (putSlot k sl s).ocAck = s.ocAck := rfl
@[simp] theorem putSlot_linkTx (k : SlotIx) (sl : Slot) (s : State) :
    (putSlot k sl s).linkTx = s.linkTx := rfl
@[simp] theorem putSlot_linkCount (k : SlotIx) (sl : Slot) (s : State) :
    (putSlot k sl s).linkCount = s.linkCount := rfl
@[simp] theorem putSlot_marked (k : SlotIx) (sl : Slot) (s : State) :
    (putSlot k sl s).marked = s.marked := rfl
@[simp] theorem putSlot_params (k : SlotIx) (sl : Slot) (s : State) :
    (putSlot k sl s).params = s.params := rfl

@[simp] theorem chargeByte_lstate (s : State) :
    (chargeByte s).lstate = s.lstate := rfl
@[simp] theorem chargeByte_linkBound (s : State) :
    (chargeByte s).linkBound = s.linkBound := rfl
@[simp] theorem chargeByte_parse (s : State) :
    (chargeByte s).parse = s.parse := rfl
@[simp] theorem chargeByte_block (s : State) :
    (chargeByte s).block = s.block := rfl
@[simp] theorem chargeByte_wstate (s : State) :
    (chargeByte s).wstate = s.wstate := rfl
@[simp] theorem chargeByte_phase (s : State) :
    (chargeByte s).phase = s.phase := rfl
@[simp] theorem chargeByte_hadData (s : State) :
    (chargeByte s).hadData = s.hadData := rfl
@[simp] theorem chargeByte_cbFired (s : State) :
    (chargeByte s).cbFired = s.cbFired := rfl
@[simp] theorem chargeByte_frameOut (s : State) :
    (chargeByte s).frameOut = s.frameOut := rfl
@[simp] theorem chargeByte_frameIn (s : State) :
    (chargeByte s).frameIn = s.frameIn := rfl
@[simp] theorem chargeByte_elapsed (s : State) :
    (chargeByte s).elapsed = s.elapsed := rfl
@[simp] theorem chargeByte_usage (s : State) :
    (chargeByte s).usage = s.usage + Config.cost := rfl
@[simp] theorem chargeByte_lastXfer (s : State) :
    (chargeByte s).lastXfer = s.lastXfer := rfl
@[simp] theorem chargeByte_ledDuration (s : State) :
    (chargeByte s).ledDuration = s.ledDuration := rfl
@[simp] theorem chargeByte_ledPending (s : State) :
    (chargeByte s).ledPending = s.ledPending := rfl
@[simp] theorem chargeByte_oq (s : State) :
    (chargeByte s).oq = s.oq := rfl
@[simp] theorem chargeByte_iq (s : State) :
    (chargeByte s).iq = s.iq := rfl
@[simp] theorem chargeByte_outActive (s : State) :
    (chargeByte s).outActive = s.outActive := rfl
@[simp] theorem chargeByte_inActive (s : State) :
    (chargeByte s).inActive = s.inActive := rfl
@[simp] theorem chargeByte_readyCb (s : State) :
    (chargeByte s).readyCb = s.readyCb := rfl
@[simp] theorem chargeByte_drainWait (s : State) :
    (chargeByte s).drainWait = s.drainWait := rfl
@[simp] theorem chargeByte_sbMeta (s : State) :
    (chargeByte s).sbMeta = s.sbMeta := rfl
@[simp] theorem chargeByte_sbLevel (s : State) :
    (chargeByte s).sbLevel = s.sbLevel := rfl
@[simp] theorem chargeByte_sbPrev (s : State) :
    (chargeByte s).sbPrev = s.sbPrev := rfl
@[simp] theorem chargeByte_sbArmed (s : State) :
    (chargeByte s).sbArmed = s.sbArmed := rfl
@[simp] theorem chargeByte_idSerial (s : State) :
    (chargeByte s).idSerial = s.idSerial := rfl
@[simp] theorem chargeByte_idUid (s : State) :
    (chargeByte s).idUid = s.idUid := rfl
@[simp] theorem chargeByte_idFw (s : State) :
    (chargeByte s).idFw = s.idFw := rfl
@[simp] theorem chargeByte_idHw (s : State) :
    (chargeByte s).idHw = s.idHw := rfl
@[simp] theorem chargeByte_idValid (s : State) :
    (chargeByte s).idValid = s.idValid := rfl
@[simp] theorem chargeByte_diagXferFaults (s : State) :
    (chargeByte s).diagXferFaults = s.diagXferFaults := rfl
@[simp] theorem chargeByte_diagInDrops (s : State) :
    (chargeByte s).diagInDrops = s.diagInDrops := rfl
@[simp] theorem chargeByte_now (s : State) :
    (chargeByte s).now = s.now := rfl
@[simp] theorem chargeByte_ocBuf (s : State) :
    (chargeByte s).ocBuf = s.ocBuf := rfl
@[simp] theorem chargeByte_peerPresent (s : State) :
    (chargeByte s).peerPresent = s.peerPresent := rfl
@[simp] theorem chargeByte_answers (s : State) :
    (chargeByte s).answers = s.answers := rfl
@[simp] theorem chargeByte_sched (s : State) :
    (chargeByte s).sched = s.sched := rfl
@[simp] theorem chargeByte_verdict (s : State) :
    (chargeByte s).verdict = s.verdict := rfl
@[simp] theorem chargeByte_result (s : State) :
    (chargeByte s).result = s.result := rfl
@[simp] theorem chargeByte_icReady (s : State) :
    (chargeByte s).icReady = s.icReady := rfl
@[simp] theorem chargeByte_ocAck (s : State) :
    (chargeByte s).ocAck = s.ocAck := rfl
@[simp] theorem chargeByte_linkTx (s : State) :
    (chargeByte s).linkTx = s.linkTx := rfl
@[simp] theorem chargeByte_linkCount (s : State) :
    (chargeByte s).linkCount = s.linkCount := rfl
@[simp] theorem chargeByte_marked (s : State) :
    (chargeByte s).marked = s.marked := rfl
@[simp] theorem chargeByte_params (s : State) :
    (chargeByte s).params = s.params := rfl

@[simp] theorem decayUsage_lstate (t : Nat) (s : State) :
    (decayUsage t s).lstate = s.lstate := rfl
@[simp] theorem decayUsage_linkBound (t : Nat) (s : State) :
    (decayUsage t s).linkBound = s.linkBound := rfl
@[simp] theorem decayUsage_parse (t : Nat) (s : State) :
    (decayUsage t s).parse = s.parse := rfl
@[simp] theorem decayUsage_block (t : Nat) (s : State) :
    (decayUsage t s).block = s.block := rfl
@[simp] theorem decayUsage_wstate (t : Nat) (s : State) :
    (decayUsage t s).wstate = s.wstate := rfl
@[simp] theorem decayUsage_phase (t : Nat) (s : State) :
    (decayUsage t s).phase = s.phase := rfl
@[simp] theorem decayUsage_hadData (t : Nat) (s : State) :
    (decayUsage t s).hadData = s.hadData := rfl
@[simp] theorem decayUsage_cbFired (t : Nat) (s : State) :
    (decayUsage t s).cbFired = s.cbFired := rfl
@[simp] theorem decayUsage_frameOut (t : Nat) (s : State) :
    (decayUsage t s).frameOut = s.frameOut := rfl
@[simp] theorem decayUsage_frameIn (t : Nat) (s : State) :
    (decayUsage t s).frameIn = s.frameIn := rfl
@[simp] theorem decayUsage_elapsed (t : Nat) (s : State) :
    (decayUsage t s).elapsed = s.elapsed := rfl
@[simp] theorem decayUsage_usage (t : Nat) (s : State) :
    (decayUsage t s).usage = s.usage - s.params.drainRate * t := by
  simp only [decayUsage]; split <;> omega
@[simp] theorem decayUsage_lastXfer (t : Nat) (s : State) :
    (decayUsage t s).lastXfer = s.lastXfer := rfl
@[simp] theorem decayUsage_ledDuration (t : Nat) (s : State) :
    (decayUsage t s).ledDuration = s.ledDuration := rfl
@[simp] theorem decayUsage_ledPending (t : Nat) (s : State) :
    (decayUsage t s).ledPending = s.ledPending := rfl
@[simp] theorem decayUsage_oq (t : Nat) (s : State) :
    (decayUsage t s).oq = s.oq := rfl
@[simp] theorem decayUsage_iq (t : Nat) (s : State) :
    (decayUsage t s).iq = s.iq := rfl
@[simp] theorem decayUsage_outActive (t : Nat) (s : State) :
    (decayUsage t s).outActive = s.outActive := rfl
@[simp] theorem decayUsage_inActive (t : Nat) (s : State) :
    (decayUsage t s).inActive = s.inActive := rfl
@[simp] theorem decayUsage_readyCb (t : Nat) (s : State) :
    (decayUsage t s).readyCb = s.readyCb := rfl
@[simp] theorem decayUsage_drainWait (t : Nat) (s : State) :
    (decayUsage t s).drainWait = s.drainWait := rfl
@[simp] theorem decayUsage_sbMeta (t : Nat) (s : State) :
    (decayUsage t s).sbMeta = s.sbMeta := rfl
@[simp] theorem decayUsage_sbLevel (t : Nat) (s : State) :
    (decayUsage t s).sbLevel = s.sbLevel := rfl
@[simp] theorem decayUsage_sbPrev (t : Nat) (s : State) :
    (decayUsage t s).sbPrev = s.sbPrev := rfl
@[simp] theorem decayUsage_sbArmed (t : Nat) (s : State) :
    (decayUsage t s).sbArmed = s.sbArmed := rfl
@[simp] theorem decayUsage_idSerial (t : Nat) (s : State) :
    (decayUsage t s).idSerial = s.idSerial := rfl
@[simp] theorem decayUsage_idUid (t : Nat) (s : State) :
    (decayUsage t s).idUid = s.idUid := rfl
@[simp] theorem decayUsage_idFw (t : Nat) (s : State) :
    (decayUsage t s).idFw = s.idFw := rfl
@[simp] theorem decayUsage_idHw (t : Nat) (s : State) :
    (decayUsage t s).idHw = s.idHw := rfl
@[simp] theorem decayUsage_idValid (t : Nat) (s : State) :
    (decayUsage t s).idValid = s.idValid := rfl
@[simp] theorem decayUsage_diagXferFaults (t : Nat) (s : State) :
    (decayUsage t s).diagXferFaults = s.diagXferFaults := rfl
@[simp] theorem decayUsage_diagInDrops (t : Nat) (s : State) :
    (decayUsage t s).diagInDrops = s.diagInDrops := rfl
@[simp] theorem decayUsage_now (t : Nat) (s : State) :
    (decayUsage t s).now = s.now := rfl
@[simp] theorem decayUsage_ocBuf (t : Nat) (s : State) :
    (decayUsage t s).ocBuf = s.ocBuf := rfl
@[simp] theorem decayUsage_peerPresent (t : Nat) (s : State) :
    (decayUsage t s).peerPresent = s.peerPresent := rfl
@[simp] theorem decayUsage_answers (t : Nat) (s : State) :
    (decayUsage t s).answers = s.answers := rfl
@[simp] theorem decayUsage_sched (t : Nat) (s : State) :
    (decayUsage t s).sched = s.sched := rfl
@[simp] theorem decayUsage_verdict (t : Nat) (s : State) :
    (decayUsage t s).verdict = s.verdict := rfl
@[simp] theorem decayUsage_result (t : Nat) (s : State) :
    (decayUsage t s).result = s.result := rfl
@[simp] theorem decayUsage_icReady (t : Nat) (s : State) :
    (decayUsage t s).icReady = s.icReady := rfl
@[simp] theorem decayUsage_ocAck (t : Nat) (s : State) :
    (decayUsage t s).ocAck = s.ocAck := rfl
@[simp] theorem decayUsage_linkTx (t : Nat) (s : State) :
    (decayUsage t s).linkTx = s.linkTx := rfl
@[simp] theorem decayUsage_linkCount (t : Nat) (s : State) :
    (decayUsage t s).linkCount = s.linkCount := rfl
@[simp] theorem decayUsage_marked (t : Nat) (s : State) :
    (decayUsage t s).marked = s.marked := rfl
@[simp] theorem decayUsage_params (t : Nat) (s : State) :
    (decayUsage t s).params = s.params := rfl

@[simp] theorem requestCycle_lstate (s : State) :
    (requestCycle s).lstate = s.lstate := by unfold requestCycle; split <;> rfl
@[simp] theorem requestCycle_linkBound (s : State) :
    (requestCycle s).linkBound = s.linkBound := by unfold requestCycle; split <;> rfl
@[simp] theorem requestCycle_parse (s : State) :
    (requestCycle s).parse = s.parse := by unfold requestCycle; split <;> rfl
@[simp] theorem requestCycle_block (s : State) :
    (requestCycle s).block = s.block := by unfold requestCycle; split <;> rfl
@[simp] theorem requestCycle_wstate (s : State) :
    (requestCycle s).wstate = if s.lstate = .up ∧ s.wstate = .idle then .pending else s.wstate := by
  unfold requestCycle; split <;> simp_all
@[simp] theorem requestCycle_phase (s : State) :
    (requestCycle s).phase = s.phase := by unfold requestCycle; split <;> rfl
@[simp] theorem requestCycle_hadData (s : State) :
    (requestCycle s).hadData = s.hadData := by unfold requestCycle; split <;> rfl
@[simp] theorem requestCycle_cbFired (s : State) :
    (requestCycle s).cbFired = s.cbFired := by unfold requestCycle; split <;> rfl
@[simp] theorem requestCycle_frameOut (s : State) :
    (requestCycle s).frameOut = s.frameOut := by unfold requestCycle; split <;> rfl
@[simp] theorem requestCycle_frameIn (s : State) :
    (requestCycle s).frameIn = s.frameIn := by unfold requestCycle; split <;> rfl
@[simp] theorem requestCycle_elapsed (s : State) :
    (requestCycle s).elapsed = s.elapsed := by unfold requestCycle; split <;> rfl
@[simp] theorem requestCycle_usage (s : State) :
    (requestCycle s).usage = s.usage := by unfold requestCycle; split <;> rfl
@[simp] theorem requestCycle_lastXfer (s : State) :
    (requestCycle s).lastXfer = s.lastXfer := by unfold requestCycle; split <;> rfl
@[simp] theorem requestCycle_ledDuration (s : State) :
    (requestCycle s).ledDuration = s.ledDuration := by unfold requestCycle; split <;> rfl
@[simp] theorem requestCycle_ledPending (s : State) :
    (requestCycle s).ledPending = s.ledPending := by unfold requestCycle; split <;> rfl
@[simp] theorem requestCycle_oq (s : State) :
    (requestCycle s).oq = s.oq := by unfold requestCycle; split <;> rfl
@[simp] theorem requestCycle_iq (s : State) :
    (requestCycle s).iq = s.iq := by unfold requestCycle; split <;> rfl
@[simp] theorem requestCycle_outActive (s : State) :
    (requestCycle s).outActive = s.outActive := by unfold requestCycle; split <;> rfl
@[simp] theorem requestCycle_inActive (s : State) :
    (requestCycle s).inActive = s.inActive := by unfold requestCycle; split <;> rfl
@[simp] theorem requestCycle_readyCb (s : State) :
    (requestCycle s).readyCb = s.readyCb := by unfold requestCycle; split <;> rfl
@[simp] theorem requestCycle_drainWait (s : State) :
    (requestCycle s).drainWait = s.drainWait := by unfold requestCycle; split <;> rfl
@[simp] theorem requestCycle_sbMeta (s : State) :
    (requestCycle s).sbMeta = s.sbMeta := by unfold requestCycle; split <;> rfl
@[simp] theorem requestCycle_sbLevel (s : State) :
    (requestCycle s).sbLevel = s.sbLevel := by unfold requestCycle; split <;> rfl
@[simp] theorem requestCycle_sbPrev (s : State) :
    (requestCycle s).sbPrev = s.sbPrev := by unfold requestCycle; split <;> rfl
@[simp] theorem requestCycle_sbArmed (s : State) :
    (requestCycle s).sbArmed = s.sbArmed := by unfold requestCycle; split <;> rfl
@[simp] theorem requestCycle_idSerial (s : State) :
    (requestCycle s).idSerial = s.idSerial := by unfold requestCycle; split <;> rfl
@[simp] theorem requestCycle_idUid (s : State) :
    (requestCycle s).idUid = s.idUid := by unfold requestCycle; split <;> rfl
@[simp] theorem requestCycle_idFw (s : State) :
    (requestCycle s).idFw = s.idFw := by unfold requestCycle; split <;> rfl
@[simp] theorem requestCycle_idHw (s : State) :
    (requestCycle s).idHw = s.idHw := by unfold requestCycle; split <;> rfl
@[simp] theorem requestCycle_idValid (s : State) :
    (requestCycle s).idValid = s.idValid := by unfold requestCycle; split <;> rfl
@[simp] theorem requestCycle_diagXferFaults (s : State) :
    (requestCycle s).diagXferFaults = s.diagXferFaults := by unfold requestCycle; split <;> rfl
@[simp] theorem requestCycle_diagInDrops (s : State) :
    (requestCycle s).diagInDrops = s.diagInDrops := by unfold requestCycle; split <;> rfl
@[simp] theorem requestCycle_now (s : State) :
    (requestCycle s).now = s.now := by unfold requestCycle; split <;> rfl
@[simp] theorem requestCycle_ocBuf (s : State) :
    (requestCycle s).ocBuf = s.ocBuf := by unfold requestCycle; split <;> rfl
@[simp] theorem requestCycle_peerPresent (s : State) :
    (requestCycle s).peerPresent = s.peerPresent := by unfold requestCycle; split <;> rfl
@[simp] theorem requestCycle_answers (s : State) :
    (requestCycle s).answers = s.answers := by unfold requestCycle; split <;> rfl
@[simp] theorem requestCycle_sched (s : State) :
    (requestCycle s).sched = s.sched := by unfold requestCycle; split <;> rfl
@[simp] theorem requestCycle_verdict (s : State) :
    (requestCycle s).verdict = s.verdict := by unfold requestCycle; split <;> rfl
@[simp] theorem requestCycle_result (s : State) :
    (requestCycle s).result = s.result := by unfold requestCycle; split <;> rfl
@[simp] theorem requestCycle_icReady (s : State) :
    (requestCycle s).icReady = s.icReady := by unfold requestCycle; split <;> rfl
@[simp] theorem requestCycle_ocAck (s : State) :
    (requestCycle s).ocAck = s.ocAck := by unfold requestCycle; split <;> rfl
@[simp] theorem requestCycle_linkTx (s : State) :
    (requestCycle s).linkTx = s.linkTx := by unfold requestCycle; split <;> rfl
@[simp] theorem requestCycle_linkCount (s : State) :
    (requestCycle s).linkCount = s.linkCount := by unfold requestCycle; split <;> rfl
@[simp] theorem requestCycle_marked (s : State) :
    (requestCycle s).marked = s.marked := by unfold requestCycle; split <;> rfl
@[simp] theorem requestCycle_params (s : State) :
    (requestCycle s).params = s.params := by unfold requestCycle; split <;> rfl

@[simp] theorem notifyEdge_lstate (s : State) :
    (notifyEdge s).lstate = s.lstate := by unfold notifyEdge requestCycle; split <;> [split <;> rfl; rfl]
@[simp] theorem notifyEdge_linkBound (s : State) :
    (notifyEdge s).linkBound = s.linkBound := by unfold notifyEdge requestCycle; split <;> [split <;> rfl; rfl]
@[simp] theorem notifyEdge_parse (s : State) :
    (notifyEdge s).parse = s.parse := by unfold notifyEdge requestCycle; split <;> [split <;> rfl; rfl]
@[simp] theorem notifyEdge_block (s : State) :
    (notifyEdge s).block = s.block := by unfold notifyEdge requestCycle; split <;> [split <;> rfl; rfl]
@[simp] theorem notifyEdge_wstate (s : State) :
    (notifyEdge s).wstate = if s.sbArmed = true ∧ s.lstate = .up ∧ s.wstate = .idle then .pending else s.wstate := by
  unfold notifyEdge requestCycle; split <;> [split <;> simp_all; simp_all]
@[simp] theorem notifyEdge_phase (s : State) :
    (notifyEdge s).phase = s.phase := by unfold notifyEdge requestCycle; split <;> [split <;> rfl; rfl]
@[simp] theorem notifyEdge_hadData (s : State) :
    (notifyEdge s).hadData = s.hadData := by unfold notifyEdge requestCycle; split <;> [split <;> rfl; rfl]
@[simp] theorem notifyEdge_cbFired (s : State) :
    (notifyEdge s).cbFired = s.cbFired := by unfold notifyEdge requestCycle; split <;> [split <;> rfl; rfl]
@[simp] theorem notifyEdge_frameOut (s : State) :
    (notifyEdge s).frameOut = s.frameOut := by unfold notifyEdge requestCycle; split <;> [split <;> rfl; rfl]
@[simp] theorem notifyEdge_frameIn (s : State) :
    (notifyEdge s).frameIn = s.frameIn := by unfold notifyEdge requestCycle; split <;> [split <;> rfl; rfl]
@[simp] theorem notifyEdge_elapsed (s : State) :
    (notifyEdge s).elapsed = s.elapsed := by unfold notifyEdge requestCycle; split <;> [split <;> rfl; rfl]
@[simp] theorem notifyEdge_usage (s : State) :
    (notifyEdge s).usage = s.usage := by unfold notifyEdge requestCycle; split <;> [split <;> rfl; rfl]
@[simp] theorem notifyEdge_lastXfer (s : State) :
    (notifyEdge s).lastXfer = s.lastXfer := by unfold notifyEdge requestCycle; split <;> [split <;> rfl; rfl]
@[simp] theorem notifyEdge_ledDuration (s : State) :
    (notifyEdge s).ledDuration = s.ledDuration := by unfold notifyEdge requestCycle; split <;> [split <;> rfl; rfl]
@[simp] theorem notifyEdge_ledPending (s : State) :
    (notifyEdge s).ledPending = s.ledPending := by unfold notifyEdge requestCycle; split <;> [split <;> rfl; rfl]
@[simp] theorem notifyEdge_oq (s : State) :
    (notifyEdge s).oq = s.oq := by unfold notifyEdge requestCycle; split <;> [split <;> rfl; rfl]
@[simp] theorem notifyEdge_iq (s : State) :
    (notifyEdge s).iq = s.iq := by unfold notifyEdge requestCycle; split <;> [split <;> rfl; rfl]
@[simp] theorem notifyEdge_outActive (s : State) :
    (notifyEdge s).outActive = s.outActive := by unfold notifyEdge requestCycle; split <;> [split <;> rfl; rfl]
@[simp] theorem notifyEdge_inActive (s : State) :
    (notifyEdge s).inActive = s.inActive := by unfold notifyEdge requestCycle; split <;> [split <;> rfl; rfl]
@[simp] theorem notifyEdge_readyCb (s : State) :
    (notifyEdge s).readyCb = s.readyCb := by unfold notifyEdge requestCycle; split <;> [split <;> rfl; rfl]
@[simp] theorem notifyEdge_drainWait (s : State) :
    (notifyEdge s).drainWait = s.drainWait := by unfold notifyEdge requestCycle; split <;> [split <;> rfl; rfl]
@[simp] theorem notifyEdge_sbMeta (s : State) :
    (notifyEdge s).sbMeta = s.sbMeta := by unfold notifyEdge requestCycle; split <;> [split <;> rfl; rfl]
@[simp] theorem notifyEdge_sbLevel (s : State) :
    (notifyEdge s).sbLevel = s.sbLevel := by unfold notifyEdge requestCycle; split <;> [split <;> rfl; rfl]
@[simp] theorem notifyEdge_sbPrev (s : State) :
    (notifyEdge s).sbPrev = s.sbPrev := by unfold notifyEdge requestCycle; split <;> [split <;> rfl; rfl]
@[simp] theorem notifyEdge_sbArmed (s : State) :
    (notifyEdge s).sbArmed = s.sbArmed := by unfold notifyEdge requestCycle; split <;> [split <;> rfl; rfl]
@[simp] theorem notifyEdge_idSerial (s : State) :
    (notifyEdge s).idSerial = s.idSerial := by unfold notifyEdge requestCycle; split <;> [split <;> rfl; rfl]
@[simp] theorem notifyEdge_idUid (s : State) :
    (notifyEdge s).idUid = s.idUid := by unfold notifyEdge requestCycle; split <;> [split <;> rfl; rfl]
@[simp] theorem notifyEdge_idFw (s : State) :
    (notifyEdge s).idFw = s.idFw := by unfold notifyEdge requestCycle; split <;> [split <;> rfl; rfl]
@[simp] theorem notifyEdge_idHw (s : State) :
    (notifyEdge s).idHw = s.idHw := by unfold notifyEdge requestCycle; split <;> [split <;> rfl; rfl]
@[simp] theorem notifyEdge_idValid (s : State) :
    (notifyEdge s).idValid = s.idValid := by unfold notifyEdge requestCycle; split <;> [split <;> rfl; rfl]
@[simp] theorem notifyEdge_diagXferFaults (s : State) :
    (notifyEdge s).diagXferFaults = s.diagXferFaults := by unfold notifyEdge requestCycle; split <;> [split <;> rfl; rfl]
@[simp] theorem notifyEdge_diagInDrops (s : State) :
    (notifyEdge s).diagInDrops = s.diagInDrops := by unfold notifyEdge requestCycle; split <;> [split <;> rfl; rfl]
@[simp] theorem notifyEdge_now (s : State) :
    (notifyEdge s).now = s.now := by unfold notifyEdge requestCycle; split <;> [split <;> rfl; rfl]
@[simp] theorem notifyEdge_ocBuf (s : State) :
    (notifyEdge s).ocBuf = s.ocBuf := by unfold notifyEdge requestCycle; split <;> [split <;> rfl; rfl]
@[simp] theorem notifyEdge_peerPresent (s : State) :
    (notifyEdge s).peerPresent = s.peerPresent := by unfold notifyEdge requestCycle; split <;> [split <;> rfl; rfl]
@[simp] theorem notifyEdge_answers (s : State) :
    (notifyEdge s).answers = s.answers := by unfold notifyEdge requestCycle; split <;> [split <;> rfl; rfl]
@[simp] theorem notifyEdge_sched (s : State) :
    (notifyEdge s).sched = s.sched := by unfold notifyEdge requestCycle; split <;> [split <;> rfl; rfl]
@[simp] theorem notifyEdge_verdict (s : State) :
    (notifyEdge s).verdict = s.verdict := by unfold notifyEdge requestCycle; split <;> [split <;> rfl; rfl]
@[simp] theorem notifyEdge_result (s : State) :
    (notifyEdge s).result = s.result := by unfold notifyEdge requestCycle; split <;> [split <;> rfl; rfl]
@[simp] theorem notifyEdge_icReady (s : State) :
    (notifyEdge s).icReady = s.icReady := by unfold notifyEdge requestCycle; split <;> [split <;> rfl; rfl]
@[simp] theorem notifyEdge_ocAck (s : State) :
    (notifyEdge s).ocAck = s.ocAck := by unfold notifyEdge requestCycle; split <;> [split <;> rfl; rfl]
@[simp] theorem notifyEdge_linkTx (s : State) :
    (notifyEdge s).linkTx = s.linkTx := by unfold notifyEdge requestCycle; split <;> [split <;> rfl; rfl]
@[simp] theorem notifyEdge_linkCount (s : State) :
    (notifyEdge s).linkCount = s.linkCount := by unfold notifyEdge requestCycle; split <;> [split <;> rfl; rfl]
@[simp] theorem notifyEdge_marked (s : State) :
    (notifyEdge s).marked = s.marked := by unfold notifyEdge requestCycle; split <;> [split <;> rfl; rfl]
@[simp] theorem notifyEdge_params (s : State) :
    (notifyEdge s).params = s.params := by unfold notifyEdge requestCycle; split <;> [split <;> rfl; rfl]

@[simp] theorem publish_lstate (st : Staging) (s : State) :
    (publish st s).lstate = s.lstate := rfl
@[simp] theorem publish_linkBound (st : Staging) (s : State) :
    (publish st s).linkBound = s.linkBound := rfl
@[simp] theorem publish_parse (st : Staging) (s : State) :
    (publish st s).parse = s.parse := rfl
@[simp] theorem publish_block (st : Staging) (s : State) :
    (publish st s).block = s.block := rfl
@[simp] theorem publish_wstate (st : Staging) (s : State) :
    (publish st s).wstate = s.wstate := rfl
@[simp] theorem publish_phase (st : Staging) (s : State) :
    (publish st s).phase = s.phase := rfl
@[simp] theorem publish_hadData (st : Staging) (s : State) :
    (publish st s).hadData = s.hadData := rfl
@[simp] theorem publish_cbFired (st : Staging) (s : State) :
    (publish st s).cbFired = s.cbFired := rfl
@[simp] theorem publish_frameOut (st : Staging) (s : State) :
    (publish st s).frameOut = s.frameOut := rfl
@[simp] theorem publish_frameIn (st : Staging) (s : State) :
    (publish st s).frameIn = s.frameIn := rfl
@[simp] theorem publish_elapsed (st : Staging) (s : State) :
    (publish st s).elapsed = s.elapsed := rfl
@[simp] theorem publish_usage (st : Staging) (s : State) :
    (publish st s).usage = s.usage := rfl
@[simp] theorem publish_lastXfer (st : Staging) (s : State) :
    (publish st s).lastXfer = s.lastXfer := rfl
@[simp] theorem publish_ledDuration (st : Staging) (s : State) :
    (publish st s).ledDuration = s.ledDuration := rfl
@[simp] theorem publish_ledPending (st : Staging) (s : State) :
    (publish st s).ledPending = s.ledPending := rfl
@[simp] theorem publish_oq (st : Staging) (s : State) :
    (publish st s).oq = s.oq := rfl
@[simp] theorem publish_iq (st : Staging) (s : State) :
    (publish st s).iq = s.iq := rfl
@[simp] theorem publish_outActive (st : Staging) (s : State) :
    (publish st s).outActive = s.outActive := rfl
@[simp] theorem publish_inActive (st : Staging) (s : State) :
    (publish st s).inActive = s.inActive := rfl
@[simp] theorem publish_readyCb (st : Staging) (s : State) :
    (publish st s).readyCb = s.readyCb := rfl
@[simp] theorem publish_drainWait (st : Staging) (s : State) :
    (publish st s).drainWait = s.drainWait := rfl
@[simp] theorem publish_sbMeta (st : Staging) (s : State) :
    (publish st s).sbMeta = s.sbMeta := rfl
@[simp] theorem publish_sbLevel (st : Staging) (s : State) :
    (publish st s).sbLevel = s.sbLevel := rfl
@[simp] theorem publish_sbPrev (st : Staging) (s : State) :
    (publish st s).sbPrev = s.sbPrev := rfl
@[simp] theorem publish_sbArmed (st : Staging) (s : State) :
    (publish st s).sbArmed = s.sbArmed := rfl
@[simp] theorem publish_idSerial (st : Staging) (s : State) :
    (publish st s).idSerial = st.serial := rfl
@[simp] theorem publish_idUid (st : Staging) (s : State) :
    (publish st s).idUid = st.uid := rfl
@[simp] theorem publish_idFw (st : Staging) (s : State) :
    (publish st s).idFw = st.fw := rfl
@[simp] theorem publish_idHw (st : Staging) (s : State) :
    (publish st s).idHw = st.hw := rfl
@[simp] theorem publish_idValid (st : Staging) (s : State) :
    (publish st s).idValid = true := rfl
@[simp] theorem publish_diagXferFaults (st : Staging) (s : State) :
    (publish st s).diagXferFaults = s.diagXferFaults := rfl
@[simp] theorem publish_diagInDrops (st : Staging) (s : State) :
    (publish st s).diagInDrops = s.diagInDrops := rfl
@[simp] theorem publish_now (st : Staging) (s : State) :
    (publish st s).now = s.now := rfl
@[simp] theorem publish_ocBuf (st : Staging) (s : State) :
    (publish st s).ocBuf = s.ocBuf := rfl
@[simp] theorem publish_peerPresent (st : Staging) (s : State) :
    (publish st s).peerPresent = s.peerPresent := rfl
@[simp] theorem publish_answers (st : Staging) (s : State) :
    (publish st s).answers = s.answers := rfl
@[simp] theorem publish_sched (st : Staging) (s : State) :
    (publish st s).sched = s.sched := rfl
@[simp] theorem publish_verdict (st : Staging) (s : State) :
    (publish st s).verdict = s.verdict := rfl
@[simp] theorem publish_result (st : Staging) (s : State) :
    (publish st s).result = s.result := rfl
@[simp] theorem publish_icReady (st : Staging) (s : State) :
    (publish st s).icReady = s.icReady := rfl
@[simp] theorem publish_ocAck (st : Staging) (s : State) :
    (publish st s).ocAck = s.ocAck := rfl
@[simp] theorem publish_linkTx (st : Staging) (s : State) :
    (publish st s).linkTx = s.linkTx := rfl
@[simp] theorem publish_linkCount (st : Staging) (s : State) :
    (publish st s).linkCount = s.linkCount := rfl
@[simp] theorem publish_marked (st : Staging) (s : State) :
    (publish st s).marked = s.marked := rfl
@[simp] theorem publish_params (st : Staging) (s : State) :
    (publish st s).params = s.params := rfl

@[simp] theorem clearIdentity_lstate (s : State) :
    (clearIdentity s).lstate = s.lstate := rfl
@[simp] theorem clearIdentity_linkBound (s : State) :
    (clearIdentity s).linkBound = s.linkBound := rfl
@[simp] theorem clearIdentity_parse (s : State) :
    (clearIdentity s).parse = s.parse := rfl
@[simp] theorem clearIdentity_block (s : State) :
    (clearIdentity s).block = s.block := rfl
@[simp] theorem clearIdentity_wstate (s : State) :
    (clearIdentity s).wstate = s.wstate := rfl
@[simp] theorem clearIdentity_phase (s : State) :
    (clearIdentity s).phase = s.phase := rfl
@[simp] theorem clearIdentity_hadData (s : State) :
    (clearIdentity s).hadData = s.hadData := rfl
@[simp] theorem clearIdentity_cbFired (s : State) :
    (clearIdentity s).cbFired = s.cbFired := rfl
@[simp] theorem clearIdentity_frameOut (s : State) :
    (clearIdentity s).frameOut = s.frameOut := rfl
@[simp] theorem clearIdentity_frameIn (s : State) :
    (clearIdentity s).frameIn = s.frameIn := rfl
@[simp] theorem clearIdentity_elapsed (s : State) :
    (clearIdentity s).elapsed = s.elapsed := rfl
@[simp] theorem clearIdentity_usage (s : State) :
    (clearIdentity s).usage = s.usage := rfl
@[simp] theorem clearIdentity_lastXfer (s : State) :
    (clearIdentity s).lastXfer = s.lastXfer := rfl
@[simp] theorem clearIdentity_ledDuration (s : State) :
    (clearIdentity s).ledDuration = s.ledDuration := rfl
@[simp] theorem clearIdentity_ledPending (s : State) :
    (clearIdentity s).ledPending = s.ledPending := rfl
@[simp] theorem clearIdentity_oq (s : State) :
    (clearIdentity s).oq = s.oq := rfl
@[simp] theorem clearIdentity_iq (s : State) :
    (clearIdentity s).iq = s.iq := rfl
@[simp] theorem clearIdentity_outActive (s : State) :
    (clearIdentity s).outActive = s.outActive := rfl
@[simp] theorem clearIdentity_inActive (s : State) :
    (clearIdentity s).inActive = s.inActive := rfl
@[simp] theorem clearIdentity_readyCb (s : State) :
    (clearIdentity s).readyCb = s.readyCb := rfl
@[simp] theorem clearIdentity_drainWait (s : State) :
    (clearIdentity s).drainWait = s.drainWait := rfl
@[simp] theorem clearIdentity_sbMeta (s : State) :
    (clearIdentity s).sbMeta = s.sbMeta := rfl
@[simp] theorem clearIdentity_sbLevel (s : State) :
    (clearIdentity s).sbLevel = s.sbLevel := rfl
@[simp] theorem clearIdentity_sbPrev (s : State) :
    (clearIdentity s).sbPrev = s.sbPrev := rfl
@[simp] theorem clearIdentity_sbArmed (s : State) :
    (clearIdentity s).sbArmed = s.sbArmed := rfl
@[simp] theorem clearIdentity_idSerial (s : State) :
    (clearIdentity s).idSerial = [] := rfl
@[simp] theorem clearIdentity_idUid (s : State) :
    (clearIdentity s).idUid = [] := rfl
@[simp] theorem clearIdentity_idFw (s : State) :
    (clearIdentity s).idFw = [] := rfl
@[simp] theorem clearIdentity_idHw (s : State) :
    (clearIdentity s).idHw = Config.hwverDefault := rfl
@[simp] theorem clearIdentity_idValid (s : State) :
    (clearIdentity s).idValid = false := rfl
@[simp] theorem clearIdentity_diagXferFaults (s : State) :
    (clearIdentity s).diagXferFaults = s.diagXferFaults := rfl
@[simp] theorem clearIdentity_diagInDrops (s : State) :
    (clearIdentity s).diagInDrops = s.diagInDrops := rfl
@[simp] theorem clearIdentity_now (s : State) :
    (clearIdentity s).now = s.now := rfl
@[simp] theorem clearIdentity_ocBuf (s : State) :
    (clearIdentity s).ocBuf = s.ocBuf := rfl
@[simp] theorem clearIdentity_peerPresent (s : State) :
    (clearIdentity s).peerPresent = s.peerPresent := rfl
@[simp] theorem clearIdentity_answers (s : State) :
    (clearIdentity s).answers = s.answers := rfl
@[simp] theorem clearIdentity_sched (s : State) :
    (clearIdentity s).sched = s.sched := rfl
@[simp] theorem clearIdentity_verdict (s : State) :
    (clearIdentity s).verdict = s.verdict := rfl
@[simp] theorem clearIdentity_result (s : State) :
    (clearIdentity s).result = s.result := rfl
@[simp] theorem clearIdentity_icReady (s : State) :
    (clearIdentity s).icReady = s.icReady := rfl
@[simp] theorem clearIdentity_ocAck (s : State) :
    (clearIdentity s).ocAck = s.ocAck := rfl
@[simp] theorem clearIdentity_linkTx (s : State) :
    (clearIdentity s).linkTx = s.linkTx := rfl
@[simp] theorem clearIdentity_linkCount (s : State) :
    (clearIdentity s).linkCount = s.linkCount := rfl
@[simp] theorem clearIdentity_marked (s : State) :
    (clearIdentity s).marked = s.marked := rfl
@[simp] theorem clearIdentity_params (s : State) :
    (clearIdentity s).params = s.params := rfl

end Sys2Proof.Machine
end

