-- ==== Sys2Proof/Laws/Memory.lean ====
section
/-! SUPPORT. The byte store: read after write, writes elsewhere, and the canonical form that every write keeps. -/

namespace Sys2Proof.Machine

theorem memGet_memSet (m : Memory) (a i : Nat) (v : Byte) (lo : Nat) (h : memWfFrom lo m = true) :
    memGet (memSet m a v) i = if i = a then v else memGet m i := by
  induction m generalizing lo with
  | nil =>
    by_cases hv : v = unlistedByte <;> by_cases hi : i = a <;> simp [memSet, memGet, hv, hi, Ne.symm]
  | cons p m ih =>
    obtain ⟨x, b⟩ := p
    simp only [memWfFrom, Bool.and_eq_true, decide_eq_true_eq] at h
    have below : ∀ j, j ≤ x → memGet m j = unlistedByte := by
      have aux : ∀ (m : Memory) (lo : Nat), memWfFrom lo m = true → ∀ j, j < lo → memGet m j = unlistedByte := by
        intro m
        induction m with
        | nil => intros; rfl
        | cons q m ih =>
          obtain ⟨y, c⟩ := q
          intro lo hm j hj
          simp only [memWfFrom, Bool.and_eq_true, decide_eq_true_eq] at hm
          have : y ≠ j := by omega
          simp [memGet, this, ih (y + 1) hm.2 j (by omega)]
      intro j hj
      exact aux m (x + 1) h.2 j (by omega)
    simp only [memSet]
    by_cases hxa : x = a
    · subst hxa
      by_cases hv : v = unlistedByte
      · simp only [if_true, hv]
        by_cases hi : i = x
        · subst hi; simp [below i (Nat.le_refl i)]
        · simp [memGet, hi, Ne.symm hi]
      · simp only [if_true, hv, if_false]
        by_cases hi : i = x
        · simp [memGet, hi]
        · simp [memGet, hi, Ne.symm hi]
    · simp only [hxa, if_false]
      by_cases hlt : a < x
      · simp only [hlt, if_true]
        by_cases hv : v = unlistedByte
        · simp only [hv, if_true]
          by_cases hi : i = a
          · subst hi; simp [memGet, hxa, below i (by omega)]
          · simp [hi]
        · simp only [hv, if_false]
          by_cases hi : i = a
          · simp [memGet, hi]
          · simp [memGet, hi, Ne.symm hi]
      · simp only [hlt, if_false]
        by_cases hi : x = i
        · subst hi; simp [memGet, hxa]
        · simp [memGet, hi, ih (x + 1) h.2]

theorem memSet_wfFrom (m : Memory) (a : Nat) (v : Byte) (lo : Nat) (h : memWfFrom lo m = true)
    (hlo : lo ≤ a) (ha : a < Config.qDepth) : memWfFrom lo (memSet m a v) = true := by
  induction m generalizing lo with
  | nil =>
    simp only [memSet]
    split <;> simp_all [memWfFrom]
  | cons p m ih =>
    obtain ⟨x, b⟩ := p
    simp only [memWfFrom, Bool.and_eq_true, decide_eq_true_eq] at h
    have widen : ∀ (m : Memory) (lo lo' : Nat), lo' ≤ lo → memWfFrom lo m = true → memWfFrom lo' m = true := by
      intro m lo lo' hl hm
      cases m with
      | nil => rfl
      | cons q m =>
        obtain ⟨y, c⟩ := q
        simp only [memWfFrom, Bool.and_eq_true, decide_eq_true_eq] at hm ⊢
        exact ⟨⟨⟨by omega, hm.1.1.2⟩, hm.1.2⟩, hm.2⟩
    simp only [memSet]
    split
    · split
      · exact widen m (x + 1) lo (by omega) h.2
      · simp_all [memWfFrom]
    · split
      · split
        · simp [memWfFrom, h]
        · simp only [memWfFrom, Bool.and_eq_true, decide_eq_true_eq]
          refine ⟨⟨⟨hlo, ha⟩, by simpa using ‹¬v = unlistedByte›⟩, ⟨⟨⟨by omega, h.1.1.2⟩, h.1.2⟩, h.2⟩⟩
      · simp only [memWfFrom, Bool.and_eq_true, decide_eq_true_eq]
        exact ⟨h.1, ih (x + 1) h.2 (by omega)⟩

/-- A read after a write to the same index gives the value written (R62). -/
theorem memGet_memSet_same (m : Memory) (a : Nat) (v : Byte) (h : m.wf = true) : memGet (memSet m a v) a = v := by
  simp [memGet_memSet m a a v 0 h]

/-- A write leaves every other index alone (R62). -/
theorem memGet_memSet_other (m : Memory) (a i : Nat) (v : Byte) (h : m.wf = true) (hi : i ≠ a) :
    memGet (memSet m a v) i = memGet m i := by
  simp [memGet_memSet m a i v 0 h, hi]

/-- Every write keeps the canonical form. -/
theorem memSet_wf (m : Memory) (a : Nat) (v : Byte) (h : m.wf = true) (ha : a < Config.qDepth) :
    Memory.wf (memSet m a v) = true :=
  memSet_wfFrom m a v 0 h (Nat.zero_le a) ha

/-- The store of an empty ring has the canonical form. -/
theorem empty_wf : Ring.empty.mem.wf = true := rfl

end Sys2Proof.Machine
end

