-- ==== Sys2Proof/Laws/Rings.lean ====
section
/-! SUPPORT. The register realisation of a ring refines the list the rules are stated on (R33 to R35, R66): push appends, pop takes
the head, drain takes all, and each keeps the registers in agreement. -/

namespace Sys2Proof.Machine

theorem toNat_one12 : (1 : BitVec 12).toNat = 1 := rfl

/-- The three clauses of `Ring.ok`. -/
theorem ring_ok_iff (r : Ring) :
    r.ok = true ↔ r.count ≤ 4096 ∧ r.wr = r.rd + BitVec.ofNat 12 r.count ∧ r.mem.wf = true := by
  rw [show (4096 : Nat) = Config.qDepth from rfl]
  simp only [Ring.ok, Bool.and_eq_true, decide_eq_true_eq, beq_iff_eq, and_assoc]

theorem ringList_length (r : Ring) : (ringList r).length = r.count := by simp [ringList, ringRead]

theorem ring_empty_ok : Ring.empty.ok = true := by decide

@[simp] theorem ringList_empty : ringList Ring.empty = [] := rfl

/-- The place a push writes is none of the places the ring holds. -/
theorem wr_is_free (r : Ring) (h : r.ok = true) (hc : r.count < 4096) (k : Nat) (hk : k < r.count) :
    (r.rd.toNat + k) % 4096 ≠ r.wr.toNat := by
  obtain ⟨_, hw, _⟩ := (ring_ok_iff r).1 h
  have := r.rd.isLt
  rw [hw, BitVec.toNat_add, BitVec.toNat_ofNat]
  omega

/-- A push onto a ring that is not full appends the byte (R66, R206, R208); it changes neither the read index nor the bytes held. -/
theorem ringPush_spec (r : Ring) (b : Byte) (h : r.ok = true) (hc : r.count < 4096) :
    ∃ q, ringPush r b = some q ∧ q.ok = true ∧ ringList q = ringList r ++ [b] ∧ q.count = r.count + 1 ∧ q.rd = r.rd := by
  obtain ⟨_, hw, hm⟩ := (ring_ok_iff r).1 h
  have hlt := r.rd.isLt
  have hwl := r.wr.isLt
  have hmod : r.wr.toNat % 4096 = r.wr.toNat := Nat.mod_eq_of_lt hwl
  refine ⟨{ ringWrite r r.wr.toNat b with wr := r.wr + 1, count := r.count + 1 }, ?_, ?_, ?_, rfl, rfl⟩
  · rw [ringPush, if_neg (by simp [Config.qDepth]; omega)]
  · rw [ring_ok_iff]
    refine ⟨by simp; omega, ?_, ?_⟩
    · simp only [ringWrite]
      rw [hw]
      apply BitVec.eq_of_toNat_eq
      simp only [BitVec.toNat_add, BitVec.toNat_ofNat, toNat_one12]
      omega
    · simp only [ringWrite, Config.qDepth, hmod]
      exact memSet_wf r.mem r.wr.toNat b hm hwl
  · simp only [ringList, ringRead, ringWrite, Config.qDepth, hmod, List.range_succ, List.map_append, List.map_cons, List.map_nil]
    congr 1
    · apply List.map_congr_left
      intro k hk
      exact memGet_memSet_other _ _ _ _ hm (wr_is_free r h hc k (List.mem_range.1 hk))
    · have : (r.rd.toNat + r.count) % 4096 = r.wr.toNat := by
        rw [hw, BitVec.toNat_add, BitVec.toNat_ofNat]; omega
      rw [this, memGet_memSet_same _ _ _ hm]

/-- A push onto a full ring is not accepted (R206). -/
theorem ringPush_full (r : Ring) (b : Byte) (h : 4096 ≤ r.count) : ringPush r b = none := by
  simp [ringPush, Config.qDepth, h]

theorem ringPush_none (r : Ring) (b : Byte) (h : ringPush r b = none) : 4096 ≤ r.count := by
  by_contra hc
  rw [ringPush, if_neg (by simp [Config.qDepth]; omega)] at h
  cases h

/-- Everything a push can do. -/
theorem ringPush_cases (r : Ring) (b : Byte) (h : r.ok = true) :
    (ringPush r b = none ∧ r.count = 4096) ∨
    ∃ q, ringPush r b = some q ∧ q.ok = true ∧ ringList q = ringList r ++ [b] ∧ q.count = r.count + 1 ∧ q.rd = r.rd := by
  have hc := ((ring_ok_iff r).1 h).1
  by_cases hf : r.count = 4096
  · exact .inl ⟨ringPush_full r b (by omega), hf⟩
  · exact .inr (ringPush_spec r b h (by omega))

/-- A pop from a ring that is not empty gives the head and leaves the tail (R66, R209). -/
theorem ringPop_spec (r : Ring) (h : r.ok = true) (hc : r.count ≠ 0) :
    ∃ b q, ringPop r = some (b, q) ∧ q.ok = true ∧ ringList r = b :: ringList q ∧ q.count = r.count - 1 ∧ q.mem = r.mem := by
  obtain ⟨hle, hw, hm⟩ := (ring_ok_iff r).1 h
  have hlt := r.rd.isLt
  refine ⟨memGet r.mem r.rd.toNat, { r with rd := r.rd + 1, count := r.count - 1 }, by simp [ringPop, hc], ?_, ?_, rfl, rfl⟩
  · rw [ring_ok_iff]
    refine ⟨by simp; omega, ?_, hm⟩
    simp only
    rw [hw]
    apply BitVec.eq_of_toNat_eq
    simp only [BitVec.toNat_add, BitVec.toNat_ofNat, toNat_one12]
    omega
  · obtain ⟨n, hn⟩ : ∃ n, r.count = n + 1 := ⟨r.count - 1, by omega⟩
    simp only [ringList, ringRead, Config.qDepth, hn, List.range_succ_eq_map, List.map_cons, List.map_map, Nat.add_sub_cancel,
      Nat.add_zero, Nat.mod_eq_of_lt hlt]
    congr 1
    apply List.map_congr_left
    intro k _
    simp only [Function.comp, BitVec.toNat_add, toNat_one12]
    congr 1
    omega

/-- A pop from an empty ring changes nothing (R206). -/
theorem ringPop_empty (r : Ring) (h : r.count = 0) : ringPop r = none := by simp [ringPop, h]

/-- Everything a pop can do. -/
theorem ringPop_cases (r : Ring) (h : r.ok = true) :
    (ringPop r = none ∧ r.count = 0) ∨
    ∃ b q, ringPop r = some (b, q) ∧ q.ok = true ∧ ringList r = b :: ringList q ∧ q.count = r.count - 1 ∧ q.mem = r.mem := by
  by_cases hc : r.count = 0
  · exact .inl ⟨ringPop_empty r hc, hc⟩
  · exact .inr (ringPop_spec r h hc)

/-- A drain leaves the ring empty, its registers in agreement (R66, R219). -/
theorem ringDrain_spec (r : Ring) (h : r.ok = true) :
    (ringDrain r).ok = true ∧ ringList (ringDrain r) = [] ∧ (ringDrain r).count = 0 ∧ (ringDrain r).wr = r.wr := by
  obtain ⟨_, hw, hm⟩ := (ring_ok_iff r).1 h
  refine ⟨?_, rfl, rfl, rfl⟩
  rw [ring_ok_iff]
  simp [ringDrain, hw, hm]

/-- Pushing a list in order: the bytes accepted are its first ones, in order, and the rest are those that do not fit (R215). -/
theorem ringPushAll_spec (bs : List Byte) (r : Ring) (h : r.ok = true) :
    (ringPushAll bs r).2.ok = true ∧ (ringPushAll bs r).1 = min bs.length (4096 - r.count) ∧
    ringList (ringPushAll bs r).2 = ringList r ++ bs.take (ringPushAll bs r).1 ∧
    (ringPushAll bs r).2.count = r.count + (ringPushAll bs r).1 := by
  induction bs generalizing r with
  | nil => simp [ringPushAll, h]
  | cons b bs ih =>
    have hle := ((ring_ok_iff r).1 h).1
    rcases ringPush_cases r b h with ⟨hp, hc⟩ | ⟨q, hp, hq, hl, hc, _⟩
    · simp [ringPushAll, hp, h, hc]
    · obtain ⟨i1, i2, i3, i4⟩ := ih q hq
      have hq' := ((ring_ok_iff q).1 hq).1
      simp only [ringPushAll, hp]
      refine ⟨i1, ?_, ?_, ?_⟩
      · simp only [List.length_cons]; omega
      · simp [i3, hl]
      · simp only [i4, hc]; omega

/-- With room for all of them every byte is accepted (R146). -/
theorem ringPushAll_fits (bs : List Byte) (r : Ring) (h : r.ok = true) (hf : bs.length ≤ 4096 - r.count) :
    (ringPushAll bs r).1 = bs.length ∧ ringList (ringPushAll bs r).2 = ringList r ++ bs := by
  obtain ⟨_, h2, h3, _⟩ := ringPushAll_spec bs r h
  have : (ringPushAll bs r).1 = bs.length := by omega
  exact ⟨this, by rw [h3, this, List.take_length]⟩

/-- A push, with the places it leaves alone (R62, R66). -/
theorem ringPush_gained (r q : Ring) (b : Byte) (h : r.ok = true) (hp : ringPush r b = some q) : RingGained r [b] q := by
  have hc : r.count < 4096 := by
    by_contra hge
    rw [ringPush_full r b (by omega)] at hp
    cases hp
  obtain ⟨q', hp', hq, hl, hcount, hrd⟩ := ringPush_spec r b h hc
  obtain rfl : q' = q := by rw [hp'] at hp; exact Option.some.inj hp
  refine ⟨hq, hl, hcount, hrd, ?_, ?_⟩
  · rw [ringPush, if_neg (by simp [Config.qDepth]; omega)] at hp
    rw [← Option.some.inj hp]
    rfl
  · intro a ha
    have hne : a ≠ r.wr.toNat % 4096 := by simpa using ha 0 (by simp)
    rw [ringPush, if_neg (by simp [Config.qDepth]; omega)] at hp
    rw [← Option.some.inj hp]
    exact memGet_memSet_other _ _ _ _ ((ring_ok_iff r).1 h).2.2 hne

/-- Nothing appended. -/
theorem ringGained_nil (r : Ring) (h : r.ok = true) : RingGained r [] r :=
  ⟨h, by simp, by simp, rfl, by simp, fun _ _ => rfl⟩

/-- Appending two runs of bytes, one after the other. -/
theorem RingGained.trans {r q p : Ring} {bs cs : List Byte} (h : RingGained r bs q) (k : RingGained q cs p) :
    RingGained r (bs ++ cs) p := by
  refine ⟨k.ok, by rw [k.list, h.list, List.append_assoc], by rw [k.count, h.count, List.length_append]; omega,
    k.rd.trans h.rd, ?_, ?_⟩
  · rw [k.wr, h.wr, List.length_append]
    apply BitVec.eq_of_toNat_eq
    simp only [BitVec.toNat_add, BitVec.toNat_ofNat]
    omega
  · intro a ha
    rw [k.elsewhere, h.elsewhere]
    · intro i hi
      exact ha i (by rw [List.length_append]; omega)
    · intro i hi
      have := ha (bs.length + i) (by rw [List.length_append]; omega)
      have hw : q.wr.toNat = (r.wr.toNat + bs.length) % 4096 := by
        rw [h.wr]; simp only [BitVec.toNat_add, BitVec.toNat_ofNat]; omega
      rw [hw]
      omega

/-- Pushing a list, with the places it leaves alone (R215). -/
theorem ringPushAll_gained (bs : List Byte) (r : Ring) (h : r.ok = true) :
    RingGained r (bs.take (ringPushAll bs r).1) (ringPushAll bs r).2 := by
  induction bs generalizing r with
  | nil => simpa [ringPushAll] using ringGained_nil r h
  | cons b bs ih =>
    simp only [ringPushAll]
    split
    · simpa using ringGained_nil r h
    · rename_i q hp
      exact (ringPush_gained r q b h hp).trans (ih q (ringPush_gained r q b h hp).ok)

/-- A pop, with every place of the store unchanged (R66). -/
theorem ringPop_lost (r q : Ring) (b : Byte) (h : r.ok = true) (hp : ringPop r = some (b, q)) : RingLost r b q := by
  have hc : r.count ≠ 0 := by
    intro h0
    rw [ringPop_empty r h0] at hp
    cases hp
  obtain ⟨b', q', hp', hq, hl, hcount, hmem⟩ := ringPop_spec r h hc
  obtain ⟨rfl, rfl⟩ : b' = b ∧ q' = q := by
    rw [hp'] at hp
    simpa using hp
  refine ⟨hq, hl, by omega, ?_, ?_, fun a => by rw [hmem]⟩
  · rw [ringPop, if_neg hc] at hp
    rw [← (Prod.mk.inj (Option.some.inj hp)).2]
  · rw [ringPop, if_neg hc] at hp
    rw [← (Prod.mk.inj (Option.some.inj hp)).2]

end Sys2Proof.Machine
end

