-- ==== Sys2Proof/Laws/Ops.lean ====
section
/-! SUPPORT. For each shared operation, one lemma that says once everything it can do. -/

namespace Sys2Proof.Machine

/-! ### Flags -/

@[simp] theorem enabledAt_iff (p : Phase) (s : State) : enabledAt p s = true ↔ s.wstate = .running ∧ s.phase = p := by
  simp [enabledAt]

@[simp] theorem linkAlive_iff (s : State) : linkAlive s = true ↔ s.lstate = .up ∨ s.lstate = .shutdown := by
  simp [linkAlive]

@[simp] theorem gateOpen_iff (s : State) : gateOpen s = true ↔ s.usage < 126000 := by
  have : (s.usage + 1000 < 127000) ↔ s.usage < 126000 := by omega
  simp [gateOpen, Config.cost, Config.ceiling, this]

@[simp] theorem oqEmpty_iff (s : State) : oqEmpty s = true ↔ s.oq.count = 0 := by simp [oqEmpty]

@[simp] theorem iqEmpty_iff (s : State) : iqEmpty s = true ↔ s.iq.count = 0 := by simp [iqEmpty]

theorem crossesWatermark_iff (a b : Nat) : crossesWatermark a b = true ↔ a ≤ 16 ∧ 16 < b := by
  rw [crossesWatermark, Bool.and_eq_true, decide_eq_true_eq, decide_eq_true_eq, Config.watermark]

@[simp] theorem hasRoom_iff (s : State) : hasRoom s = true ↔ s.params.peekMax ≤ 4096 - s.oq.count := by
  rw [hasRoom, decide_eq_true_eq, Config.qDepth]

theorem canSendFlag_iff (s : State) : canSendFlag s = true ↔ s.usage < 126000 ∨ s.ledPending = true := by
  rw [canSendFlag, Bool.or_eq_true, gateOpen_iff]

/-- The contract of `ON_SENT` (R193). -/
theorem sentGuard_iff (s : State) : sentGuard s = true ↔
    (s.lstate = .up ∨ s.lstate = .shutdown) ∧ s.usage < 126000 ∧ s.ledPending = false := by
  simp [sentGuard, -linkAlive_iff, -gateOpen_iff, and_assoc]
  rw [linkAlive_iff, gateOpen_iff]

/-- The continuation test is the disjunction of its five terms (R153). -/
theorem moreWork_iff (s : State) : moreWork s = true ↔
    s.hadData = true ∨ s.oq.count ≠ 0 ∨ s.sbLevel = true ∨ s.ledPending = true ∨ s.usage ≠ 0 := by
  simp [moreWork, oqEmpty, levelFlag, or_assoc]

@[simp] theorem workerRuns_iff (s : State) : workerRuns s = true ↔ s.wstate = .running := by simp [workerRuns]

@[simp] theorem linkTaken_iff (s : State) : linkTaken s = true ↔ s.parse ≠ .idle ∨ s.block.isSome = true := by
  simp [linkTaken]

@[simp] theorem queueOpen_iff (s : State) :
    queueOpen s = true ↔ (s.lstate = .up ∨ s.lstate = .shutdown) ∧ s.wstate ≠ .running := by
  simp [queueOpen, workerRuns]

/-- Where a slot is being composed (R147). -/
theorem composingSlot_iff (s : State) (k : SlotIx) :
    composingSlot s = some k ↔ s.wstate = .running ∧ s.phase = composePhase k := by
  cases k <;> cases hw : s.wstate <;> cases hp : s.phase <;> simp [composingSlot, enabledAt, composePhase, hw, hp]

/-- Where a slot is being delivered (R151). -/
theorem deliveringSlot_iff (s : State) (k : SlotIx) :
    deliveringSlot s = some k ↔ s.wstate = .running ∧ s.phase = deliverPhase k := by
  cases k <;> cases hw : s.wstate <;> cases hp : s.phase <;> simp [deliveringSlot, enabledAt, deliverPhase, hw, hp]

/-- A caller is held in `OUT_DRAIN`, in `LINK_UP` or in `LINK_DOWN` (R39, R286, R292). -/
theorem callerHeld_iff (s : State) :
    callerHeld s = true ↔ s.drainWait = true ∨ s.lstate = .bringup ∨ s.lstate = .shutdown := by
  simp [callerHeld, or_assoc]

/-! ### The constants of R6 that the types fix -/

/-- A frame is `FRAME_BYTES` bytes on the link (R6, R91). -/
theorem frameBytes_length (f : Frame) : (frameBytes f).length = Config.frameBytes := rfl

/-- A frame has `SLOTS` slots of `SLOT_BYTES` bytes, in slot order (R6, R91). -/
theorem frameBytes_slots (f : Frame) :
    frameBytes f = [SlotIx.slot0, .slot1].flatMap (fun k => [(frameSlot f k).tag, (frameSlot f k).value]) ∧
      [SlotIx.slot0, .slot1].length = Config.slots ∧
      ∀ k, [(frameSlot f k).tag, (frameSlot f k).value].length = Config.slotBytes :=
  ⟨rfl, rfl, fun _ => rfl⟩

/-! ### The request latch -/

/-- Everything a cycle request can do (R141). -/
theorem requestCycle_cases (s : State) :
    (s.lstate = .up ∧ s.wstate = .idle ∧ requestCycle s = { s with wstate := .pending }) ∨ requestCycle s = s := by
  unfold requestCycle
  split
  · exact .inl ⟨(‹_ ∧ _›).1, (‹_ ∧ _›).2, rfl⟩
  · exact .inr rfl

/-- A cycle request in `UP` (R141). -/
theorem requestCycle_up (s : State) (h : s.lstate = .up) : requestCycle s = { s with wstate := requested s.wstate } := by
  by_cases hw : s.wstate = .idle
  · rw [requestCycle, if_pos ⟨h, hw⟩, hw]; rfl
  · have hr : requested s.wstate = s.wstate := by cases hs : s.wstate <;> simp_all [requested]
    rw [requestCycle, if_neg (fun x => hw x.2), hr]

/-- A cycle request in any other lifecycle state is a no-op (R141, R318). -/
theorem requestCycle_elsewhere (s : State) (h : s.lstate ≠ .up) : requestCycle s = s := by
  rw [requestCycle, if_neg (fun x => h x.1)]

/-- A refused operation leaves the state with its status and the mark alone changed (R10, R307). -/
theorem refuse_eq (s : State) : s.refuse = turnedAway s := rfl

/-- Everything the edge notification can do (R254). -/
theorem notifyEdge_cases (s : State) :
    (s.sbArmed = true ∧ s.lstate = .up ∧ s.wstate = .idle ∧ notifyEdge s = { s with wstate := .pending }) ∨ notifyEdge s = s := by
  unfold notifyEdge
  split
  · rcases requestCycle_cases s with ⟨h1, h2, h3⟩ | h
    · exact .inl ⟨‹_›, h1, h2, h3⟩
    · exact .inr h
  · exact .inr rfl

/-- Everything one sample can do (R252). -/
theorem sampleLine_cases (v : Bool) (s : State) :
    (s.sbArmed = true ∧ s.sbLevel = false ∧ s.sbMeta = true ∧ s.lstate = .up ∧ s.wstate = .idle ∧
      sampleLine v s = { s with sbPrev := s.sbLevel, sbLevel := s.sbMeta, sbMeta := v, wstate := .pending }) ∨
    sampleLine v s = { s with sbPrev := s.sbLevel, sbLevel := s.sbMeta, sbMeta := v } := by
  unfold sampleLine
  simp only
  split
  · rename_i h
    simp only [Bool.and_eq_true, Bool.not_eq_true'] at h
    rcases notifyEdge_cases { s with sbPrev := s.sbLevel, sbLevel := s.sbMeta, sbMeta := v } with ⟨_, h2, h3, h4⟩ | h'
    · exact .inl ⟨h.1.1, h.1.2, h.2, h2, h3, h4⟩
    · exact .inr h'
  · exact .inr rfl

/-! ### The link -/

/-- `t` is `s` but for the link's own bookkeeping: the answers used, the exchanges counted, the bytes last sent and the faults
counted. Every exchange changes this and nothing else. -/
structure OnlyLink (s t : State) : Prop where
  eq : t = { s with answers := t.answers, linkCount := t.linkCount, linkTx := t.linkTx, diagXferFaults := t.diagXferFaults }
  count : s.linkCount ≤ t.linkCount
  faults : s.diagXferFaults ≤ t.diagXferFaults

theorem OnlyLink.refl (s : State) : OnlyLink s s := ⟨rfl, Nat.le_refl _, Nat.le_refl _⟩

theorem OnlyLink.trans {s t u : State} (h : OnlyLink s t) (k : OnlyLink t u) : OnlyLink s u := by
  refine ⟨?_, Nat.le_trans h.count k.count, Nat.le_trans h.faults k.faults⟩
  have h1 := h.eq
  have h2 := k.eq
  rw [h1] at h2
  exact h2

/-- Everything an exchange can do (R122 to R126). -/
theorem exchange_cases {α : Type} (out : List Byte) (read : Config.LinkAnswer → α) (zero : α) (s : State) :
    (s.linkBound = false ∧ exchange out read zero s = ⟨.linkFault, zero, countFault s⟩) ∨
    (s.linkBound = true ∧ (linkAnswerOf s).ok = false ∧
      exchange out read zero s = ⟨.transferFault, zero, countFault (afterLink out s)⟩) ∨
    (s.linkBound = true ∧ (linkAnswerOf s).ok = true ∧
      exchange out read zero s = ⟨.ok, read (linkAnswerOf s), afterLink out s⟩) := by
  unfold exchange
  by_cases hb : s.linkBound <;> by_cases ha : (linkAnswerOf s).ok <;> simp_all

theorem exchange_onlyLink {α : Type} (out : List Byte) (read : Config.LinkAnswer → α) (zero : α) (s : State) :
    OnlyLink s (exchange out read zero s).after := by
  rcases exchange_cases out read zero s with ⟨_, h⟩ | ⟨_, _, h⟩ | ⟨_, _, h⟩ <;> rw [h] <;>
    exact ⟨rfl, by simp, by simp⟩

theorem exchangeFrame_onlyLink (out : Frame) (s : State) : OnlyLink s (exchangeFrame out s).after := exchange_onlyLink _ _ _ _

theorem exchangeWord_onlyLink (s : State) : OnlyLink s (exchangeWord s).after := exchange_onlyLink _ _ _ _

/-- The zero-filled response of a failed handshake is an invalid one (R124, R127). -/
theorem hsPayload_zero : hsPayload 0 = none := by decide

/-- What the caller of a handshake reads (R127): with a link bound, the payload of a valid answer; nothing otherwise. -/
theorem exchangeWord_payload (s : State) :
    hsPayload (exchangeWord s).rx = if s.linkBound ∧ validAnswer (linkAnswerOf s) = true then some (linkAnswerOf s).b1 else none := by
  rcases exchange_cases (wordBytes Config.hsRequest) answerWord 0 s with ⟨hb, h⟩ | ⟨hb, ha, h⟩ | ⟨hb, ha, h⟩ <;> rw [exchangeWord, h]
  · rw [if_neg (by simp [hb]), hsPayload_zero]
  · rw [if_neg (by simp [validAnswer, ha]), hsPayload_zero]
  · simp only [hsPayload, answerWord, hiByte_joinBytes, loByte_joinBytes, hb, validAnswer, ha]
    by_cases h0 : (linkAnswerOf s).b0 = 0 <;> simp [h0]

/-- What a handshake leaves on a bound link (R126). -/
theorem exchangeWord_after (s : State) (hb : s.linkBound = true) :
    (exchangeWord s).after = { s with
      answers := s.answers.tail, linkCount := s.linkCount + 1, linkTx := [0x00, 0x00],
      diagXferFaults := s.diagXferFaults + (if (linkAnswerOf s).ok then 0 else 1) } := by
  rcases exchange_cases (wordBytes Config.hsRequest) answerWord 0 s with ⟨hb', h⟩ | ⟨_, ha, h⟩ | ⟨_, ha, h⟩
  · simp [hb] at hb'
  · simp only [exchangeWord, h, ha]; rfl
  · simp only [exchangeWord, h, ha]; rfl

/-- The answers to come after one exchange are those before it, without the first (R121). -/
theorem answerAt_afterLink (out : List Byte) (s : State) (k : Nat) : answerAt (afterLink out s) k = answerAt s (k + 1) := by
  have : s.linkCount + 1 + k = s.linkCount + (k + 1) := by omega
  cases h : s.answers <;> simp [answerAt, h, this]

@[simp] theorem answerAt_zero (s : State) : answerAt s 0 = linkAnswerOf s := by
  unfold answerAt linkAnswerOf
  cases s.answers <;> rfl

/-! ### Queue steps -/

/-- Everything `IQ_PUSH` can do (R217). -/
theorem storeInbound_cases (b : Byte) (s : State) (h : s.iq.ok = true) :
    (s.iq.count = 4096 ∧ storeInbound b s = (false, { s with diagInDrops := s.diagInDrops + 1 })) ∨
    ∃ q, storeInbound b s = (true, { s with iq := q }) ∧ q.ok = true ∧ ringList q = ringList s.iq ++ [b] ∧
      q.count = s.iq.count + 1 := by
  unfold storeInbound
  rcases ringPush_cases s.iq b h with ⟨hp, hc⟩ | ⟨q, hp, hq, hl, hc, _⟩
  · exact .inl ⟨hc, by simp [hp]⟩
  · exact .inr ⟨q, by simp [hp], hq, hl, hc⟩

/-- Everything the delivery of a byte can do (R180): dropped, stored without an event, or stored with the watermark event. -/
theorem deliverByte_cases (v : Byte) (s : State) (h : s.iq.ok = true) :
    (s.iq.count = 4096 ∧ deliverByte v s = { s with diagInDrops := s.diagInDrops + 1, hadData := true }) ∨
    ∃ q, q.ok = true ∧ ringList q = ringList s.iq ++ [v] ∧ q.count = s.iq.count + 1 ∧
      ((s.iq.count = 16 ∧ s.cbFired = false ∧ s.readyCb = true ∧
          deliverByte v s = { s with iq := q, hadData := true, icReady := s.icReady + 1, cbFired := true }) ∨
        (¬(s.iq.count = 16 ∧ s.cbFired = false ∧ s.readyCb = true) ∧
          deliverByte v s = { s with iq := q, hadData := true })) := by
  rcases storeInbound_cases v s h with ⟨hc, hs⟩ | ⟨q, hs, hq, hl, hc⟩
  · exact .inl ⟨hc, by simp [deliverByte, hs]⟩
  · refine .inr ⟨q, hq, hl, hc, ?_⟩
    by_cases he : s.iq.count = 16 ∧ s.cbFired = false ∧ s.readyCb = true
    · obtain ⟨h1, h2, h3⟩ := he
      exact .inl ⟨h1, h2, h3, by simp [deliverByte, hs, crossesWatermark, Config.watermark, hc, h1, h2, h3, pulseReady]⟩
    · refine .inr ⟨he, ?_⟩
      simp only [deliverByte, hs, hc]
      rw [if_neg]
      simp only [Bool.and_eq_true, crossesWatermark_iff, Bool.not_eq_true', true_and]
      rintro ⟨⟨⟨ha, hb⟩, h2⟩, h3⟩
      exact he ⟨by omega, h2, h3⟩

/-- Everything `COMPOSE_SLOT` writes (R174): the LED command, or one MIDI byte, or the empty slot. -/
theorem composeOne_cases (k : SlotIx) (s : State) (h : s.oq.ok = true) :
    (s.ledPending = true ∧
      composeOne k s = { s with frameOut := setFrameSlot s.frameOut k (ledPair s.ledDuration), ledDuration := 0, ledPending := false }) ∨
    (s.ledPending = false ∧ s.usage < 126000 ∧ ∃ b q, q.ok = true ∧ ringList s.oq = b :: ringList q ∧ q.count = s.oq.count - 1 ∧
      composeOne k s = { s with frameOut := setFrameSlot s.frameOut k (midiPair b), oq := q, usage := s.usage + 1000 }) ∨
    (s.ledPending = false ∧ (126000 ≤ s.usage ∨ s.oq.count = 0) ∧
      composeOne k s = { s with frameOut := setFrameSlot s.frameOut k emptyPair }) := by
  unfold composeOne
  by_cases hl : s.ledPending = true
  · exact .inl ⟨hl, by simp [hl, putSlot]⟩
  · have hl' : s.ledPending = false := by simpa using hl
    by_cases hg : s.usage < 126000
    · have hcs : canSendFlag s = true := by simp [canSendFlag, (gateOpen_iff s).2 hg]
      rcases ringPop_cases s.oq h with ⟨hp, hc⟩ | ⟨b, q, hp, hq, hlist, hc, _⟩
      · exact .inr (.inr ⟨hl', .inr hc, by simp [hl', hcs, hp, putSlot]⟩)
      · exact .inr (.inl ⟨hl', hg, b, q, hq, hlist, hc, by simp [hl', hcs, hp, putSlot, chargeByte, Config.cost]⟩)
    · have hcs : canSendFlag s = false := by
        simp only [canSendFlag, hl', Bool.or_false]
        exact Bool.eq_false_iff.2 (fun e => hg ((gateOpen_iff s).1 e))
      exact .inr (.inr ⟨hl', .inl (by omega), by simp [hl', hcs, putSlot]⟩)

/-- Everything a refill can do (R215): the first bytes of the client's window that fit move to the tail of the queue, in order, and
leave the client's buffer. -/
theorem refillOutbound_spec (s : State) (h : s.oq.ok = true) :
    ∃ q a, a = min (min s.ocBuf.length s.params.peekMax) (4096 - s.oq.count) ∧ q.ok = true ∧
      ringList q = ringList s.oq ++ s.ocBuf.take a ∧ q.count = s.oq.count + a ∧
      refillOutbound s = { s with oq := q, ocBuf := s.ocBuf.drop a, ocAck := a } := by
  obtain ⟨h1, h2, h3, h4⟩ := ringPushAll_spec (peekWindow s) s.oq h
  refine ⟨_, _, ?_, h1, ?_, h4, rfl⟩
  · rw [h2]; simp [peekWindow]
  · rw [h3, h2]
    simp [peekWindow, List.take_take]

/-! ### Lifecycle -/

/-- Everything the kick can do (R256). -/
theorem kick_cases (s : State) :
    (s.sbLevel = true ∧ s.lstate = .up ∧ s.wstate = .idle ∧ kick s = { s with wstate := .pending }) ∨ kick s = s := by
  unfold kick levelFlag
  split
  · rcases requestCycle_cases s with ⟨h1, h2, h3⟩ | h
    · exact .inl ⟨‹_›, h1, h2, h3⟩
    · exact .inr h
  · exact .inr rfl

/-- Everything `LINK_DOWN` can do once quiescing (R291, R292). -/
theorem quiesceThenTearDown_cases (s : State) :
    (s.wstate = .idle ∧ quiesceThenTearDown s = (tearDown s).succeed) ∨
    (s.wstate ≠ .idle ∧ quiesceThenTearDown s = s.hold) := by
  unfold quiesceThenTearDown
  split
  · exact .inl ⟨‹_›, rfl⟩
  · exact .inr ⟨‹_›, rfl⟩

end Sys2Proof.Machine
end

