-- ==== Sys2Proof/Laws/Identity.lean ====
section
/-! SUPPORT. The identity: what each field's staging accepts, and the length limits of what is staged. -/

namespace Sys2Proof.Machine

/-- Field 0 is taken exactly when it has two bytes (R234). -/
theorem stageField_zero (f : List Byte) (st : Staging) :
    stageField 0 f st = if f.length = 2 then some { st with fw := firmwareOf (some f) } else none := by
  match f with
  | [] => rfl
  | [_] => rfl
  | [_, _] => rfl
  | _ :: _ :: _ :: _ => simp [stageField]

/-- Field 1 is taken exactly when it has at most ten bytes (R236). -/
theorem stageField_one (f : List Byte) (st : Staging) :
    stageField 1 f st = if f.length ≤ 10 then some { st with serial := f } else none := by
  simp only [stageField]
  by_cases h : f.length ≤ 10
  · rw [if_pos h, if_neg (by simp [Config.serialCap]; omega)]
  · rw [if_neg h, if_pos (by simp [Config.serialCap]; omega)]

/-- Field 2 is taken exactly when it has at most twelve bytes (R237). -/
theorem stageField_two (f : List Byte) (st : Staging) :
    stageField 2 f st = if f.length ≤ 12 then some { st with uid := hexString f } else none := by
  simp only [stageField]
  by_cases h : f.length ≤ 12
  · rw [if_pos h, if_neg (by simp [Config.idCap]; omega)]
  · rw [if_neg h, if_pos (by simp [Config.idCap]; omega)]

/-- Field 3 is taken exactly when it has two bytes (R238). -/
theorem stageField_three (f : List Byte) (st : Staging) :
    stageField 3 f st = if f.length = 2 then some { st with hw := hardwareOf (some f) } else none := by
  match f with
  | [] => rfl
  | [_] => rfl
  | [_, _] => rfl
  | _ :: _ :: _ :: _ => simp [stageField]

/-- Every further field is read and discarded (R239). -/
theorem stageField_other (i : Nat) (f : List Byte) (st : Staging) : stageField (i + 4) f st = some st := rfl

theorem hexString_length (bs : List Byte) : (hexString bs).length = 2 * bs.length := by
  induction bs with
  | nil => rfl
  | cons b bs ih => simp [hexString, hexByte] at *; omega

theorem hexShort_length (b : Byte) : (hexShort b).length = 1 ∨ (hexShort b).length = 2 := by
  simp only [hexShort]
  split <;> simp [hexByte]

/-- Whatever a field holds, what is staged after it is within the limits of R41. -/
theorem stageField_limits (i : Nat) (f : List Byte) (st st' : Staging) (h : StagedLimits st) (hs : stageField i f st = some st') :
    StagedLimits st' := by
  match i with
  | 0 =>
    rw [stageField_zero] at hs
    split at hs <;> cases hs
    match f with
    | [a, _] =>
      refine ⟨h.serial, h.uid, .inr ?_, h.hw⟩
      simp only [firmwareOf, fmtFw, hexByte]
      rcases hexShort_length a with ha | ha <;> simp [ha]
    | [] => simp at *
    | [_] => simp at *
    | _ :: _ :: _ :: _ => simp at *
  | 1 =>
    rw [stageField_one] at hs
    split at hs <;> cases hs
    exact ⟨by assumption, h.uid, h.fw, h.hw⟩
  | 2 =>
    rw [stageField_two] at hs
    split at hs <;> cases hs
    exact ⟨h.serial, by simp only [hexString_length]; omega, h.fw, h.hw⟩
  | 3 =>
    rw [stageField_three] at hs
    split at hs <;> cases hs
    match f with
    | [a, b] =>
      refine ⟨h.serial, h.uid, h.fw, ?_⟩
      simp only [hardwareOf, fmtHw]
      rcases hexShort_length a with ha | ha <;> rcases hexShort_length b with hb | hb <;> simp [ha, hb]
    | [] => simp at *
    | [_] => simp at *
    | _ :: _ :: _ :: _ => simp at *
  | k + 4 =>
    rw [stageField_other] at hs
    cases hs
    exact h

theorem staged0_limits : StagedLimits staged0 := by constructor <;> decide

end Sys2Proof.Machine
end

