-- ==== Sys2Proof/Laws/Handshake.lean ====
section
/-! SUPPORT. The sequences of handshakes: what one exchange of `LINK_UP`, `ID_PARSE` or `RDLP` can lead to, said once. -/

namespace Sys2Proof.Machine

/-- Everything one handshake of a sequence can lead to, from the state `x` after its exchange (R9, R128, R231, R286): the bring-up
fails; it is finished; `ID_PARSE` goes on to a field; `RDLP` goes on to a data word; `RDLP` answers a caller of its own. -/
inductive SequenceStep (x : State) : State → Prop where
  | failed : x.parse ≠ .idle → SequenceStep x (failBringUp x)
  | finished (st : Staging) : x.parse ≠ .idle → ((∀ l i st', x.parse = .fields l i st' → StagedLimits st') → StagedLimits st) →
      SequenceStep x (finishBringUp st x)
  | field (n i : Nat) (st : Staging) : x.parse ≠ .idle → 0 < n →
      (x.parse = .start → i = 0 ∧ n ≤ 255) → (∀ l j st', x.parse = .fields l j st' → l = n + 1 ∧ i = j + 1) →
      ((∀ l j st', x.parse = .fields l j st' → StagedLimits st') → StagedLimits st) →
      SequenceStep x { x with parse := .fields n i st, block := none }.hold
  | word (b : BlockRead) : x.linkBound = true → ((∀ b', x.block = some b' → b'.ok = true) → b.ok = true) →
      (∀ b', x.block = some b' → b.max = b'.max) →
      (x.block = none → x.parse ≠ .start ∧ ∀ l i st, x.parse = .fields l i st → b.max = Config.rdlpScratch) →
      SequenceStep x { x with block := some b }.hold
  | answered (max : Nat) (got : Option (List Byte)) : (∀ l i st, x.parse ≠ .fields l i st) →
      SequenceStep x (blockReply max got { x with block := none })

/-- Everything `ID_PARSE` can do between two fields (R231). -/
theorem nextField_cases (left i : Nat) (st : Staging) (s : State) :
    (left = 0 ∧ nextField left i st s = finishBringUp st s) ∨
    (0 < left ∧ nextField left i st s = { s with parse := .fields left i st, block := none }.hold) := by
  cases left with
  | zero => exact .inl ⟨rfl, rfl⟩
  | succ n => exact .inr ⟨n.succ_pos, rfl⟩

/-- Everything the end of a block read can do (R128, R231). -/
theorem endBlock_step (max : Nat) (got : Option (List Byte)) (x : State) :
    SequenceStep x (endBlock max got x) := by
  unfold endBlock
  split
  · rename_i l i st hp
    have hne : x.parse ≠ .idle := by simp [hp]
    split
    · exact .failed hne
    · rename_i st' hst
      obtain ⟨bs, _, hbs⟩ := Option.bind_eq_some_iff.1 hst
      have hlim : (∀ l j st'', x.parse = .fields l j st'' → StagedLimits st'') → StagedLimits st' :=
        fun h => stageField_limits i bs st st' (h _ _ _ hp) hbs
      rcases nextField_cases (l - 1) (i + 1) st' x with ⟨_, he⟩ | ⟨h0, he⟩ <;> rw [he]
      · exact .finished st' hne hlim
      · refine .field _ _ _ hne h0 (by simp [hp]) ?_ hlim
        intro l' j st'' h
        rw [hp] at h
        cases h
        exact ⟨by omega, rfl⟩
  · rename_i h
    exact .answered max got h

theorem moreData_step (b : BlockRead) (x : State) (hx : x.linkBound = true)
    (hb : (∀ b', x.block = some b' → b'.ok = true) → b.got.length + b.left ≤ b.max)
    (hm : ∀ b', x.block = some b' → b.max = b'.max)
    (hn : x.block = none → x.parse ≠ .start ∧ ∀ l i st, x.parse = .fields l i st → b.max = Config.rdlpScratch) :
    SequenceStep x (moreData b x) := by
  unfold moreData
  split
  · exact endBlock_step _ _ _
  · exact .word b hx (fun h => by simp [BlockRead.ok, hb h]; omega) hm hn

/-- A response can be valid only where a link is bound (R123, R127). -/
theorem exchangeWord_bound (s : State) (p : Byte) (h : hsPayload (exchangeWord s).rx = some p) :
    (exchangeWord s).after.linkBound = true := by
  rw [(exchangeWord_onlyLink s).eq]
  rw [exchangeWord_payload] at h
  split at h
  · exact (‹_ ∧ _›).1
  · cases h

/-- The count step (R231, R232). -/
theorem countStep_step (s : State) (hp : s.parse = .start) : SequenceStep (exchangeWord s).after (countStep s) := by
  have hx := exchangeWord_onlyLink s
  have hpx : (exchangeWord s).after.parse = .start := by rw [hx.eq]; exact hp
  have hne : (exchangeWord s).after.parse ≠ .idle := by simp [hpx]
  unfold countStep
  split
  · exact .failed hne
  · rename_i n _
    rcases nextField_cases n.toNat 0 staged0 (exchangeWord s).after with ⟨_, he⟩ | ⟨h0, he⟩ <;> rw [he]
    · exact .finished _ hne fun _ => staged0_limits
    · exact .field _ _ _ hne h0 (fun _ => ⟨rfl, by omega⟩) (by simp [hpx]) fun _ => staged0_limits

/-- The first handshake of a block read (R128). -/
theorem lengthStep_step (max : Nat) (s : State) (hb : s.block = none) (hp : s.parse ≠ .start)
    (hm : ∀ l i st, s.parse = .fields l i st → max = Config.rdlpScratch) :
    SequenceStep (exchangeWord s).after (lengthStep max s) := by
  have hx := exchangeWord_onlyLink s
  have hbx : (exchangeWord s).after.block = none := by rw [hx.eq]; exact hb
  have hpx : (exchangeWord s).after.parse = s.parse := by rw [hx.eq]
  unfold lengthStep
  split
  · exact endBlock_step _ _ _
  · rename_i len hlen
    split
    · exact endBlock_step _ _ _
    · refine moreData_step _ _ (exchangeWord_bound s len hlen) (fun _ => ?_) (by simp [hbx]) (fun _ => ?_)
      · simp only [List.length_nil]; omega
      · rw [hpx]; exact ⟨hp, hm⟩

/-- A further handshake of a block read (R128). -/
theorem dataStep_step (b : BlockRead) (s : State) (hs : s.block = some b) :
    SequenceStep (exchangeWord s).after (dataStep b s) := by
  have hx := exchangeWord_onlyLink s
  have hbx : (exchangeWord s).after.block = some b := by rw [hx.eq]; exact hs
  unfold dataStep
  split
  · exact endBlock_step _ _ _
  · rename_i v hv
    refine moreData_step _ _ (exchangeWord_bound s v hv) (fun h => ?_) (fun b' h => ?_) (by simp [hbx])
    · have hb := h b hbx
      simp only [BlockRead.ok, Bool.and_eq_true, decide_eq_true_eq] at hb
      simp only [List.length_append, List.length_cons, List.length_nil]
      omega
    · rw [hbx] at h; cases h; rfl

/-- Everything `XCHG16` can do beside no running worker (R126): a handshake of the sequence in progress, or one of its own. -/
theorem handshake_cases (s : State) :
    SequenceStep (exchangeWord s).after (handshake s) ∨ (s.block = none ∧ s.parse = .idle ∧ handshake s = singleHandshake s) := by
  unfold handshake
  split
  · exact .inl (dataStep_step _ _ ‹_›)
  · exact .inl (countStep_step _ ‹_›)
  · rename_i l i st hb hp
    exact .inl (lengthStep_step _ _ hb (by simp [hp]) fun _ _ _ _ => rfl)
  · exact .inr ⟨‹_›, ‹_›, rfl⟩

/-- Everything a response word can do (R99, R127): refused where no handshake waits for it, or the handshake of the sequence in progress
with that response. -/
theorem respond_cases (r p : Byte) (s : State) :
    respond r p s = s.refuse ∨
    (linkTaken s = true ∧ s.linkBound = true ∧
      SequenceStep (exchangeWord { outsideContract s with answers := handshakeAnswer r p :: s.answers }).after (respond r p s)) := by
  unfold respond
  split
  · exact .inl rfl
  · rename_i h
    simp only [Bool.or_eq_true, not_or, Bool.not_eq_true', Bool.not_eq_false] at h
    refine .inr ⟨h.1.2, h.2, ?_⟩
    rcases handshake_cases { outsideContract s with answers := handshakeAnswer r p :: s.answers } with hs | ⟨hb, hp, _⟩
    · exact hs
    · have hl : linkTaken s = false := by
        rw [linkTaken, show s.parse = .idle from hp, show s.block = none from hb]; rfl
      rw [hl] at h
      exact absurd h.1.2 (by decide)

/-- Everything `RDLP` can do (R128): refused beside another use of the link, or its first handshake. -/
theorem execRdlp_cases (max : Byte) (s : State) :
    execRdlp max s = .next s.refuse ∨
    (∃ t, SequenceStep (exchangeWord s).after t ∧ execRdlp max s = .next t) ∨
    (s.parse = .idle ∧ ∃ t, SequenceStep (exchangeWord (outsideContract s)).after t ∧ execRdlp max s = .next t) := by
  unfold execRdlp
  split
  · exact .inl rfl
  · rename_i hw
    have hb : s.block = none := by
      simp only [Bool.or_eq_true, not_or, Option.isSome_iff_ne_none, not_not] at hw
      exact hw.2
    split
    · rename_i hp
      exact .inr (.inr ⟨hp, _, lengthStep_step max.toNat (outsideContract s) hb (by simp [hp]) (by simp [hp]), rfl⟩)
    · exact .inl rfl
    · rename_i hp
      split
      · exact .inr (.inl ⟨_, lengthStep_step Config.rdlpScratch s hb (by simp [hp]) fun _ _ _ _ => rfl, rfl⟩)
      · exact .inl rfl

/-- Everything `ID_PARSE` can do (R231): refused outside step 4 of a bring-up, or its count step. -/
theorem execIdParse_cases (s : State) :
    execIdParse s = .next s.refuse ∨
    (s.parse = .start ∧ ∃ t, SequenceStep (exchangeWord s).after t ∧ execIdParse s = .next t) := by
  unfold execIdParse
  split
  · exact .inr ⟨‹_›, _, countStep_step s ‹_›, rfl⟩
  · exact .inl rfl

/-- Everything steps 1 to 3 of `LINK_UP` can do (R286, R288). -/
theorem startBringUp_cases (s : State) :
    (s.peerPresent = false ∧ startBringUp s = (rollBack (beginBringUp s)).raise .linkUnavailable) ∨
    (s.peerPresent = true ∧ startBringUp s = (bindLink (beginBringUp s)).hold) := by
  unfold startBringUp
  by_cases hp : s.peerPresent = true
  · exact .inr ⟨hp, by rw [if_pos hp]⟩
  · exact .inl ⟨by simpa using hp, by rw [if_neg hp]⟩

/-! ### Runs of handshakes, for statements about whole sequences -/

/-- The state after `n` valid handshakes on a bound link (R99, R126). -/
def afterHandshakes (n : Nat) (s : State) : State :=
  { s with answers := s.answers.drop n, linkCount := s.linkCount + n, linkTx := [0x00, 0x00] }

/-- A valid handshake gives its payload and leaves one answer fewer (R126, R127). -/
theorem exchangeWord_valid (s : State) (hb : s.linkBound = true) (hv : validAnswer (answerAt s 0) = true) :
    hsPayload (exchangeWord s).rx = some (answerAt s 0).b1 ∧ (exchangeWord s).after = afterHandshakes 1 s := by
  rw [answerAt_zero] at *
  have hok : (linkAnswerOf s).ok = true := by
    rw [validAnswer, Bool.and_eq_true] at hv
    exact hv.1
  refine ⟨by rw [exchangeWord_payload, if_pos ⟨hb, hv⟩], ?_⟩
  rw [exchangeWord_after s hb]
  simp [afterHandshakes, hok]

/-- An invalid or failed handshake gives no payload (R127). -/
theorem exchangeWord_invalid (s : State) (hv : validAnswer (answerAt s 0) = false) : hsPayload (exchangeWord s).rx = none := by
  rw [answerAt_zero] at hv
  rw [exchangeWord_payload, if_neg (by simp [hv])]

@[simp] theorem answerAt_afterHandshakes (n k : Nat) (s : State) : answerAt (afterHandshakes n s) k = answerAt s (n + k) := by
  simp [answerAt, afterHandshakes, List.getElem?_drop, Nat.add_assoc]

@[simp] theorem afterHandshakes_add (m n : Nat) (s : State) :
    afterHandshakes m (afterHandshakes n s) = afterHandshakes (n + m) s := by
  simp [afterHandshakes, List.drop_drop, Nat.add_assoc]

/-- What the peer sends in two parts (R100, R101). -/
theorem peerSends_append (s : State) (a b : List Byte) :
    PeerSends s (a ++ b) ↔ PeerSends s a ∧ PeerSends (afterHandshakes a.length s) b := by
  refine ⟨fun h => ⟨fun k p hk => h k p ?_, fun k p hk => ?_⟩, fun ⟨h1, h2⟩ k p hk => ?_⟩
  · obtain ⟨hlt, _⟩ := List.getElem?_eq_some_iff.1 hk
    rwa [List.getElem?_append_left hlt]
  · rw [answerAt_afterHandshakes]
    refine h (a.length + k) p ?_
    rw [List.getElem?_append_right (by omega)]
    simpa using hk
  · by_cases hka : k < a.length
    · exact h1 k p (by rwa [List.getElem?_append_left hka] at hk)
    · rw [List.getElem?_append_right (by omega)] at hk
      have := h2 _ _ hk
      rwa [answerAt_afterHandshakes, show a.length + (k - a.length) = k by omega] at this

/-- What the peer sends, first response first (R99). -/
theorem peerSends_cons (s : State) (p : Byte) (ps : List Byte) :
    PeerSends s (p :: ps) ↔ (validAnswer (answerAt s 0) = true ∧ (answerAt s 0).b1 = p) ∧ PeerSends (afterHandshakes 1 s) ps := by
  rw [show p :: ps = [p] ++ ps from rfl, peerSends_append]
  refine and_congr ⟨fun h => h 0 p rfl, fun h k q hk => ?_⟩ Iff.rfl
  cases k with
  | zero => cases hk; exact h
  | succ k => simp at hk

/-- `HOST`'s turns, one run after another. -/
theorem hostTurns_add (m n : Nat) (s : State) : hostTurns (m + n) s =
    match hostTurns m s with
    | .next t => hostTurns n t
    | o => o := by
  induction m generalizing s with
  | zero => rw [Nat.zero_add]; rfl
  | succ m ih =>
    rw [Nat.add_right_comm]
    simp only [hostTurns]
    cases hostStep s with
    | next t => exact ih t
    | fault f => rfl
    | refused f => rfl

/-- `HOST`'s turn with data words to come (R128). -/
theorem hostStep_dataStep (s : State) (b : BlockRead) (hw : s.wstate = .idle) (hb : s.block = some b) :
    hostStep s = .next (dataStep b s) := by
  have hr : workerRuns s = false := by simp [workerRuns, hw]
  simp [hostStep, hostInstr, hw, hb, exec, execXchg16, hr, handshake]

/-- `HOST`'s turn at the count step (R232). -/
theorem hostStep_countStep (s : State) (hw : s.wstate = .idle) (hb : s.block = none) (hp : s.parse = .start) :
    hostStep s = .next (countStep s) := by
  simp [hostStep, hostInstr, hw, hb, hp, exec, execIdParse]

/-- `HOST`'s turn at the length of a field (R233). -/
theorem hostStep_lengthStep (s : State) (left i : Nat) (st : Staging) (hw : s.wstate = .idle) (hb : s.block = none)
    (hp : s.parse = .fields left i st) : hostStep s = .next (lengthStep Config.rdlpScratch s) := by
  have hr : workerRuns s = false := by simp [workerRuns, hw]
  simp [hostStep, hostInstr, hw, hb, hp, exec, execRdlp, hr, Config.rdlpScratch]

end Sys2Proof.Machine
end

