-- ==== Sys2Proof/Laws/PerInstr.lean ====
section
/-! SUPPORT. One lemma for each instruction: its encoding is a word of its row of the opcode table, in the row's format. -/

namespace Sys2Proof.Laws.EncodesAsRow

/-- The format, mask and match columns of a row of spec/opcode_table.json; a row the table gives as a pattern has mask zero. -/
def row : Instr → Format × Word × Word
  | .slotEmpty => (.slotOut, 0xFFFF, 0x0000)
  | .slotMidi _ => (.slotOut, 0xFF00, 0x0F00)
  | .slotLed _ => (.slotOut, 0xFF00, 0xF000)
  | .slotRsvd _ _ => (.slotOut, 0x0000, 0x0000)
  | .rxNone => (.slotIn, 0xFF00, 0x0000)
  | .rxData _ _ => (.slotIn, 0x0000, 0x0000)
  | .hsReq => (.hsReq, 0xFFFF, 0x0000)
  | .hsInvalid => (.hsResp, 0xFF00, 0x0000)
  | .hsValid _ _ => (.hsResp, 0x0000, 0x0000)
  | .linkUp => (.cmd, 0xFF00, 0x0100)
  | .linkDown => (.cmd, 0xFF00, 0x0200)
  | .flashLed _ => (.cmd, 0xFF00, 0x1000)
  | .reqCycle => (.cmd, 0xFF00, 0x1100)
  | .outOpen => (.cmd, 0xFF00, 0x2000)
  | .outClose => (.cmd, 0xFF00, 0x2100)
  | .outStart => (.cmd, 0xFF00, 0x2200)
  | .outDrain => (.cmd, 0xFF00, 0x2300)
  | .inOpen => (.cmd, 0xFF00, 0x2800)
  | .inClose => (.cmd, 0xFF00, 0x2900)
  | .inStart => (.cmd, 0xFF00, 0x2A00)
  | .inStop => (.cmd, 0xFF00, 0x2B00)
  | .iqDrain => (.cmd, 0xFF00, 0x2C00)
  | .idGet _ => (.cmd, 0xFF00, 0x3000)
  | .sbLevel => (.cmd, 0xFF00, 0x3100)
  | .oqLen => (.cmd, 0xFF00, 0x3200)
  | .iqLen => (.cmd, 0xFF00, 0x3300)
  | .oqPush _ => (.cmd, 0xFF00, 0x3E00)
  | .cycStart => (.uop, 0xFF00, 0x4000)
  | .itRefill => (.uop, 0xFF00, 0x4100)
  | .composeSlot _ => (.uop, 0xFF00, 0x4200)
  | .itXchg => (.uop, 0xFF00, 0x4300)
  | .itDecay => (.uop, 0xFF00, 0x4400)
  | .deliverSlot _ => (.uop, 0xFF00, 0x4500)
  | .itCont => (.uop, 0xFF00, 0x4600)
  | .cycFlush => (.uop, 0xFF00, 0x4700)
  | .sbSample _ => (.uop, 0xFF00, 0x4800)
  | .sbEdge => (.uop, 0xFF00, 0x4900)
  | .xchg _ => (.fn, 0xFF00, 0x5000)
  | .xchg16 => (.fn, 0xFF00, 0x5100)
  | .rdlp _ => (.fn, 0xFF00, 0x5200)
  | .idParse => (.fn, 0xFF00, 0x5300)
  | .quiesce => (.fn, 0xFF00, 0x5400)
  | .oqPop => (.fn, 0xFF00, 0x5800)
  | .oqRefill => (.fn, 0xFF00, 0x5900)
  | .iqPush _ => (.fn, 0xFF00, 0x5A00)
  | .canSend => (.fn, 0xFF00, 0x6000)
  | .onSent => (.fn, 0xFF00, 0x6100)
  | .onElapsed _ => (.fn, 0xFF00, 0x6200)

/-- The encoder writes a word that the row's mask and match admit, in the row's format. -/
def Statement (i : Instr) : Prop :=
  (encode i).fmt = (row i).1 ∧ (encode i).word &&& (row i).2.1 = (row i).2.2

/-- A word with the row's code as its high byte matches a row that fixes the high byte alone. -/
theorem joinBytes_masked (h l : Byte) : joinBytes h l &&& 0xFF00 = joinBytes h 0 := by
  have h2 : (0xFF00 : Word) = joinBytes 0xFF 0 := by decide
  have hhi : hiByte (joinBytes h l &&& 0xFF00) = h := by
    rw [h2, hiByte, BitVec.extractLsb'_and, ← hiByte, ← hiByte, hiByte_joinBytes, hiByte_joinBytes]
    exact BitVec.and_allOnes (x := h)
  have hlo : loByte (joinBytes h l &&& 0xFF00) = 0 := by
    rw [h2, loByte, BitVec.extractLsb'_and, ← loByte, ← loByte, loByte_joinBytes, loByte_joinBytes]
    exact BitVec.and_zero
  rw [← joinBytes_hiByte_loByte (joinBytes h l &&& 0xFF00), hhi, hlo]

theorem slotEmpty : Statement .slotEmpty := ⟨rfl, by decide⟩
theorem slotMidi (b : Byte) : Statement (.slotMidi b) := ⟨rfl, (joinBytes_masked _ _).trans (show joinBytes Config.tagMidi 0 = (0x0F00 : Word) by decide)⟩
theorem slotLed (d : Byte) : Statement (.slotLed d) := ⟨rfl, (joinBytes_masked _ _).trans (show joinBytes Config.tagLed 0 = (0xF000 : Word) by decide)⟩
theorem slotRsvd (t : Byte) (v : Byte) : Statement (.slotRsvd t v) := ⟨rfl, BitVec.and_zero⟩
theorem rxNone : Statement .rxNone := ⟨rfl, by decide⟩
theorem rxData (t : Byte) (v : Byte) : Statement (.rxData t v) := ⟨rfl, BitVec.and_zero⟩
theorem hsReq : Statement .hsReq := ⟨rfl, by decide⟩
theorem hsInvalid : Statement .hsInvalid := ⟨rfl, by decide⟩
theorem hsValid (r : Byte) (p : Byte) : Statement (.hsValid r p) := ⟨rfl, BitVec.and_zero⟩
theorem linkUp : Statement .linkUp := ⟨rfl, by decide⟩
theorem linkDown : Statement .linkDown := ⟨rfl, by decide⟩
theorem flashLed (d : Byte) : Statement (.flashLed d) := ⟨rfl, (joinBytes_masked _ _).trans (show joinBytes 0x10 0 = (0x1000 : Word) by decide)⟩
theorem reqCycle : Statement .reqCycle := ⟨rfl, by decide⟩
theorem outOpen : Statement .outOpen := ⟨rfl, by decide⟩
theorem outClose : Statement .outClose := ⟨rfl, by decide⟩
theorem outStart : Statement .outStart := ⟨rfl, by decide⟩
theorem outDrain : Statement .outDrain := ⟨rfl, by decide⟩
theorem inOpen : Statement .inOpen := ⟨rfl, by decide⟩
theorem inClose : Statement .inClose := ⟨rfl, by decide⟩
theorem inStart : Statement .inStart := ⟨rfl, by decide⟩
theorem inStop : Statement .inStop := ⟨rfl, by decide⟩
theorem iqDrain : Statement .iqDrain := ⟨rfl, by decide⟩
theorem idGet (sel : Byte) : Statement (.idGet sel) := ⟨rfl, (joinBytes_masked _ _).trans (show joinBytes 0x30 0 = (0x3000 : Word) by decide)⟩
theorem sbLevel : Statement .sbLevel := ⟨rfl, by decide⟩
theorem oqLen : Statement .oqLen := ⟨rfl, by decide⟩
theorem iqLen : Statement .iqLen := ⟨rfl, by decide⟩
theorem oqPush (b : Byte) : Statement (.oqPush b) := ⟨rfl, (joinBytes_masked _ _).trans (show joinBytes 0x3E 0 = (0x3E00 : Word) by decide)⟩
theorem cycStart : Statement .cycStart := ⟨rfl, by decide⟩
theorem itRefill : Statement .itRefill := ⟨rfl, by decide⟩
theorem composeSlot (k : SlotIx) : Statement (.composeSlot k) := by cases k <;> exact ⟨rfl, by decide⟩
theorem itXchg : Statement .itXchg := ⟨rfl, by decide⟩
theorem itDecay : Statement .itDecay := ⟨rfl, by decide⟩
theorem deliverSlot (k : SlotIx) : Statement (.deliverSlot k) := by cases k <;> exact ⟨rfl, by decide⟩
theorem itCont : Statement .itCont := ⟨rfl, by decide⟩
theorem cycFlush : Statement .cycFlush := ⟨rfl, by decide⟩
theorem sbSample (v : Bool) : Statement (.sbSample v) := by cases v <;> exact ⟨rfl, by decide⟩
theorem sbEdge : Statement .sbEdge := ⟨rfl, by decide⟩
theorem xchg (tx : Frame) : Statement (.xchg tx) := ⟨rfl, (joinBytes_masked 0x50 0).trans (show joinBytes 0x50 0 = (0x5000 : Word) by decide)⟩
theorem xchg16 : Statement .xchg16 := ⟨rfl, by decide⟩
theorem rdlp (max : Byte) : Statement (.rdlp max) := ⟨rfl, (joinBytes_masked _ _).trans (show joinBytes 0x52 0 = (0x5200 : Word) by decide)⟩
theorem idParse : Statement .idParse := ⟨rfl, by decide⟩
theorem quiesce : Statement .quiesce := ⟨rfl, by decide⟩
theorem oqPop : Statement .oqPop := ⟨rfl, by decide⟩
theorem oqRefill : Statement .oqRefill := ⟨rfl, by decide⟩
theorem iqPush (b : Byte) : Statement (.iqPush b) := ⟨rfl, (joinBytes_masked _ _).trans (show joinBytes 0x5A 0 = (0x5A00 : Word) by decide)⟩
theorem canSend : Statement .canSend := ⟨rfl, by decide⟩
theorem onSent : Statement .onSent := ⟨rfl, by decide⟩
theorem onElapsed (t : Nat) : Statement (.onElapsed t) := ⟨rfl, (joinBytes_masked 0x62 0).trans (show joinBytes 0x62 0 = (0x6200 : Word) by decide)⟩

end Sys2Proof.Laws.EncodesAsRow
end

