-- ==== Sys2Proof/Laws/Step.lean ====
section
/-! SUPPORT. What a step can do, said once: a predicate kept by every operation and every event is kept by every step. -/

namespace Sys2Proof.Machine

/-- Everything a turn of `HOST` can do: the next exchange in progress, or a held `LINK_DOWN` is taken again (R9, R292). -/
theorem hostStep_cases {s t : State} (h : hostStep s = .next t) :
    (∃ i, hostInstr s = some i ∧ exec i s = .next t) ∨ (hostInstr s = none ∧ t = resumeLinkDown s) := by
  unfold hostStep at h
  split at h
  · exact .inl ⟨_, ‹_›, h⟩
  · cases h; exact .inr ⟨‹_›, rfl⟩

/-- Everything a turn of the worker can do: the micro-step it has enabled, or nothing (R140, R322). -/
theorem workerStep_cases {s t : State} (h : workerStep s = .next t) :
    (∃ i, workerInstr s = some i ∧ exec i s = .next t) ∨ (workerInstr s = none ∧ t = s) := by
  unfold workerStep at h
  split at h
  · exact .inl ⟨_, ‹_›, h⟩
  · cases h; exact .inr ⟨‹_›, rfl⟩

/-- The worker has no micro-step exactly while it is idle (R140). -/
theorem workerInstr_none (s : State) : workerInstr s = none ↔ s.wstate = .idle := by
  cases hw : s.wstate <;> cases hp : s.phase <;> simp [workerInstr, hw, hp]

/-- Everything a step can do: it runs an instruction, refuses a word, lets `HOST` go on, does nothing, or takes an event of the
environment, each on the state with the schedule moved on. -/
theorem step_cases {s t : State} (h : step s = .next t) :
    (∃ i l, exec i { s with sched := l } = .next t ∧ l = s.sched.tail ∧
      ((∃ iss, s.sched = .op iss :: l ∧ decode iss = .ok i) ∨
        (s.sched = [] ∧ i = .outDrain ∧ s.drainWait = true) ∨
        ((s.sched = [] ∨ s.sched = .worker :: l) ∧ workerInstr s = some i) ∨
        ((s.sched = [] ∨ s.sched = .host :: l) ∧ hostInstr s = some i))) ∨
    (∃ iss l, s.sched = .op iss :: l ∧ t = State.refuse { s with sched := l }) ∨
    (t = resumeLinkDown { s with sched := s.sched.tail } ∧ hostInstr s = none ∧ (s.sched = [] ∨ ∃ l, s.sched = .host :: l)) ∨
    (∃ l, s.sched = .worker :: l ∧ t = { s with sched := l }) ∨
    (∃ dt l, s.sched = .clock dt :: l ∧ t = { s with sched := l, now := s.now + dt }) ∨
    (∃ bs l, s.sched = .ocAppend bs :: l ∧ t = { s with sched := l, ocBuf := s.ocBuf ++ bs }) ∨
    (∃ b l, s.sched = .peerPresent b :: l ∧ t = { s with sched := l, peerPresent := b }) ∨
    (∃ as l, s.sched = .peerAnswers as :: l ∧ t = { s with sched := l, answers := s.answers ++ as }) ∨
    (∃ l, s.sched = .rst :: l ∧ t = hardReset { s with sched := l }) := by
  simp only [step, nextStep] at h
  rcases hs : s.sched with _ | ⟨e, l⟩
  · rw [hs] at h
    have hself : { s with sched := [] } = s := by rw [← hs]
    simp only [ownStep] at h
    split at h
    · rename_i hd
      rw [Bool.and_eq_true] at hd
      exact .inl ⟨.outDrain, [], by rw [hself]; exact h, rfl, .inr (.inl ⟨rfl, rfl, hd.1⟩)⟩
    · split at h
      · rcases hostStep_cases h with ⟨i, hi, he⟩ | ⟨hn, rfl⟩
        · exact .inl ⟨i, [], by rw [hself]; exact he, rfl, .inr (.inr (.inr ⟨.inl rfl, hi⟩))⟩
        · exact .inr (.inr (.inl ⟨by rw [List.tail_nil, hself], hn, .inl rfl⟩))
      · rename_i hw
        rcases workerStep_cases h with ⟨i, hi, he⟩ | ⟨hn, _⟩
        · exact .inl ⟨i, [], by rw [hself]; exact he, rfl, .inr (.inr (.inl ⟨.inl rfl, hi⟩))⟩
        · exact absurd ((workerInstr_none s).1 hn) (by simpa using hw)
  · rw [hs] at h
    cases e with
    | op iss =>
      simp only [takeEvent, runIssue] at h
      split at h
      · rename_i i hi
        exact .inl ⟨i, l, h, rfl, .inl ⟨iss, rfl, hi⟩⟩
      · cases h
        exact .inr (.inl ⟨iss, l, rfl, rfl⟩)
    | worker =>
      rcases workerStep_cases h with ⟨i, hi, he⟩ | ⟨_, rfl⟩
      · exact .inl ⟨i, l, he, rfl, .inr (.inr (.inl ⟨.inr rfl, hi⟩))⟩
      · exact .inr (.inr (.inr (.inl ⟨l, rfl, rfl⟩)))
    | host =>
      rcases hostStep_cases h with ⟨i, hi, he⟩ | ⟨hn, rfl⟩
      · exact .inl ⟨i, l, he, rfl, .inr (.inr (.inr ⟨.inr rfl, hi⟩))⟩
      · exact .inr (.inr (.inl ⟨rfl, hn, .inr ⟨l, rfl⟩⟩))
    | clock dt => cases h; exact .inr (.inr (.inr (.inr (.inl ⟨dt, l, rfl, rfl⟩))))
    | ocAppend bs => cases h; exact .inr (.inr (.inr (.inr (.inr (.inl ⟨bs, l, rfl, rfl⟩)))))
    | peerPresent b => cases h; exact .inr (.inr (.inr (.inr (.inr (.inr (.inl ⟨b, l, rfl, rfl⟩))))))
    | peerAnswers as => cases h; exact .inr (.inr (.inr (.inr (.inr (.inr (.inr (.inl ⟨as, l, rfl, rfl⟩)))))))
    | rst => cases h; exact .inr (.inr (.inr (.inr (.inr (.inr (.inr (.inr ⟨l, rfl, rfl⟩)))))))

/-- A predicate that every instruction, the resumed `LINK_DOWN`, the environment's events and the reset keep is kept by every step. -/
theorem step_keeps (P : State → Prop) (hsched : ∀ s l, P s → P { s with sched := l })
    (hexec : ∀ i s t, exec i s = .next t → P s → P t) (hrefuse : ∀ s, P s → P s.refuse)
    (hresume : ∀ s, P s → P (resumeLinkDown s)) (hclock : ∀ s dt, P s → P { s with now := s.now + dt })
    (happend : ∀ s bs, P s → P { s with ocBuf := bs }) (hpeer : ∀ s b, P s → P { s with peerPresent := b })
    (hanswers : ∀ s as, P s → P { s with answers := as }) (hreset : ∀ s, P s → P (hardReset s))
    {s t : State} (h : step s = .next t) (hs : P s) : P t := by
  rcases step_cases h with ⟨i, l, he, _, _⟩ | ⟨_, l, _, rfl⟩ | ⟨rfl, _, _⟩ | ⟨l, _, rfl⟩ | ⟨dt, l, _, rfl⟩ | ⟨bs, l, _, rfl⟩ |
    ⟨b, l, _, rfl⟩ | ⟨as, l, _, rfl⟩ | ⟨l, _, rfl⟩
  · exact hexec i { s with sched := l } t he (hsched s l hs)
  · exact hrefuse { s with sched := l } (hsched s l hs)
  · exact hresume { s with sched := s.sched.tail } (hsched s _ hs)
  · exact hsched s l hs
  · exact hclock { s with sched := l } dt (hsched s l hs)
  · exact happend { s with sched := l } (s.ocBuf ++ bs) (hsched s l hs)
  · exact hpeer { s with sched := l } b (hsched s l hs)
  · exact hanswers { s with sched := l } (s.answers ++ as) (hsched s l hs)
  · exact hreset { s with sched := l } (hsched s l hs)

end Sys2Proof.Machine
end

