-- ==== Sys2Proof/Tests/Slice0.lean ====
section
/-! SUPPORT. Tests: ill-formed terms refused, one word of each row written out from the encoding tables, vectors of
95_test_vectors.md and worked examples of the rules, and for each obligation with hypotheses a state and operands that meet them. -/

namespace Sys2Proof.Tests

open Sys2Proof Sys2Proof.Machine

/-! ### Helpers -/

/-- The state of an outcome. -/
def out (o : Out) : Option State :=
  match o with
  | .next t => some t
  | .fault _ => none
  | .refused _ => none

/-- The common start of the vectors (95_test_vectors.md): the link up and bound, the example parameters. -/
def base : State :=
  { State.reset with lstate := .up, linkBound := true, sbArmed := true, now := 10, lastXfer := 10, params := ⟨3125, 4⟩ }

/-- After reset, with the example parameters. -/
def downState : State := { State.reset with params := ⟨3125, 4⟩ }

/-- The worker running at a phase. -/
def running (p : Phase) : State := { base with wstate := .running, phase := p }

/-- A ring that holds these bytes from index 0 on. -/
def ringOf (bs : List Byte) : Ring := (ringPushAll bs Ring.empty).2

/-- A ring that holds `n` zero bytes from index 0 on. -/
def zerosRing (n : Nat) : Ring := { mem := [], rd := 0, wr := BitVec.ofNat 12 n, count := n }

/-- A frame from its four bytes. -/
def frameOf (a b c d : Byte) : Frame := ⟨⟨a, b⟩, ⟨c, d⟩⟩

/-- A successful answer to a frame exchange. -/
def answered (a b c d : Byte) : Config.LinkAnswer := ⟨true, a, b, c, d⟩

/-- A failed exchange. -/
def failed : Config.LinkAnswer := ⟨false, 0, 0, 0, 0⟩

/-- A successful answer to a handshake, with two further bytes that nobody reads (R99, R126). -/
def hs (ready payload : Byte) : Config.LinkAnswer := ⟨true, ready, payload, 0xEE, payload⟩

/-- Valid answers with these payloads, each with a ready flag of its own (R99). -/
def sent : Byte → List Byte → List Config.LinkAnswer
  | _, [] => []
  | r, p :: ps => hs (if r = 0 then 1 else r) p :: sent (r + 1) ps

/-- A bring-up whose first handshake is still to come (R286 step 4), with these answers. -/
def bringing (as : List Config.LinkAnswer) : State :=
  { downState with peerPresent := true, lstate := .bringup, linkBound := true, parse := .start, answers := as }

/-- In `DOWN` with a peripheral that will give these answers. -/
def plugged (as : List Config.LinkAnswer) : State := { downState with peerPresent := true, answers := as }

/-- The fields of the worked example of R244. -/
def exampleFields : List (List Byte) := [[0x01, 0x02], [0x41, 0x42, 0x43], [0xDE, 0xAD], [0x01, 0x01]]

/-- `decode` of a word without operands outside it. -/
def dec (fmt : Format) (w : Word) : Option Instr := (decode ⟨fmt, w, Args.zero⟩).toOption

/-! ### Well-formedness: the three checks refuse an ill-formed term and admit a well-formed one -/

theorem test_wf_rsvd_refuses_the_three_tags :
    Instr.wf (.slotRsvd 0x0F 0x90) = false ∧ Instr.wf (.slotRsvd 0xF0 0x20) = false ∧ Instr.wf (.slotRsvd 0x00 0x00) = false ∧
    Instr.wf (.slotRsvd 0x00 0x01) = true ∧ Instr.wf (.slotRsvd 0x01 0x00) = true := by decide

theorem test_wf_rxData_refuses_tag_zero : Instr.wf (.rxData 0x00 0x55) = false ∧ Instr.wf (.rxData 0xFF 0x55) = true := by decide

theorem test_wf_hsValid_refuses_flag_zero : Instr.wf (.hsValid 0x00 0xFF) = false ∧ Instr.wf (.hsValid 0x80 0x00) = true := by decide

/-! ### Decoding: a word of each row, from the tables of R93, R96, R98, R99, R103 -/

theorem test_decode_slots :
    dec .slotOut 0x0000 = some .slotEmpty ∧ dec .slotOut 0x0F90 = some (.slotMidi 0x90) ∧ dec .slotOut 0xF020 = some (.slotLed 0x20) ∧
    dec .slotOut 0x0033 = some (.slotRsvd 0x00 0x33) ∧ dec .slotOut 0x1090 = some (.slotRsvd 0x10 0x90) ∧
    dec .slotIn 0x005A = some .rxNone ∧ dec .slotIn 0x0FF8 = some (.rxData 0x0F 0xF8) ∧ dec .slotIn 0xF020 = some (.rxData 0xF0 0x20) := by
  decide

theorem test_decode_handshakes :
    dec .hsReq 0x0000 = some .hsReq ∧ dec .hsReq 0x0001 = none ∧ dec .hsResp 0x00FF = some .hsInvalid ∧
    dec .hsResp 0x0104 = some (.hsValid 0x01 0x04) ∧ dec .hsResp 0x8000 = some (.hsValid 0x80 0x00) := by decide

theorem test_decode_commands_lifecycle :
    dec .cmd 0x0100 = some .linkUp ∧ dec .cmd 0x0200 = some .linkDown ∧ dec .cmd 0x1020 = some (.flashLed 0x20) ∧
    dec .cmd 0x1100 = some .reqCycle ∧ dec .cmd 0x3003 = some (.idGet 3) ∧ dec .cmd 0x3100 = some .sbLevel := by decide

theorem test_decode_commands_endpoints :
    dec .cmd 0x2000 = some .outOpen ∧ dec .cmd 0x2100 = some .outClose ∧ dec .cmd 0x2200 = some .outStart ∧
    dec .cmd 0x2300 = some .outDrain ∧ dec .cmd 0x2800 = some .inOpen ∧ dec .cmd 0x2900 = some .inClose ∧
    dec .cmd 0x2A00 = some .inStart ∧ dec .cmd 0x2B00 = some .inStop := by decide

theorem test_decode_commands_queues :
    dec .cmd 0x2C00 = some .iqDrain ∧ dec .cmd 0x3200 = some .oqLen ∧ dec .cmd 0x3300 = some .iqLen ∧
    dec .cmd 0x3E01 = some (.oqPush 0x01) := by decide

theorem test_decode_microsteps :
    dec .uop 0x4000 = some .cycStart ∧ dec .uop 0x4100 = some .itRefill ∧ dec .uop 0x4200 = some (.composeSlot .slot0) ∧
    dec .uop 0x4201 = some (.composeSlot .slot1) ∧ dec .uop 0x4300 = some .itXchg ∧ dec .uop 0x4400 = some .itDecay ∧
    dec .uop 0x4500 = some (.deliverSlot .slot0) ∧ dec .uop 0x4501 = some (.deliverSlot .slot1) ∧ dec .uop 0x4600 = some .itCont ∧
    dec .uop 0x4700 = some .cycFlush ∧ dec .uop 0x4801 = some (.sbSample true) ∧ dec .uop 0x4900 = some .sbEdge := by decide

theorem test_decode_functions :
    (decode ⟨.fn, 0x5000, ⟨frameOf 0x0F 0x90 0x00 0x00, 0⟩⟩).toOption = some (.xchg (frameOf 0x0F 0x90 0x00 0x00)) ∧
    dec .fn 0x5100 = some .xchg16 ∧ dec .fn 0x52FF = some (.rdlp 0xFF) ∧ dec .fn 0x5300 = some .idParse ∧
    dec .fn 0x5400 = some .quiesce ∧ dec .fn 0x5800 = some .oqPop ∧ dec .fn 0x5900 = some .oqRefill ∧
    dec .fn 0x5AF8 = some (.iqPush 0xF8) ∧ dec .fn 0x6000 = some .canSend ∧ dec .fn 0x6100 = some .onSent ∧
    (decode ⟨.fn, 0x6200, ⟨frameOf 0 0 0 0, 7⟩⟩).toOption = some (.onElapsed 7) := by decide

/-- R105 and vector V117: codes not listed for the format are refused, slots past 1 do not exist. -/
theorem test_decode_refuses :
    dec .cmd 0x7F00 = none ∧ dec .cmd 0x4300 = none ∧ dec .cmd 0x0000 = none ∧ dec .uop 0x4A00 = none ∧ dec .fn 0x5500 = none ∧
    dec .uop 0x4202 = none ∧ dec .uop 0x45FF = none ∧ dec .uop 0x4802 = none := by decide

/-- The bare words of the table, as the host numbers them. -/
theorem test_decodeTableWord :
    decodeTableWord 16 0x1020 = some (.flashLed 0x20) ∧ decodeTableWord 16 0x4201 = some (.composeSlot .slot1) ∧
    decodeTableWord 16 0x5200 = some (.rdlp 0) ∧ decodeTableWord 16 0x0F90 = some (.slotMidi 0x90) ∧
    decodeTableWord 16 0x0000 = some .slotEmpty ∧ decodeTableWord 8 0x1020 = none := by decide

/-! ### Vectors, by family -/

/-- V1, V2, V3; a direct call while the link is up marks the run, beside the worker it is refused (U2). -/
theorem test_xchg :
    (out (exec (.xchg (frameOf 0x0F 0x90 0 0)) { base with answers := [answered 0 0 0x0F 0xF8] })).map
      (fun t => (t.verdict, t.result, t.linkTx, t.marked)) =
      some (.done .ok, .frame (frameOf 0 0 0x0F 0xF8), [0x0F, 0x90, 0, 0], true) ∧
    (out (exec (.xchg (frameOf 0x0F 0x90 0x0F 0x3C)) { base with answers := [failed] })).map
      (fun t => (t.verdict, t.result, t.diagXferFaults)) = some (.done .transferFault, .frame (frameOf 0 0 0 0), 1) ∧
    (out (exec (.xchg (frameOf 0 0 0 0)) downState)).map
      (fun t => ((t.verdict, t.result), t.diagXferFaults, t.linkCount, t.marked)) =
      some ((.done .linkFault, .frame (frameOf 0 0 0 0)), 1, 0, false) ∧
    (out (exec (.xchg (frameOf 0 0 0 0)) (running .decay))).map (fun t => (t.verdict, t.linkCount)) = some (.done .refused, 0) := by
  decide

/-- V4, V7, and the two bytes of a direct call. -/
theorem test_xchg16 :
    (out (exec .xchg16 (bringing [hs 0x01 0x04]))).map (fun t => (t.parse, t.linkTx, t.verdict)) =
      some (.fields 4 0 staged0, [0x00, 0x00], .held) ∧
    (out (exec .xchg16 (bringing [failed]))).map (fun t => (t.verdict, t.lstate)) = some (.done .protocolError, .down) ∧
    (out (exec .xchg16 { base with answers := [hs 0x01 0x04] })).map (fun t => (t.result, t.linkTx, t.marked)) =
      some (.word 0x0104, [0x00, 0x00], true) := by decide

/-- V10, V11, V12: the length equal to the capacity, one past it, and zero. -/
theorem test_rdlp_lengths :
    (out (runSequence (.rdlp 2) 2 { base with answers := [hs 1 2, hs 0x80 0xAA, hs 7 0xBB] })).map
      (fun t => (t.verdict, t.result, t.linkCount)) = some (.done .ok, .block [0xAA, 0xBB] 2, 3) ∧
    (out (exec (.rdlp 2) { base with answers := [hs 1 3, hs 1 0xAA] })).map
      (fun t => (t.verdict, t.result, t.linkCount)) = some (.done .protocolError, .block [0, 0] 0, 1) ∧
    (out (exec (.rdlp 0) { base with answers := [hs 1 0] })).map (fun t => (t.verdict, t.result)) =
      some (.done .ok, .block [] 0) := by decide

/-- V14 and S6: an invalid data word, no partial copy. -/
theorem test_rdlp_no_partial_copy :
    (out (runSequence (.rdlp 8) 2 { base with answers := [hs 1 3, hs 1 0xAA, hs 0 0xBB, hs 1 0xCC] })).map
      (fun t => (t.verdict, t.result, t.linkCount)) = some (.done .protocolError, .block [0, 0, 0, 0, 0, 0, 0, 0] 0, 3) := by decide

/-- V15, V16, V18. -/
theorem test_reqCycle :
    (out (exec .reqCycle base)).map State.wstate = some .pending ∧
    (out (exec .reqCycle (running .flush))).map State.wstate = some .running ∧
    (out (exec .reqCycle downState)).map (fun t => (t.wstate, t.verdict)) = some (.idle, .done .ok) := by decide

/-- V19. -/
theorem test_cycStart :
    (out (exec .cycStart { base with wstate := .pending, phase := .flush })).map (fun t => (t.wstate, t.phase)) =
      some (.running, .refill) := by decide

/-- V20, and the example of R145. -/
theorem test_itRefill :
    (out (exec .itRefill { running .refill with ocBuf := [0x90], hadData := true, cbFired := true })).map
      (fun t => (ringList t.oq, t.ocBuf, t.hadData, t.cbFired, t.phase)) = some ([], [0x90], false, false, .compose0) ∧
    (out (exec .itRefill { running .refill with ocBuf := [0x90, 0x3C, 0x7F], outActive := true })).map
      (fun t => (ringList t.oq, t.ocBuf, t.ocAck)) = some ([0x90, 0x3C, 0x7F], [], 3) := by decide

/-- V21, V22: room 3 and room 4 for a transfer of four bytes. -/
theorem test_itRefill_room :
    (out (exec .itRefill { running .refill with ocBuf := [1], outActive := true, oq := zerosRing 4093 })).map
      (fun t => (t.oq.count, t.ocBuf)) = some (4093, [1]) ∧
    (out (exec .itRefill { running .refill with ocBuf := [1, 2, 3, 4, 5], outActive := true, oq := zerosRing 4092 })).map
      (fun t => (t.oq.count, t.ocBuf, t.ocAck)) = some (4096, [5], 4) := by decide

/-- V23a: the time is recorded also on a fault. -/
theorem test_itXchg :
    (out (exec .itXchg { running .xchg with now := 12, answers := [failed], frameIn := frameOf 1 2 3 4 })).map
      (fun t => (t.frameIn, t.elapsed, t.lastXfer, t.phase, t.verdict)) = some (frameOf 0 0 0 0, 2, 12, .decay, .done .ok) ∧
    (out (exec .itXchg { running .xchg with frameOut := frameOf 0x0F 0xA1 0 0, answers := [answered 0x0F 0xF8 0 0] })).map
      (fun t => (t.frameIn, t.elapsed, t.linkTx)) = some (frameOf 0x0F 0xF8 0 0, 0, [0x0F, 0xA1, 0, 0]) := by decide

/-- V23b, and the decay of program P8. -/
theorem test_itDecay :
    (out (exec .itDecay { running .decay with usage := 2000, elapsed := 2 })).map (fun t => (t.usage, t.phase)) =
      some (0, .deliver0) ∧
    (out (exec .itDecay { running .decay with usage := 126000, elapsed := 1 })).map State.usage = some 122875 := by decide

/-- V39 to V45, one term at a time. -/
theorem test_itCont :
    (out (exec .itCont { running .cont with outActive := true, ocBuf := [0x90] })).map State.phase = some .flush ∧
    (out (exec .itCont { running .cont with hadData := true })).map State.phase = some .refill ∧
    (out (exec .itCont { running .cont with oq := ringOf [0x7F] })).map State.phase = some .refill ∧
    (out (exec .itCont { running .cont with sbLevel := true })).map State.phase = some .refill ∧
    (out (exec .itCont { running .cont with ledPending := true })).map State.phase = some .refill ∧
    (out (exec .itCont { running .cont with usage := 1 })).map State.phase = some .refill := by decide

/-- V46, V47, V48. -/
theorem test_cycFlush :
    (out (exec .cycFlush { running .flush with iq := ringOf [0xF8], readyCb := true })).map (fun t => (t.icReady, t.wstate)) =
      some (1, .idle) ∧
    (out (exec .cycFlush { running .flush with readyCb := true })).map (fun t => (t.icReady, t.wstate)) = some (0, .idle) ∧
    (out (exec .cycFlush { running .flush with iq := ringOf [0xF8] })).map (fun t => (t.icReady, ringList t.iq)) =
      some (0, [0xF8]) := by decide

/-- V49, V50, and the refusal of V115. -/
theorem test_flashLed :
    (out (exec (.flashLed 0x20) base)).map (fun t => (t.ledDuration, t.ledPending, t.wstate)) = some (0x20, true, .pending) ∧
    (out (exec (.flashLed 0x05) { base with ledDuration := 0x20, ledPending := true })).map
      (fun t => (t.ledDuration, t.ledPending)) = some (0x05, true) ∧
    (out (exec (.flashLed 1) downState)).map (fun t => (t.verdict, t.ledPending, t.marked)) =
      some (.done .refused, false, true) := by decide

/-- V52 and V57: the LED command first, past the shut gate, without a charge. -/
theorem test_composeSlot_led :
    (out (exec (.composeSlot .slot0) { running .compose0 with ledPending := true, ledDuration := 0x20, oq := ringOf [0x3C], usage := 126000 })).map
      (fun t => ((t.frameOut, t.ledPending, t.ledDuration), ringList t.oq, t.usage, t.phase)) =
      some ((frameOf 0xF0 0x20 0 0, false, 0), [0x3C], 126000, .compose1) := by decide

/-- V53, V55, V56, V59: a byte at the gate's last open value, none at the first shut one, a zero byte. -/
theorem test_composeSlot_midi :
    (out (exec (.composeSlot .slot1) { running .compose1 with oq := ringOf [0xA1, 0xA2], usage := 125999 })).map
      (fun t => (t.frameOut, ringList t.oq, t.usage, t.phase)) = some (frameOf 0 0 0x0F 0xA1, [0xA2], 126999, .xchg) ∧
    (out (exec (.composeSlot .slot1) { running .compose1 with oq := ringOf [0xA1], usage := 126000, frameOut := frameOf 1 2 3 4 })).map
      (fun t => (t.frameOut, ringList t.oq, t.usage)) = some (frameOf 1 2 0 0, [0xA1], 126000) ∧
    (out (exec (.composeSlot .slot0) { running .compose0 with oq := ringOf [0x00] })).map State.frameOut =
      some (frameOf 0x0F 0x00 0 0) := by decide

/-- V24 to V27: the event at the push from 16 to 17 and at no other. -/
theorem test_deliverSlot_watermark :
    (out (exec (.deliverSlot .slot0) { running .deliver0 with iq := zerosRing 16, readyCb := true, frameIn := frameOf 0x0F 1 0x0F 2 })).map
      (fun t => (t.icReady, t.cbFired, t.hadData, t.iq.count, t.phase)) = some (1, true, true, 17, .deliver1) ∧
    (out (exec (.deliverSlot .slot0) { running .deliver0 with iq := zerosRing 15, readyCb := true, frameIn := frameOf 0x0F 1 0 0 })).map
      (fun t => (t.icReady, t.iq.count)) = some (0, 16) ∧
    (out (exec (.deliverSlot .slot0) { running .deliver0 with iq := zerosRing 17, readyCb := true, frameIn := frameOf 0x0F 1 0 0 })).map
      (fun t => (t.icReady, t.iq.count)) = some (0, 18) ∧
    (out (exec (.deliverSlot .slot0) { running .deliver0 with iq := zerosRing 16, frameIn := frameOf 0x0F 1 0 0 })).map
      (fun t => (t.icReady, t.cbFired, t.iq.count)) = some (0, false, 17) := by decide

/-- V29, V60, V61: a full queue, tag zero with a value, an inbound F0. -/
theorem test_deliverSlot_drop_and_tags :
    (out (exec (.deliverSlot .slot0) { running .deliver0 with iq := zerosRing 4096, readyCb := true, frameIn := frameOf 0x0F 0xAA 0 0 })).map
      (fun t => (t.iq.count, t.diagInDrops, t.hadData, t.icReady)) = some (4096, 1, true, 0) ∧
    (out (exec (.deliverSlot .slot0) { running .deliver0 with frameIn := frameOf 0x00 0x55 0 0 })).map
      (fun t => (ringList t.iq, t.hadData)) = some ([], false) ∧
    (out (exec (.deliverSlot .slot1) { running .deliver1 with frameIn := frameOf 1 2 0xF0 0x20 })).map
      (fun t => (ringList t.iq, t.hadData, t.phase)) = some ([0x20], true, .cont) := by decide

/-- V31, V32, V33. -/
theorem test_canSend :
    (out (exec .canSend { base with usage := 125999 })).map State.result = some (.flag true) ∧
    (out (exec .canSend { base with usage := 126000 })).map State.result = some (.flag false) ∧
    (out (exec .canSend { base with usage := 126000, ledPending := true })).map State.result = some (.flag true) := by decide

/-- V34, and the guard. -/
theorem test_onSent :
    (out (exec .onSent { base with usage := 125999 })).map State.usage = some 126999 ∧
    (out (exec .onSent { base with usage := 126000 })).map (fun t => (t.usage, t.verdict)) = some (126000, .done .refused) ∧
    (out (exec .onSent { base with ledPending := true })).map (fun t => (t.usage, t.verdict)) = some (0, .done .refused) := by decide

/-- V35, V36, V38: the floor, and no wrap of the product. -/
theorem test_onElapsed :
    (out (exec (.onElapsed 1) { base with usage := 5000 })).map State.usage = some 1875 ∧
    (out (exec (.onElapsed 1) { base with usage := 1875 })).map State.usage = some 0 ∧
    (out (exec (.onElapsed 4000000000) { base with usage := 126999 })).map State.usage = some 0 := by decide

/-- V63, V64, V73, V74. -/
theorem test_oqPush :
    (out (exec (.oqPush 0x11) { base with oq := zerosRing 4095 })).map (fun t => (t.oq.count, t.result)) = some (4096, .flag true) ∧
    (out (exec (.oqPush 0x22) { base with oq := zerosRing 4096 })).map (fun t => (t.oq.count, t.result)) = some (4096, .flag false) ∧
    (out (exec (.oqPush 0x01) base)).map (fun t => (ringList t.oq, t.wstate)) = some ([0x01], .pending) ∧
    (out (exec (.oqPush 0x02) { base with oq := ringOf [0x01] })).map (fun t => (ringList t.oq, t.wstate)) =
      some ([0x01, 0x02], .idle) := by decide

/-- V75. -/
theorem test_oqPush_refused : (out (exec (.oqPush 3) (running .xchg))).map (fun t => (t.verdict, t.oq.count)) = some (.done .refused, 0) := by
  decide

/-- V65, the pop of an empty queue (R209), and a pop beside the worker (U3). -/
theorem test_oqPop :
    (out (exec .oqPop { base with oq := ringOf [0x90, 0x3C] })).map (fun t => (t.result, ringList t.oq)) = some (.byte 0x90, [0x3C]) ∧
    (out (exec .oqPop base)).map (fun t => (t.result, t.verdict, t.oq)) = some (.none, .done .ok, Ring.empty) ∧
    (out (exec .oqPop { running .decay with oq := ringOf [0x90] })).map (fun t => (t.verdict, ringList t.oq, t.marked)) =
      some (.done .refused, [0x90], true) := by decide

/-- V66: the indices wrap and the byte at 4095 is followed by the byte at 0. -/
theorem test_ring_wraps :
    (ringPushAll [0xAA, 0xBB] { mem := [], rd := 4095, wr := 4095, count := 0 }).2 =
      { mem := [(0, 0xBB), (4095, 0xAA)], rd := 4095, wr := 1, count := 2 } ∧
    (ringPop { mem := [(0, 0xBB), (4095, 0xAA)], rd := 4095, wr := 1, count := 2 }).map (fun p => (p.1, p.2.rd, ringList p.2)) =
      some (0xAA, 0, [0xBB]) := by decide

/-- V67, V68. -/
theorem test_oqRefill :
    (out (exec .oqRefill { base with ocBuf := [1, 2, 3, 4, 5, 6] })).map (fun t => (t.result, ringList t.oq, t.ocBuf)) =
      some (.number 4, [1, 2, 3, 4], [5, 6]) ∧
    (out (exec .oqRefill base)).map (fun t => (t.result, t.ocAck)) = some (.number 0, 0) := by decide

/-- V69. -/
theorem test_iqPush :
    (out (exec (.iqPush 0xAA) { base with iq := zerosRing 4095 })).map (fun t => (t.result, t.iq.count, t.iq.mem)) =
      some (.flag true, 4096, [(4095, 0xAA)]) ∧
    (out (exec (.iqPush 0xBB) { base with iq := zerosRing 4096 })).map (fun t => (t.result, t.iq.count, t.diagInDrops)) =
      some (.flag false, 4096, 1) := by decide

/-- V70, V71. -/
theorem test_iqDrain :
    (out (exec .iqDrain { base with iq := ringOf [0xF8, 0xFE] })).map (fun t => (t.result, ringList t.iq)) =
      some (.bytes [0xF8, 0xFE], []) ∧
    (out (exec .iqDrain base)).map State.result = some (.bytes []) := by decide

/-- V76, and its inbound twin. -/
theorem test_lengths :
    (out (exec .oqLen { base with oq := ringOf [0x90, 0x3C] })).map State.result = some (.number 2) ∧
    (out (exec .iqLen { base with iq := ringOf [0xF8] })).map State.result = some (.number 1) ∧
    (out (exec .oqLen downState)).map State.verdict = some (.done .refused) := by decide

/-- The worked example of R244: fourteen exchanges, the four strings 1.02, ABC, dead, 1.1. -/
theorem test_idParse_example :
    (out (runSequence .idParse 13 (bringing (sent 1 (identityPayloads exampleFields))))).map
      (fun t => ((t.idFw, t.idSerial, t.idUid, t.idHw), t.idValid, t.linkCount, t.verdict)) =
      some (([0x31, 0x2E, 0x30, 0x32], [0x41, 0x42, 0x43], [0x64, 0x65, 0x61, 0x64], [0x31, 0x2E, 0x31]), true, 14, .done .ok) := by
  decide

/-- V79, V80, V83: the version 1f.0a; a field of one byte; an eleven-byte serial number after a good field 0. -/
theorem test_idParse_fields :
    (out (runSequence .idParse 3 (bringing (sent 1 (identityPayloads [[0x1F, 0x0A]]))))).map (fun t => (t.idFw, t.idHw)) =
      some ([0x31, 0x66, 0x2E, 0x30, 0x61], [0x31, 0x2E, 0x30]) ∧
    (out (runSequence .idParse 2 (bringing (sent 1 (identityPayloads [[0x01]]))))).map (fun t => (t.verdict, t.idValid)) =
      some (.done .protocolError, false) ∧
    (out (runSequence .idParse 15 (bringing (sent 1 (identityPayloads [[1, 2], List.replicate 11 0x30]))))).map
      (fun t => (t.verdict, t.idFw, t.linkCount)) = some (.done .protocolError, [], 16) := by decide

/-- V78 and V88: an invalid handshake at the count, and in a discarded field; the exchanges made, and the block back in `DOWN`. -/
theorem test_idParse_invalid_handshakes :
    (out (exec .idParse (bringing [hs 0 4]))).map (fun t => (t.verdict, t.lstate, t.linkCount)) =
      some (.done .protocolError, .down, 1) ∧
    (out (runSequence .idParse 9 (bringing (sent 1 [5, 2, 1, 2, 0, 0, 2, 1, 1] ++ [hs 0 0])))).map
      (fun t => (t.verdict, t.lstate, t.idFw, t.linkCount)) = some (.done .protocolError, .down, [], 10) := by decide

/-- V89. -/
theorem test_idGet :
    (out (exec (.idGet 3) downState)).map State.result = some (.bytes [0x31, 0x2E, 0x30]) ∧
    (out (exec (.idGet 0) downState)).map State.result = some (.bytes []) ∧
    (out (exec (.idGet 4) downState)).map State.verdict = some (.done .refused) := by decide

/-- V90, V91, V92, V94. -/
theorem test_sbSample :
    (out (exec (.sbSample true) base)).map (fun t => (t.sbMeta, t.sbLevel, t.wstate)) = some (true, false, .idle) ∧
    (out (exec (.sbSample true) { base with sbMeta := true })).map (fun t => (t.sbLevel, t.sbPrev, t.wstate)) =
      some (true, false, .pending) ∧
    (out (exec (.sbSample true) { base with sbMeta := true, sbLevel := true })).map (fun t => (t.sbLevel, t.sbPrev, t.wstate)) =
      some (true, true, .idle) ∧
    (out (exec (.sbSample true) { base with sbMeta := true, sbArmed := false })).map (fun t => (t.sbLevel, t.wstate)) =
      some (true, .idle) := by decide

/-- The example of R254, and V96. -/
theorem test_sbEdge_and_level :
    (out (exec .sbEdge base)).map State.wstate = some .pending ∧
    (out (exec .sbEdge { base with sbArmed := false })).map State.wstate = some .idle ∧
    (out (exec .sbLevel { base with sbLevel := true })).map State.result = some (.flag true) := by decide

/-- V97, V98, V99. -/
theorem test_output_endpoint :
    (out (exec .outOpen base)).map State.outActive = some true ∧
    (out (exec .outClose { base with outActive := true, oq := ringOf [0x3C] })).map (fun t => (t.outActive, ringList t.oq)) =
      some (false, [0x3C]) ∧
    (out (exec .outStart base)).map State.wstate = some .pending := by decide

/-- V100, V101, V102; `done` stays low beside the worker's own steps (R104). -/
theorem test_outDrain :
    (out (exec .outDrain base)).map (fun t => (t.verdict, t.drainWait)) = some (.done .ok, false) ∧
    (out (exec .outDrain { base with oq := ringOf [0x7F] })).map (fun t => (t.verdict, t.drainWait, t.wstate)) =
      some (.held, true, .pending) ∧
    (out (step { running .refill with sched := [.worker], oq := ringOf [0x7F], drainWait := true })).map cmdDone = some false ∧
    (out (exec .outDrain { base with lstate := .shutdown, oq := ringOf [0x7F] })).map (fun t => (t.verdict, t.drainWait)) =
      some (.done .refused, false) := by decide

/-- V103 to V106. -/
theorem test_input_endpoint :
    (out (exec .inOpen base)).map State.inActive = some true ∧
    (out (exec .inClose { base with inActive := true, readyCb := true, iq := ringOf [0xF8] })).map
      (fun t => (t.inActive, t.readyCb, ringList t.iq)) = some (false, false, [0xF8]) ∧
    (out (exec .inStart base)).map (fun t => (t.readyCb, t.wstate)) = some (true, .pending) ∧
    (out (exec .inStop { base with readyCb := true })).map (fun t => (t.readyCb, t.wstate)) = some (false, .idle) := by decide

/-- V107, V108, V111. -/
theorem test_linkUp_fails :
    (out (exec .linkUp downState)).map (fun t => (t.verdict, t.lstate, t.linkBound, t.linkCount)) =
      some (.done .linkUnavailable, .down, false, 0) ∧
    (out (runSequence .linkUp 1 (plugged [hs 0 0]))).map
      (fun t => (t.verdict, t.lstate, t.linkBound, t.idHw)) = some (.done .protocolError, .down, false, [0x31, 0x2E, 0x30]) ∧
    (out (exec .linkUp base)).map (fun t => (t.verdict, t.lstate)) = some (.done .refused, .up) := by decide

/-- V109, V110; between the two steps the block is in `BRINGUP` and the caller waits (R21, R9). -/
theorem test_linkUp_succeeds :
    (out (exec .linkUp (plugged [hs 1 0]))).map (fun t => (t.lstate, t.linkBound, t.verdict, cmdDone t)) =
      some (.bringup, true, .held, false) ∧
    (out (runSequence .linkUp 1 { plugged [hs 1 0] with now := 77 })).map
      (fun t => ((t.verdict, t.lstate, t.linkBound, t.lastXfer), t.sbArmed, t.wstate, t.idValid)) =
      some ((.done .ok, .up, true, 77), true, .idle, true) ∧
    (out (runSequence .linkUp 1 { plugged [hs 1 0] with sbLevel := true })).map
      (fun t => (t.lstate, t.wstate, t.sbPrev)) = some (.up, .pending, true) := by decide

/-- V112, V113, V114. -/
theorem test_linkDown :
    (out (exec .linkDown downState)).map State.verdict = some (.done .refused) ∧
    (out (exec .linkDown { base with oq := ringOf [0x7F], ledPending := true, ledDuration := 1, idValid := true, idHw := [] })).map
      (fun t => ((t.lstate, t.linkBound, ringList t.oq), t.ledPending, t.idHw, t.idValid)) =
      some ((.down, false, []), false, [0x31, 0x2E, 0x30], false) ∧
    (out (exec .linkDown (running .cont))).map (fun t => (t.lstate, t.sbArmed, t.verdict)) = some (.shutdown, false, .held) := by
  decide

/-- The example of R292. -/
theorem test_quiesce :
    (out (exec .quiesce { running .cont with lstate := .shutdown })).map State.verdict = some .held ∧
    (out (exec .quiesce { base with lstate := .shutdown })).map State.verdict = some (.done .ok) := by decide

/-- The slot words while slot 1 is composed, and elsewhere (R95, R175 to R177). -/
theorem test_outbound_slot_words :
    (out (exec (.slotMidi 0x90) (running .compose1))).map State.frameOut = some (frameOf 0 0 0x0F 0x90) ∧
    (out (exec (.slotLed 0x20) (running .compose0))).map State.frameOut = some (frameOf 0xF0 0x20 0 0) ∧
    (out (exec .slotEmpty { running .compose0 with frameOut := frameOf 1 2 3 4 })).map State.frameOut = some (frameOf 0 0 3 4) ∧
    (out (exec (.slotRsvd 1 1) (running .compose0))).map (fun t => (t.verdict, t.frameOut)) = some (.done .refused, frameOf 0 0 0 0) := by
  decide

/-- The inbound slot words while slot 0 is delivered and elsewhere (R183, R184, R170), and the handshake words (R98, R99). -/
theorem test_inbound_and_handshake_words :
    (out (exec .rxNone base)).map (fun t => (t.verdict, t.iq)) = some (.done .ok, Ring.empty) ∧
    (out (exec (.rxData 0xF0 0x20) (running .deliver0))).map (fun t => (ringList t.iq, t.hadData, t.marked)) = some ([0x20], true, true) ∧
    (out (exec (.rxData 0xF0 0x20) base)).map (fun t => (ringList t.iq, t.verdict, t.marked)) = some ([], .done .refused, true) ∧
    (out (exec .hsReq base)).map (fun t => (t.linkTx, t.verdict)) = some ([0, 0], .done .ok) ∧
    (out (exec .hsReq (bringing []))).map (fun t => (t.linkTx, t.verdict, t.marked)) = some ([], .done .refused, true) := by decide

/-- V4, V5: a valid count goes on to the first field, an invalid response rolls the bring-up back; with no handshake waiting a response
is refused (R99, R127, R303). -/
theorem test_handshake_responses :
    (out (exec (.hsValid 0x80 0x04) (bringing [failed]))).map (fun t => (t.parse, t.verdict, t.answers)) =
      some (.fields 4 0 staged0, .held, [failed]) ∧
    (out (exec .hsInvalid (bringing []))).map (fun t => (t.lstate, t.linkBound, t.verdict)) = some (.down, false, .done .protocolError) ∧
    (out (exec .hsInvalid base)).map (fun t => (t.verdict, t.marked)) = some (.done .refused, true) := by decide

/-! ### Steps of the agents -/

/-- A scheduled worker takes the micro-step its phase names; a command word runs; the own step of a held drain requests a cycle. -/
theorem test_steps :
    (out (step { running .decay with sched := [.worker], usage := 2000, elapsed := 2 })).map (fun t => (t.usage, t.sched)) =
      some (0, []) ∧
    (out (step (State.withFetchWord base 16 0x2000))).map (fun t => (t.outActive, t.sched)) = some (true, []) ∧
    (out (step { base with oq := ringOf [0x7F], drainWait := true })).map (fun t => (t.wstate, t.verdict)) =
      some (.pending, .held) ∧
    (out (step { base with lstate := .shutdown, sbArmed := false })).map (fun t => (t.lstate, t.verdict)) = some (.down, .done .ok) ∧
    (out (step { base with sched := [.rst], oq := ringOf [0x7F], drainWait := true })).map
      (fun t => (t.lstate, t.oq, t.verdict, t.marked)) = some (.down, Ring.empty, .done .refused, true) := by decide

/-! ### Witnesses: for each obligation with hypotheses, data that meet them, for each clause and at its boundary values -/

/-- The scripted answers of `sent` are what the peer sends. -/
theorem sent_sends (ps : List Byte) (r : Byte) (rest : List Config.LinkAnswer) (s : State) (h : s.answers = sent r ps ++ rest) :
    PeerSends s ps := by
  induction ps generalizing r s with
  | nil => intro k p hk; simp at hk
  | cons p ps ih =>
    have h0 : answerAt s 0 = hs (if r = 0 then 1 else r) p := by simp [answerAt, h, sent]
    have hr : (if r = 0 then (1 : Byte) else r) ≠ 0 := by split <;> simp_all
    refine (peerSends_cons s p ps).2 ⟨?_, ih (r + 1) (afterHandshakes 1 s) (by simp [afterHandshakes, h, sent])⟩
    rw [h0]
    exact ⟨by rw [validAnswer, hs, Bool.true_and, bne_iff_ne]; exact hr, rfl⟩

theorem base_inv : Inv base := by constructor <;> first | decide | simp [base, State.reset]

theorem downState_inv : Inv downState := by constructor <;> first | decide | simp [downState, State.reset]

theorem bringing_inv (as : List Config.LinkAnswer) : Inv (bringing as) := by
  constructor <;> first | exact downState_inv.1 | exact downState_inv.2 | exact downState_inv.3 | simp [bringing, downState, State.reset]

theorem downState_atReset : AtResetValues downState := by constructor <;> decide

theorem downState_downIsReset : DownIsReset downState := ⟨fun _ => downState_atReset, fun h => by simp [downState, State.reset] at h⟩

theorem bringing_downIsReset (as : List Config.LinkAnswer) : DownIsReset (bringing as) := by
  refine ⟨fun h => by simp [bringing] at h, fun _ => ?_⟩
  have h := downState_atReset
  exact ⟨⟨rfl, rfl, rfl, rfl⟩, h.worker, h.datapath, h.led, h.queues, h.endpoints, h.bridge, h.identity⟩

theorem exampleFields_frame : fieldsFrame exampleFields := ⟨by decide, by decide⟩

/-- A caller held in `OUT_DRAIN` with the worker idle. -/
def heldDrain : State := { base with oq := ringOf [0x7F], drainWait := true }

/-- A `LINK_DOWN` held while the worker runs, and the same with the worker idle. -/
def heldDown (w : WState) : State := { base with lstate := .shutdown, sbArmed := false, wstate := w, sched := [.host] }

theorem heldDrain_inv : Inv heldDrain := by constructor <;> first | decide | simp [heldDrain, base, State.reset]

theorem heldDown_inv (w : WState) : Inv (heldDown w) := by
  cases w <;> constructor <;> first | decide | simp [heldDown, base, State.reset]

/-- A block read with one data word to come (R128). -/
def reading (s : State) : State := { s with block := some ⟨2, 1, [0xAA]⟩ }

theorem witness_DecodeEncodeRoundTrip :
    Instr.wf (.slotRsvd 0xFF 0xFF) = true ∧ Instr.wf (.rxData 0x01 0x00) = true ∧ Instr.wf (.onElapsed 4000000000) = true := by decide

theorem witness_DecodedInstructionReencodes :
    decode ⟨.slotOut, 0x0001, Args.zero⟩ = .ok (.slotRsvd 0x00 0x01) ∧
    decode ⟨.hsResp, 0x0100, Args.zero⟩ = .ok (.hsValid 0x01 0x00) ∧ Instr.hsValid 0x01 0x00 ≠ .hsInvalid := ⟨rfl, rfl, by decide⟩

theorem witness_CommandPortRefusesUnlistedCodes :
    (∀ op ∈ [0x00, 0x03, 0x0F, 0x24, 0x2D, 0x34, 0x3D, 0x3F, 0x40, 0x62, 0xFF],
      op ∉ [0x01, 0x02, 0x10, 0x11, 0x20, 0x21, 0x22, 0x23, 0x28, 0x29, 0x2A, 0x2B, 0x2C, 0x30, 0x31, 0x32, 0x33, 0x3E]) ∧
    3 < (4 : Byte).toNat ∧ 3 < (0xFF : Byte).toNat ∧
    hiByte 0x4202 = 0x42 ∧ 1 < (loByte 0x4202).toNat ∧ hiByte 0x45FF = 0x45 ∧ 1 < (loByte 0x45FF).toNat ∧
    (hiByte 0x4A00).toNat ∉ [0x40, 0x41, 0x42, 0x43, 0x44, 0x45, 0x46, 0x47, 0x48, 0x49] ∧
    hiByte 0x4802 = 0x48 ∧ 1 < (loByte 0x4802).toNat ∧
    (hiByte 0x5500).toNat ∉ [0x50, 0x51, 0x52, 0x53, 0x54, 0x58, 0x59, 0x5A, 0x60, 0x61, 0x62] ∧ (0x0001 : Word) ≠ 0x0000 ∧
    ({ base with sched := [.op ⟨.uop, 0x4A00, Args.zero⟩, .worker] } : State).sched = .op ⟨.uop, 0x4A00, Args.zero⟩ :: [.worker] ∧
    decode ⟨.uop, 0x4A00, Args.zero⟩ = .error (.unknownOp .uop 0x4A) ∧ decode ⟨.fn, 0x5500, Args.zero⟩ = .error (.unknownOp .fn 0x55) ∧
    decode ⟨.uop, 0x4802, Args.zero⟩ = .error (.notOneBit 0x02) ∧ decode ⟨.hsReq, 0x0001, Args.zero⟩ = .error (.notTheRequest 0x0001) := by
  refine ⟨?_, ?_, ?_, ?_, ?_, ?_, ?_, ?_, ?_, ?_, ?_, ?_, rfl, rfl, rfl, rfl, rfl⟩ <;> decide

theorem witness_StepRunsDecodedInstruction :
    ({ base with sched := [.op ⟨.cmd, 0x1020, Args.zero⟩, .worker] } : State).sched = .op ⟨.cmd, 0x1020, Args.zero⟩ :: [.worker] ∧
    decode ⟨.cmd, 0x1020, Args.zero⟩ = .ok (.flashLed 0x20) ∧ decodeTableWord 16 0x1020 = some (.flashLed 0x20) := ⟨rfl, rfl, by decide⟩

theorem witness_EveryAgentTakesItsOwnStep :
    (({ running .deliver1 with sched := [.worker] } : State).sched = [.worker] ∧ (running .deliver1).wstate = .running ∧
      microPhase (.deliverSlot .slot1) = some .deliver1 ∧ (running .deliver1).phase = .deliver1) ∧
    (∃ s : State, s.sched = [.host] ∧ s.wstate = .idle ∧ s.block ≠ none) ∧
    (∃ s : State, s.sched = [.host] ∧ s.wstate = .idle ∧ s.block = none ∧ s.parse = .start) ∧
    (∃ s : State, s.sched = [.host] ∧ s.wstate = .idle ∧ s.block = none ∧ s.parse = .fields 1 254 staged0) ∧
    (∃ s : State, s.sched = [.host] ∧ s.wstate = .idle ∧ s.block = none ∧ s.parse = .idle ∧ s.lstate ≠ .shutdown) ∧
    (∃ s : State, s.sched = [.host] ∧ s.wstate = .pending ∧ s.lstate ≠ .shutdown ∧ s.block ≠ none) ∧
    (∃ s : State, s.sched = [.host] ∧ s.wstate = .running ∧ s.lstate ≠ .shutdown) ∧
    (({ base with sched := [.clock 0] } : State).sched = [.clock 0] ∧ ({ base with sched := [.ocAppend [1]] } : State).sched = [.ocAppend [1]] ∧
      ({ base with sched := [.peerPresent true] } : State).sched = [.peerPresent true] ∧
      ({ base with sched := [.peerAnswers [failed]] } : State).sched = [.peerAnswers [failed]]) :=
  ⟨by decide, ⟨{ reading base with sched := [.host] }, by decide⟩, ⟨{ bringing [] with sched := [.host] }, by decide⟩,
    ⟨{ bringing [] with sched := [.host], parse := .fields 1 254 staged0 }, by decide⟩, ⟨{ base with sched := [.host] }, by decide⟩,
    ⟨{ reading base with sched := [.host], wstate := .pending }, by decide⟩, ⟨{ running .cont with sched := [.host] }, by decide⟩, by decide⟩

theorem witness_BlockStepsOfItsOwnAccord :
    (Inv heldDrain ∧ heldDrain.sched = [] ∧ heldDrain.drainWait = true ∧ heldDrain.wstate = .idle ∧ heldDrain.oq.count ≠ 0) ∧
    (∃ s : State, Inv s ∧ s.sched = [] ∧ s.drainWait = true ∧ s.oq.count = 0) ∧
    (∃ s : State, Inv s ∧ s.sched = [] ∧ s.drainWait = true ∧ s.oq.count ≠ 0 ∧ s.wstate = .running ∧ s.phase = .cont) ∧
    (∃ s : State, Inv s ∧ s.sched = [] ∧ s.drainWait = false ∧ s.wstate = .idle ∧ s.block ≠ none) ∧
    (∃ s : State, Inv s ∧ s.sched = [] ∧ s.drainWait = false ∧ s.wstate = .idle ∧ s.block = none ∧ s.parse = .start) ∧
    (∃ s : State, Inv s ∧ s.sched = [] ∧ s.drainWait = false ∧ s.wstate = .idle ∧ s.block = none ∧ s.lstate = .shutdown) ∧
    (Inv base ∧ base.sched = [] ∧ base.drainWait = false ∧ base.wstate = .idle ∧ base.parse = .idle ∧ base.lstate ≠ .shutdown) :=
  ⟨⟨heldDrain_inv, by decide⟩,
    ⟨{ base with drainWait := true }, by constructor <;> first | decide | simp [base, State.reset], by decide⟩,
    ⟨{ heldDrain with wstate := .running, phase := .cont }, by constructor <;> first | decide | simp [heldDrain, base, State.reset], by decide⟩,
    ⟨reading base, by constructor <;> first | decide | simp [reading, base, State.reset], by decide⟩,
    ⟨bringing [], bringing_inv [], by decide⟩,
    ⟨{ heldDown .idle with sched := [] }, by constructor <;> first | decide | simp [heldDown, base, State.reset], by decide⟩,
    base_inv, by decide⟩

theorem witness_HeldCallerKeepsDoneLow :
    (heldDrain.lstate = .up ∧ heldDrain.oq.count ≠ 0) ∧ ((bringing []).lstate = .bringup ∧ (heldDown .idle).lstate = .shutdown) ∧
    (Inv heldDrain ∧ heldDrain.drainWait = true) ∧
    step heldDrain = .next { heldDrain with wstate := .pending, verdict := .held, result := .none } :=
  ⟨by decide, by decide, ⟨heldDrain_inv, rfl⟩, rfl⟩

theorem witness_HardwareResetGivesTheTable :
    (∃ s : State, s.sched = .rst :: [.worker] ∧ s.drainWait = true) ∧ (∃ s : State, s.sched = .rst :: [] ∧ s.drainWait = false ∧ s.lstate = .down) ∧
    ∃ s : State, s.sched = .rst :: [] ∧ s.lstate = .bringup :=
  ⟨⟨{ heldDrain with sched := [.rst, .worker] }, by decide⟩, ⟨{ downState with sched := [.rst] }, by decide⟩,
    ⟨{ bringing [] with sched := [.rst] }, by decide⟩⟩

theorem witness_OutboundSlotWordsArePlaced :
    (∃ s : State, s.lstate = .up ∧ s.wstate = .running ∧ s.phase = composePhase .slot0) ∧
    (∃ s : State, s.lstate = .shutdown ∧ s.wstate = .running ∧ s.phase = composePhase .slot1) ∧
    (∃ s : State, s.wstate = .pending ∧ s.phase = .compose0 ∧ ¬(s.wstate = .running ∧ (s.phase = .compose0 ∨ s.phase = .compose1))) ∧
    ∃ s : State, s.wstate = .running ∧ ¬(s.wstate = .running ∧ (s.phase = .compose0 ∨ s.phase = .compose1)) :=
  ⟨⟨running .compose0, by decide⟩, ⟨{ heldDown .running with phase := .compose1 }, by decide⟩,
    ⟨{ base with wstate := .pending, phase := .compose0 }, by decide⟩, ⟨running .xchg, by decide⟩⟩

theorem witness_EmptyInboundSlotDoesNothing : hiByte 0x0000 = 0 ∧ hiByte 0x00FF = 0 := by decide

theorem witness_InboundDataWordDelivers :
    ((0x01 : Byte) ≠ 0 ∧ (0xFF : Byte) ≠ 0) ∧
    (∃ s : State, s.lstate = .shutdown ∧ s.iq.ok = true ∧ s.wstate = .running ∧ s.phase = deliverPhase .slot1 ∧ s.iq.count = 4096) ∧
    (∃ s : State, s.lstate = .up ∧ s.iq.ok = true ∧ s.wstate = .running ∧ s.phase = deliverPhase .slot0 ∧ s.iq.count < 4096 ∧
      s.iq.count = 16 ∧ s.cbFired = false ∧ s.readyCb = true) ∧
    (∃ s : State, s.lstate = .up ∧ s.iq.ok = true ∧ s.wstate = .running ∧ s.phase = deliverPhase .slot0 ∧ s.iq.count = 4095 ∧
      ¬(s.iq.count = 16 ∧ s.cbFired = false ∧ s.readyCb = true)) ∧
    ¬(base.wstate = .running ∧ (base.phase = .deliver0 ∨ base.phase = .deliver1)) :=
  ⟨by decide, ⟨{ heldDown .running with iq := zerosRing 4096, phase := .deliver1 }, by decide⟩,
    ⟨{ running .deliver0 with iq := zerosRing 16, readyCb := true }, by decide⟩, ⟨{ running .deliver0 with iq := zerosRing 4095 }, by decide⟩,
    by decide⟩

theorem witness_HandshakeWords :
    (base.wstate ≠ .running ∧ base.parse = .idle ∧ base.block = none ∧ base.linkBound = true) ∧
    (downState.wstate ≠ .running ∧ downState.parse = .idle ∧ downState.block = none ∧ downState.linkBound = false) ∧
    ((running .xchg).wstate = .running ∧ (bringing []).parse ≠ .idle ∧ (reading base).block ≠ none) ∧
    (Inv (bringing []) ∧ (bringing []).lstate = .bringup) ∧
    ((reading base).wstate ≠ .running ∧ (reading base).linkBound = true ∧ (reading base).parse = .idle ∧
      (reading base).block = some ⟨2, 1, [0xAA]⟩) ∧
    ((0x80 : Byte) ≠ 0 ∧ (bringing []).wstate ≠ .running ∧ (bringing []).linkBound = true ∧ (bringing []).parse = .start ∧
      (bringing []).block = none ∧ (0xFF : Byte) ≠ 0) ∧
    (∃ s : State, s.wstate ≠ .running ∧ s.linkBound = true ∧ s.parse = .fields 1 254 staged0 ∧ s.block = none) ∧
    (∃ s : State, s.wstate ≠ .running ∧ s.linkBound = true ∧ s.block = some ⟨2, 2, []⟩ ∧ 1 < 2) ∧
    (base.parse = .idle ∧ base.block = none) ∧ downState.linkBound = false :=
  ⟨by decide, by decide, by decide, ⟨bringing_inv [], rfl⟩, by decide, by decide,
    ⟨{ bringing [] with parse := .fields 1 254 staged0 }, by decide⟩, ⟨{ base with block := some ⟨2, 2, []⟩ }, by decide⟩, by decide, rfl⟩

theorem witness_FrameExchangeOutcomes :
    (∃ s : State, s.wstate ≠ .running ∧ s.parse = .idle ∧ s.block = none ∧ s.linkBound = false) ∧
    (∃ s : State, s.wstate ≠ .running ∧ s.parse = .idle ∧ s.block = none ∧ s.linkBound = true ∧ (answerAt s 0).ok = false) ∧
    (∃ s : State, s.wstate ≠ .running ∧ s.parse = .idle ∧ s.block = none ∧ s.linkBound = true ∧ (answerAt s 0).ok = true) ∧
    ((running .xchg).wstate = .running ∧ (bringing []).parse ≠ .idle ∧ (reading base).block ≠ none) :=
  ⟨⟨downState, by decide⟩, ⟨{ base with answers := [failed] }, by decide⟩, ⟨{ base with answers := [answered 0 0 0 0] }, by decide⟩, by decide⟩

theorem witness_HandshakeExchangeOutcomes :
    (∃ s : State, s.wstate ≠ .running ∧ s.parse = .idle ∧ s.block = none ∧ s.linkBound = false) ∧
    (∃ s : State, s.wstate ≠ .running ∧ s.parse = .idle ∧ s.block = none ∧ s.linkBound = true ∧ (answerAt s 0).ok = false) ∧
    (∃ s : State, s.wstate ≠ .running ∧ s.parse = .idle ∧ s.block = none ∧ s.linkBound = true ∧ (answerAt s 0).ok = true ∧
      (answerAt s 0).b0 = 0) ∧
    ((bringing []).wstate ≠ .running ∧ (bringing []).block = none ∧ (bringing []).parse = .start) ∧ (running .xchg).wstate = .running :=
  ⟨⟨downState, by decide⟩, ⟨{ base with answers := [failed] }, by decide⟩, ⟨{ base with answers := [hs 0 0xFF] }, by decide⟩, by decide⟩

theorem witness_BlockReadSucceeds :
    (∃ s : State, s.wstate ≠ .running ∧ s.parse = .idle ∧ s.block = none ∧ s.linkBound = true ∧ validAnswer (answerAt s 0) = true ∧
      0 < (answerAt s 0).b1.toNat ∧ (answerAt s 0).b1.toNat = (2 : Byte).toNat) ∧
    (∃ s : State, s.wstate ≠ .running ∧ s.block = none ∧ s.linkBound = true ∧ s.parse = .fields 1 254 staged0 ∧
      validAnswer (answerAt s 0) = true ∧ (answerAt s 0).b1.toNat = (0xFF : Byte).toNat) ∧
    (∃ s : State, s.wstate ≠ .running ∧ s.linkBound = true ∧ s.block = some ⟨2, 2, []⟩ ∧ validAnswer (answerAt s 0) = true) ∧
    (∃ s : State, s.wstate ≠ .running ∧ s.parse = .idle ∧ s.linkBound = true ∧ s.block = some ⟨2, 1, [0xAA]⟩ ∧
      validAnswer (answerAt s 0) = true) ∧
    (∃ s : State, s.wstate = .idle ∧ s.parse = .idle ∧ s.block = none ∧ s.linkBound = true ∧
      ([0xAA, 0xBB] : List Byte).length = (2 : Byte).toNat ∧ PeerSends s (blockPayloads [0xAA, 0xBB])) ∧
    ∃ s : State, s.wstate = .idle ∧ s.parse = .idle ∧ s.block = none ∧ s.linkBound = true ∧ ([] : List Byte).length ≤ (0 : Byte).toNat ∧
      PeerSends s (blockPayloads []) :=
  ⟨⟨{ base with answers := [hs 0x80 2] }, by decide⟩,
    ⟨{ bringing [hs 1 0xFF] with parse := .fields 1 254 staged0 }, by decide⟩, ⟨{ base with answers := [hs 1 0xAA], block := some ⟨2, 2, []⟩ }, by decide⟩,
    ⟨{ reading base with answers := [hs 0xFF 0xBB] }, by decide⟩,
    ⟨{ base with answers := sent 0xFE (blockPayloads [0xAA, 0xBB]) ++ [failed] }, rfl, rfl, rfl, rfl, rfl, sent_sends _ _ _ _ rfl⟩,
    ⟨{ base with answers := sent 1 (blockPayloads []) ++ [] }, rfl, rfl, rfl, rfl, by decide, sent_sends _ _ _ _ rfl⟩⟩

theorem witness_BlockReadFailsAtTheFirstBadWord :
    (∃ s : State, s.wstate = .idle ∧ s.parse = .idle ∧ s.block = none ∧ s.linkBound = false) ∧
    (∃ s : State, s.wstate = .idle ∧ s.parse = .idle ∧ s.block = none ∧ s.linkBound = true ∧ validAnswer (answerAt s 0) = false ∧
      (answerAt s 0).ok = true) ∧
    (∃ s : State, s.wstate = .idle ∧ s.parse = .idle ∧ s.block = none ∧ s.linkBound = true ∧ validAnswer (answerAt s 0) = true ∧
      (2 : Byte).toNat + 1 = (answerAt s 0).b1.toNat) ∧
    (∃ s : State, s.wstate = .idle ∧ s.parse = .idle ∧ s.block = none ∧ s.linkBound = true ∧ (3 : Byte).toNat ≤ (3 : Byte).toNat ∧
      ([0xAA, 0xBB] : List Byte).length + 1 = (3 : Byte).toNat ∧ PeerSends s [3, 0xAA, 0xBB] ∧ validAnswer (answerAt s 3) = false) ∧
    ((running .cont).wstate = .running ∧ (reading base).block ≠ none ∧ (bringing []).parse = .start) ∧
    ({ bringing [] with parse := .fields 1 0 staged0 } : State).parse = .fields 1 0 staged0 ∧ (0xFE : Byte) ≠ 0xFF :=
  ⟨⟨downState, by decide⟩, ⟨{ base with answers := [hs 0 5] }, by decide⟩, ⟨{ base with answers := [hs 1 3] }, by decide⟩,
    ⟨{ base with answers := sent 1 [3, 0xAA, 0xBB] ++ [hs 0 0xCC] }, rfl, rfl, rfl, rfl, by decide, by decide, sent_sends _ _ _ _ rfl,
      by decide⟩, by decide⟩

theorem witness_BlockReadIsWholeOrZero : base.wstate = .idle ∧ base.parse = .idle ∧ base.block = none := by decide

theorem witness_IdentityPublishedFromTranscript :
    (∃ s : State, Inv s ∧ s.parse = .start ∧ validAnswer (answerAt s 0) = true ∧ (answerAt s 0).b1 = 1) ∧
    (∃ s : State, Inv s ∧ s.parse = .start ∧ fieldsFrame exampleFields ∧ fieldsFit exampleFields = true ∧
      PeerSends s (identityPayloads exampleFields)) ∧
    (∃ s : State, Inv s ∧ s.parse = .start ∧ fieldsFrame [] ∧ fieldsFit [] = true ∧ PeerSends s (identityPayloads [])) ∧
    fieldsFit [[1, 2], List.replicate 10 0x30, List.replicate 12 0xAB, [0, 0xFF], [0xEE]] = true :=
  ⟨⟨bringing [hs 0xFF 1], bringing_inv _, by decide⟩,
    ⟨bringing (sent 0x80 (identityPayloads exampleFields) ++ [failed]), bringing_inv _, rfl, exampleFields_frame, by decide,
      sent_sends _ _ _ _ rfl⟩,
    ⟨bringing (sent 1 (identityPayloads []) ++ []), bringing_inv _, rfl, ⟨by decide, by decide⟩, by decide, sent_sends _ _ _ _ rfl⟩,
    by decide⟩

/-- A good firmware field, and a serial number of eleven bytes, one too many (V83). -/
def misfitFields : List (List Byte) := [[1, 2]] ++ [List.replicate 11 0x30]

/-- A misfit after a good field; an invalid answer at the count, at a length, and in a discarded field (V78, V83, V88). -/
theorem witness_IdentityParseStopsAtTheFirstFailure :
    (∃ s : State, Inv s ∧ DownIsReset s ∧ s.parse = .start ∧ ([[1, 2]] : List (List Byte)).length < (2 : Byte).toNat ∧
      (∀ f ∈ misfitFields, f.length ≤ 255) ∧ fieldsFit [[1, 2]] = true ∧ fieldsFit misfitFields = false ∧
      PeerSends s (2 :: misfitFields.flatMap blockPayloads)) ∧
    (fieldsFit [[1]] = false ∧ fieldsFit [[1, 2, 3]] = false ∧ fieldsFit [[1, 2], [], List.replicate 13 0xAB] = false ∧
      fieldsFit [[1, 2], [], [], []] = false) ∧
    (∃ s : State, CutTranscript [] ∧ PeerSends s [] ∧ validAnswer (answerAt s 0) = false) ∧
    (∃ s : State, Inv s ∧ DownIsReset s ∧ s.parse = .start ∧ CutTranscript (5 :: exampleFields.flatMap blockPayloads) ∧
      PeerSends s (5 :: exampleFields.flatMap blockPayloads) ∧
      validAnswer (answerAt s (5 :: exampleFields.flatMap blockPayloads).length) = false) ∧
    CutTranscript (5 :: exampleFields.flatMap blockPayloads ++ 2 :: [0xEE]) ∧ base.parse ≠ .start :=
  ⟨⟨bringing (sent 1 (2 :: misfitFields.flatMap blockPayloads) ++ []), bringing_inv _, bringing_downIsReset _,
      rfl, by decide, by decide, by decide, by decide, sent_sends _ _ _ _ rfl⟩,
    by decide, ⟨bringing [failed], .count, sent_sends _ 1 [failed] _ rfl, by decide⟩,
    ⟨bringing (sent 1 (5 :: exampleFields.flatMap blockPayloads) ++ [hs 0 0]), bringing_inv _, bringing_downIsReset _, rfl,
      .length 5 exampleFields (by decide) (by decide) (by decide), sent_sends _ _ _ _ rfl, by decide⟩,
    .data 5 exampleFields 2 [0xEE] (by decide) (by decide) (by decide) (by decide), by decide⟩

theorem witness_IdentityParseIsAllOrNothing :
    Inv (bringing []) ∧ DownIsReset (bringing []) ∧ IdentityLimits (bringing []) ∧ (bringing []).lstate = .bringup ∧
      step { bringing [] with sched := [.clock 1] } = .next { bringing [] with now := 1 } :=
  ⟨bringing_inv _, bringing_downIsReset _, by constructor <;> first | decide | simp [bringing, downState, State.reset], rfl, rfl⟩

theorem witness_IdentityAccessors : 3 < (4 : Byte).toNat ∧ 3 < (0xFF : Byte).toNat := by decide

theorem witness_IdentityImmutableWhileUp :
    Inv base ∧ step { base with sched := [.clock 1] } = .next { base with now := 11 } ∧ base.lstate = .up := ⟨base_inv, rfl, rfl⟩

theorem witness_LinkUpBringsTheLinkUp :
    ∃ s : State, s.lstate = .down ∧ s.peerPresent = true ∧ fieldsFrame exampleFields ∧ fieldsFit exampleFields = true ∧
      PeerSends s (identityPayloads exampleFields) :=
  ⟨plugged (sent 0xF9 (identityPayloads exampleFields) ++ [failed]), rfl, rfl, exampleFields_frame, by decide, sent_sends _ _ _ _ rfl⟩

theorem witness_LinkUpIsAllOrNothing :
    (Inv downState ∧ DownIsReset downState ∧ downState.lstate = .down ∧ downState.peerPresent = false) ∧
    (Inv (plugged []) ∧ DownIsReset (plugged []) ∧ (plugged []).lstate = .down ∧ (plugged []).peerPresent = true) ∧
    base.lstate ≠ .down ∧ (bringing []).lstate ≠ .down :=
  ⟨⟨downState_inv, downState_downIsReset, by decide⟩,
    ⟨by constructor <;> first | decide | simp [plugged, downState, State.reset],
      ⟨fun _ => by constructor <;> decide, fun h => by simp [plugged, downState, State.reset] at h⟩, by decide⟩, by decide⟩

theorem witness_LinkDownShutsTheLink :
    base.lstate = .up ∧ base.wstate = .idle ∧ (running .refill).lstate = .up ∧ (running .refill).wstate ≠ .idle ∧
    ({ base with wstate := .pending } : State).wstate ≠ .idle := by decide

theorem witness_HeldLinkDownCompletesWhenIdle :
    (Inv (heldDown .idle) ∧ (heldDown .idle).lstate = .shutdown ∧ (heldDown .idle).sched = .host :: [] ∧ (heldDown .idle).wstate = .idle ∧
      (heldDown .idle).block = none) ∧
    (Inv (heldDown .running) ∧ (heldDown .running).lstate = .shutdown ∧ (heldDown .running).wstate ≠ .idle) ∧
    ∃ s : State, Inv s ∧ s.lstate = .shutdown ∧ s.sched = .host :: [] ∧ s.wstate = .idle ∧ s.block ≠ none :=
  ⟨⟨heldDown_inv _, by decide⟩, ⟨heldDown_inv _, by decide⟩,
    ⟨reading (heldDown .idle), by constructor <;> first | decide | simp [reading, heldDown, base, State.reset], by decide⟩⟩

theorem witness_CommandsRefusedOutsideUp :
    upOnly .iqDrain = true ∧ upOnly (.oqPush 0) = true ∧ downState.lstate ≠ .up ∧ (heldDown .idle).lstate ≠ .up ∧
    ({ base with lstate := .bringup } : State).lstate ≠ .up := by decide

/-- A step of each kind the table of R294 names, and the invariants. -/
theorem witness_LifecycleTransitions :
    (Inv base ∧ base.wstate ≠ .pending) ∧
    (out (step (State.withFetchWord (plugged [hs 1 0]) 16 0x0100))).map State.lstate = some .bringup ∧
    (out (step (bringing [hs 1 0]))).map State.lstate = some .up ∧
    (out (step (bringing [failed]))).map State.lstate = some .down ∧
    (out (step (State.withFetchWord base 16 0x0200))).map State.lstate = some .down ∧
    (out (step (State.withFetchWord (running .cont) 16 0x0200))).map State.lstate = some .shutdown ∧
    (out (step (heldDown .idle))).map State.lstate = some .down ∧
    (out (step { base with sched := [.rst] })).map State.lstate = some .down ∧
    (out (step (State.withFetchWord base 16 0x1100))).map State.wstate = some .pending :=
  ⟨⟨base_inv, by decide⟩, by decide, by decide, by decide, by decide, by decide, by decide, by decide, by decide⟩

theorem witness_FlashLedSetsTheCommand : base.lstate = .up ∧ downState.lstate ≠ .up := by decide

theorem witness_OnlyFlashLedMakesACommandPending :
    base.ledPending = false ∧ (out (step (State.withFetchWord base 16 0x1020))).map State.ledPending = some true := by decide

theorem witness_ComposeSlotChoosesLedMidiEmpty :
    (∃ s : State, s.oq.ok = true ∧ s.wstate = .running ∧ s.phase = composePhase .slot0 ∧ s.ledPending = true) ∧
    (∃ s : State, s.oq.ok = true ∧ s.wstate = .running ∧ s.phase = composePhase .slot1 ∧ s.ledPending = false ∧
      s.usage + 1000 < 127000 ∧ s.usage = 125999 ∧ s.oq.count ≠ 0) ∧
    (∃ s : State, s.oq.ok = true ∧ s.wstate = .running ∧ s.phase = composePhase .slot0 ∧ s.ledPending = false ∧ s.usage = 126000 ∧
      s.oq.count ≠ 0 ∧ ¬(s.usage + 1000 < 127000 ∧ s.oq.count ≠ 0)) ∧
    ∃ s : State, s.oq.ok = true ∧ s.wstate = .running ∧ s.phase = composePhase .slot0 ∧ s.ledPending = false ∧ s.usage = 0 ∧
      ¬(s.usage + 1000 < 127000 ∧ s.oq.count ≠ 0) :=
  ⟨⟨{ running .compose0 with ledPending := true }, by decide⟩,
    ⟨{ running .compose1 with oq := ringOf [0xA1], usage := 125999 }, by decide⟩,
    ⟨{ running .compose0 with oq := ringOf [0xA1], usage := 126000 }, by decide⟩, ⟨running .compose0, by decide⟩⟩

theorem witness_ComposedFrameCarriesTheQueueInOrder :
    ∃ s : State, s.oq.ok = true ∧ s.wstate = .running ∧ s.phase = .compose0 ∧ s.ledPending = true ∧ ringList s.oq = [0x90, 0x3C, 0x7F] :=
  ⟨{ running .compose0 with oq := ringOf [0x90, 0x3C, 0x7F], ledPending := true, ledDuration := 0x20 }, by decide⟩

theorem witness_DeliverSlotStoresOrDrops :
    (∃ s : State, s.iq.ok = true ∧ s.wstate = .running ∧ s.phase = deliverPhase .slot0 ∧ (frameSlot s.frameIn .slot0).tag = 0) ∧
    (∃ s : State, s.iq.ok = true ∧ s.wstate = .running ∧ s.phase = deliverPhase .slot1 ∧ (frameSlot s.frameIn .slot1).tag ≠ 0 ∧
      s.iq.count = 4096) ∧
    (∃ s : State, s.iq.ok = true ∧ s.wstate = .running ∧ s.phase = deliverPhase .slot0 ∧ (frameSlot s.frameIn .slot0).tag ≠ 0 ∧
      s.iq.count < 4096 ∧ s.iq.count = 16 ∧ s.cbFired = false ∧ s.readyCb = true) ∧
    ∃ s : State, s.iq.ok = true ∧ s.wstate = .running ∧ s.phase = deliverPhase .slot0 ∧ (frameSlot s.frameIn .slot0).tag ≠ 0 ∧
      s.iq.count = 4095 ∧ ¬(s.iq.count = 16 ∧ s.cbFired = false ∧ s.readyCb = true) :=
  ⟨⟨{ running .deliver0 with frameIn := frameOf 0 0x55 0 0 }, by decide⟩,
    ⟨{ running .deliver1 with frameIn := frameOf 0 0 1 2, iq := zerosRing 4096 }, by decide⟩,
    ⟨{ running .deliver0 with frameIn := frameOf 1 2 0 0, iq := zerosRing 16, readyCb := true }, by decide⟩,
    ⟨{ running .deliver0 with frameIn := frameOf 1 2 0 0, iq := zerosRing 4095 }, by decide⟩⟩

theorem witness_DeliveredFrameKeepsOrder :
    ∃ s : State, s.iq.ok = true ∧ s.wstate = .running ∧ s.phase = .deliver0 ∧ s.iq.count = 4095 ∧ inboundValues s.frameIn = [0x20, 0x7F] :=
  ⟨{ running .deliver0 with iq := zerosRing 4095, frameIn := frameOf 0xF0 0x20 1 0x7F }, by decide⟩

theorem witness_OutboundFrameStaysLegal :
    (legalSlot base.frameOut.slot0 = true ∧ legalSlot base.frameOut.slot1 = true) ∧
    (out (step { running .compose0 with sched := [.worker], oq := ringOf [0x90] })).map State.frameOut = some (frameOf 0x0F 0x90 0 0) := by
  decide

theorem witness_CycleIsRequestedStartedAndFlushed :
    (base.lstate = .up ∧ base.wstate = .idle) ∧ (downState.lstate ≠ .up ∨ downState.wstate ≠ .idle) ∧
    ((running .cont).lstate ≠ .up ∨ (running .cont).wstate ≠ .idle) ∧ ({ base with wstate := .pending } : State).wstate = .pending ∧
    ((running .flush).wstate = .running ∧ (running .flush).phase = .flush) := by decide

theorem witness_MicroStepsRunOnlyInTheirPhase :
    (microPhase .itCont = some .cont ∧ ¬((running .decay).wstate = .running ∧ (running .decay).phase = .cont)) ∧
    (microPhase .itRefill = some .refill ∧ base.phase = .refill ∧ ¬(base.wstate = .running ∧ base.phase = .refill)) ∧
    base.wstate ≠ .pending := by decide

theorem witness_RefillPullsAWholeWindow :
    (∃ s : State, s.oq.ok = true ∧ s.wstate = .running ∧ s.phase = .refill ∧ s.outActive = true ∧ s.params.peekMax = 4096 - s.oq.count) ∧
    (∃ s : State, s.oq.ok = true ∧ s.wstate = .running ∧ s.phase = .refill ∧ s.outActive = true ∧ 4096 - s.oq.count < s.params.peekMax) ∧
    ∃ s : State, s.oq.ok = true ∧ s.wstate = .running ∧ s.phase = .refill ∧ s.outActive = false :=
  ⟨⟨{ running .refill with outActive := true, oq := zerosRing 4092 }, by decide⟩,
    ⟨{ running .refill with outActive := true, oq := zerosRing 4093 }, by decide⟩, ⟨running .refill, by decide⟩⟩

theorem witness_IterationExchange :
    (∃ s : State, s.wstate = .running ∧ s.phase = .xchg ∧ s.linkBound = true) ∧
    ∃ s : State, s.wstate = .running ∧ s.phase = .xchg ∧ s.linkBound = false :=
  ⟨⟨running .xchg, by decide⟩, ⟨{ running .xchg with linkBound := false }, by decide⟩⟩

theorem witness_IterationContinues :
    (∃ s : State, s.wstate = .running ∧ s.phase = .cont ∧ s.usage ≠ 0) ∧
    ∃ s : State, s.wstate = .running ∧ s.phase = .cont ∧ s.hadData = false ∧ s.oq.count = 0 ∧ s.sbLevel = false ∧ s.ledPending = false ∧
      s.usage = 0 :=
  ⟨⟨{ running .cont with usage := 1 }, by decide⟩, ⟨running .cont, by decide⟩⟩

theorem witness_CanSendReadsTheGate :
    (∃ s : State, s.usage = 125999 ∧ s.ledPending = false ∧ (s.usage + 1000 < 127000 ∨ s.ledPending = true)) ∧
    (∃ s : State, s.usage = 126000 ∧ (s.usage + 1000 < 127000 ∨ s.ledPending = true)) ∧
    ∃ s : State, s.usage = 126000 ∧ ¬(s.usage + 1000 < 127000) ∧ s.ledPending = false :=
  ⟨⟨{ base with usage := 125999 }, by decide⟩, ⟨{ base with usage := 126000, ledPending := true }, by decide⟩,
    ⟨{ base with usage := 126000 }, by decide⟩⟩

theorem witness_OnSentChargesUnderItsGuard :
    (∃ s : State, s.lstate = .up ∧ s.usage = 125999 ∧ s.usage + 1000 < 127000 ∧ s.ledPending = false) ∧
    (∃ s : State, s.lstate = .shutdown ∧ s.usage + 1000 < 127000 ∧ s.ledPending = false) ∧
    (∃ s : State, s.lstate = .up ∧ ¬(s.usage + 1000 < 127000) ∧ s.ledPending = false) ∧
    (∃ s : State, s.lstate = .up ∧ s.usage + 1000 < 127000 ∧ s.ledPending = true) ∧
    ¬(downState.lstate = .up ∨ downState.lstate = .shutdown) :=
  ⟨⟨{ base with usage := 125999 }, by decide⟩, ⟨heldDown .running, by decide⟩, ⟨{ base with usage := 126000 }, by decide⟩,
    ⟨{ base with ledPending := true }, by decide⟩, by decide⟩

theorem witness_DecayIsExactAndFloored :
    (running .decay).wstate = .running ∧ (running .decay).phase = .decay ∧
    (∃ s : State, s.params.drainRate * 1 ≤ s.usage ∧ s.usage = 3125) ∧ ∃ s : State, s.usage < s.params.drainRate * 1 ∧ s.usage = 3124 :=
  ⟨by decide, by decide, ⟨{ base with usage := 3125 }, by decide⟩, ⟨{ base with usage := 3124 }, by decide⟩⟩

theorem witness_UsageStaysBelowTheCeiling :
    126999 < Config.ceiling ∧ (out (step (State.withFetchWord { base with usage := 125999 } 16 0x6100))).map State.usage = some 126999 := by
  decide

theorem witness_TestPushAppends :
    (∃ s : State, s.oq.ok = true ∧ s.lstate ≠ .up) ∧ (∃ s : State, s.oq.ok = true ∧ s.lstate = .up ∧ s.wstate = .running) ∧
    (∃ s : State, s.oq.ok = true ∧ s.lstate = .up ∧ s.wstate ≠ .running ∧ s.oq.count = 4096) ∧
    (∃ s : State, s.oq.ok = true ∧ s.lstate = .up ∧ s.wstate ≠ .running ∧ s.oq.count < 4096 ∧ s.oq.count = 4095) ∧
    ∃ s : State, s.oq.ok = true ∧ s.lstate = .up ∧ s.wstate ≠ .running ∧ s.oq.count < 4096 ∧ s.oq.count = 0 :=
  ⟨⟨downState, by decide⟩, ⟨running .refill, by decide⟩, ⟨{ base with oq := zerosRing 4096 }, by decide⟩,
    ⟨{ base with oq := zerosRing 4095, wstate := .pending }, by decide⟩, ⟨base, by decide⟩⟩

theorem witness_PopTakesTheOldest :
    (∃ s : State, s.oq.ok = true ∧ s.lstate = .up ∧ s.wstate ≠ .running ∧ s.oq.count ≠ 0) ∧
    (∃ s : State, s.oq.ok = true ∧ s.lstate = .shutdown ∧ s.wstate ≠ .running ∧ s.oq.count = 0) ∧
    (∃ s : State, s.oq.ok = true ∧ ¬(s.lstate = .up ∨ s.lstate = .shutdown)) ∧ ∃ s : State, s.oq.ok = true ∧ s.wstate = .running :=
  ⟨⟨{ base with oq := ringOf [0x90] }, by decide⟩, ⟨heldDown .idle, by decide⟩, ⟨downState, by decide⟩, ⟨running .refill, by decide⟩⟩

theorem witness_RefillMovesWhatFits :
    (∃ s : State, s.oq.ok = true ∧ s.lstate = .up ∧ s.wstate ≠ .running ∧ s.oq.count = 4094 ∧ s.ocBuf.length = 3) ∧
    (∃ s : State, s.oq.ok = true ∧ ¬(s.lstate = .up ∨ s.lstate = .shutdown)) ∧ ∃ s : State, s.oq.ok = true ∧ s.wstate = .running :=
  ⟨⟨{ base with oq := zerosRing 4094, ocBuf := [1, 2, 3] }, by decide⟩, ⟨downState, by decide⟩, ⟨running .refill, by decide⟩⟩

theorem witness_InboundPushStoresOrDrops :
    (∃ s : State, s.iq.ok = true ∧ s.lstate = .up ∧ s.wstate ≠ .running ∧ s.iq.count = 4096) ∧
    (∃ s : State, s.iq.ok = true ∧ s.lstate = .shutdown ∧ s.wstate ≠ .running ∧ s.iq.count < 4096 ∧ s.iq.count = 4095) ∧
    (∃ s : State, s.iq.ok = true ∧ ¬(s.lstate = .up ∨ s.lstate = .shutdown)) ∧ ∃ s : State, s.iq.ok = true ∧ s.wstate = .running :=
  ⟨⟨{ base with iq := zerosRing 4096 }, by decide⟩, ⟨{ heldDown .pending with iq := zerosRing 4095 }, by decide⟩, ⟨downState, by decide⟩,
    ⟨running .deliver0, by decide⟩⟩

theorem witness_DrainTakesEverything :
    (∃ s : State, s.iq.ok = true ∧ s.lstate = .up ∧ ringList s.iq = [0xF8, 0xFE]) ∧ ∃ s : State, s.iq.ok = true ∧ s.lstate ≠ .up :=
  ⟨⟨{ base with iq := ringOf [0xF8, 0xFE] }, by decide⟩, ⟨heldDown .running, by decide⟩⟩

theorem witness_LengthQueries : base.lstate = .up ∧ downState.lstate ≠ .up := by decide

theorem witness_SignalBridgeSamplesAndNotifies :
    (base.sbArmed = true ∧ base.lstate = .up) ∧ (downState.sbArmed = false ∧ downState.lstate ≠ .up) ∧
    (∃ s : State, s.sbArmed = true ∧ s.sbLevel = false ∧ s.sbMeta = true ∧ s.lstate = .up) ∧
    ∃ s : State, s.sbMeta = true ∧ ¬(s.sbArmed = true ∧ s.sbLevel = false ∧ s.sbMeta = true ∧ s.lstate = .up) :=
  ⟨by decide, by decide, ⟨{ base with sbMeta := true }, by decide⟩, ⟨{ base with sbMeta := true, sbLevel := true }, by decide⟩⟩

theorem witness_EndpointCommandsInUp : base.lstate = .up := by decide

theorem witness_DrainWaitsForTheOutboundQueue :
    downState.lstate ≠ .up ∧ base.lstate = .up ∧ base.oq.count = 0 ∧ heldDrain.lstate = .up ∧ heldDrain.oq.count ≠ 0 := by decide

theorem witness_EveryStepKeepsTheInvariants :
    Inv base ∧ step { base with sched := [.clock 1] } = .next { base with now := 11 } := ⟨base_inv, rfl⟩

theorem witness_DownStaysOneState :
    (Inv downState ∧ DownIsReset downState ∧ step { downState with sched := [.clock 1] } = .next { downState with now := 1 }) ∧
    Inv (bringing []) ∧ DownIsReset (bringing []) :=
  ⟨⟨downState_inv, downState_downIsReset, rfl⟩, bringing_inv _, bringing_downIsReset _⟩

theorem witness_IdentityStaysWithinItsLimits :
    IdentityLimits downState ∧
    (out (runSequence .linkUp 14 (plugged (sent 1 (identityPayloads exampleFields))))).map State.idValid = some true :=
  ⟨by constructor <;> first | decide | simp [downState, State.reset], by decide⟩

theorem witness_TimeAndCountersNeverFall : step { base with sched := [.clock 1] } = .next { base with now := 11 } := rfl

end Sys2Proof.Tests
end

section
/-! The step of the machine by its agents: which operation each turn runs, and that every step answers a next state. -/

namespace Sys2Proof.Machine

/-! ### Every operation and every step answers a next state (R10) -/

/-- No arm of `exec` stops: a refusal is a next state too (R10, R307). -/
theorem exec_next (i : Instr) (s : State) : ∃ t, exec i s = .next t := by
  cases i with
  | idGet sel =>
    show ∃ t, execIdGet sel s = .next t
    unfold execIdGet
    split <;> exact ⟨_, rfl⟩
  | _ => exact ⟨_, rfl⟩

theorem workerStep_next (s : State) : ∃ t, workerStep s = .next t := by
  unfold workerStep
  split
  · exact exec_next _ s
  · exact ⟨s, rfl⟩

theorem hostStep_next (s : State) : ∃ t, hostStep s = .next t := by
  unfold hostStep
  split
  · exact exec_next _ s
  · exact ⟨_, rfl⟩

theorem ownStep_next (s : State) : ∃ t, ownStep s = .next t := by
  unfold ownStep
  split
  · exact exec_next _ s
  · split
    · exact hostStep_next s
    · exact workerStep_next s

theorem runIssue_next (iss : Issue) (s : State) : ∃ t, runIssue iss s = .next t := by
  unfold runIssue
  split
  · exact exec_next _ s
  · exact ⟨_, rfl⟩

theorem takeEvent_next (e : Event) (s : State) : ∃ t, takeEvent e s = .next t := by
  cases e with
  | op iss => exact runIssue_next iss s
  | worker => exact workerStep_next s
  | host => exact hostStep_next s
  | clock _ | ocAppend _ | peerPresent _ | peerAnswers _ | rst => exact ⟨_, rfl⟩

/-! ### What a step takes: the head of the schedule, or the block's own step (log entries 1 and 16) -/

theorem step_of_event {s : State} {e : Event} {rest : List Event} (h : s.sched = e :: rest) :
    step s = takeEvent e { s with sched := rest } := by
  simp only [step, nextStep, h]

theorem step_of_nothingScheduled {s : State} (h : s.sched = []) : step s = ownStep s := by
  simp only [step, nextStep, h]

theorem runIssue_of_decode {iss : Issue} {i : Instr} (h : decode iss = .ok i) (s : State) : runIssue iss s = exec i s := by
  simp only [runIssue, h]

/-- The event placed at the head of the schedule is the one the next step takes. -/
theorem step_scheduleFirst (e : Event) (s : State) : step (scheduleFirst e s) = takeEvent e s :=
  step_of_event rfl

/-- What the decoder of bare words reads is what the decoder reads in the format of the word's row (log entry 14). -/
theorem decode_of_decodeTableWord {n w : Nat} {i : Instr} (h : decodeTableWord n w = some i) :
    decode (issueOfTableWord w) = .ok i := by
  unfold decodeTableWord at h
  split at h
  · cases hd : decode (issueOfTableWord w) with
    | ok j => rw [hd] at h; cases h; rfl
    | error e => rw [hd] at h; cases h
  · cases h

/-! ### The worker's turn (R23, R24, R140) -/

theorem workerInstr_pending {s : State} (h : s.wstate = .pending) : workerInstr s = some .cycStart := by
  simp only [workerInstr, h]

/-- While the worker runs, the micro-step it has enabled is the one its phase names (R24, R140). -/
theorem workerInstr_running {s : State} {i : Instr} {p : Phase} (hi : microPhase i = some p) (hw : s.wstate = .running)
    (hp : s.phase = p) : workerInstr s = some i := by
  cases i with
  | itRefill | itXchg | itDecay | itCont | cycFlush => cases hi; simp only [workerInstr, hw, hp]
  | composeSlot k | deliverSlot k => cases k <;> cases hi <;> simp only [workerInstr, hw, hp, composePhase, deliverPhase]
  | _ => cases hi

theorem workerStep_of_instr {s : State} {i : Instr} (h : workerInstr s = some i) : workerStep s = exec i s := by
  simp only [workerStep, h]

theorem workerStep_idle {s : State} (h : s.wstate = .idle) : workerStep s = .next s := by
  simp only [workerStep, (workerInstr_none s).2 h]

/-! ### `HOST`'s turn (R9, R72, R128, R231, R292) -/

theorem hostInstr_busy {s : State} (hw : s.wstate ≠ .idle) : hostInstr s = none := if_neg hw

theorem hostInstr_block {s : State} (hw : s.wstate = .idle) (hb : s.block ≠ none) : hostInstr s = some .xchg16 := by
  obtain ⟨b, hb⟩ := Option.ne_none_iff_exists'.1 hb
  simp only [hostInstr, hw, hb, if_true]

theorem hostInstr_start {s : State} (hw : s.wstate = .idle) (hb : s.block = none) (hp : s.parse = .start) :
    hostInstr s = some .idParse := by
  simp only [hostInstr, hw, hb, hp, if_true]

theorem hostInstr_fields {s : State} {left i : Nat} {st : Staging} (hw : s.wstate = .idle) (hb : s.block = none)
    (hp : s.parse = .fields left i st) : hostInstr s = some (.rdlp 0xFF) := by
  simp only [hostInstr, hw, hb, hp, if_true]
  rfl

theorem hostInstr_idle {s : State} (hb : s.block = none) (hp : s.parse = .idle) : hostInstr s = none := by
  simp only [hostInstr, hb, hp, ite_self]

theorem hostStep_of_instr {s : State} {i : Instr} (h : hostInstr s = some i) : hostStep s = exec i s := by
  simp only [hostStep, h]

theorem hostStep_of_none {s : State} (h : hostInstr s = none) : hostStep s = .next (resumeLinkDown s) := by
  simp only [hostStep, h]

theorem resumeLinkDown_elsewhere {s : State} (h : s.lstate ≠ .shutdown) : resumeLinkDown s = s := if_neg h

/-- In `SHUTDOWN` with the worker idle a held `LINK_DOWN` goes through (R292). -/
theorem resumeLinkDown_idle {s : State} (hl : s.lstate = .shutdown) (hw : s.wstate = .idle) :
    resumeLinkDown s = (tearDown s).succeed := by
  rw [resumeLinkDown, if_pos hl, quiesceThenTearDown, if_pos hw]

/-- With no exchange to make and no `LINK_DOWN` held, `HOST` does nothing. -/
theorem hostStep_nothing {s : State} (hi : hostInstr s = none) (hl : s.lstate ≠ .shutdown) : hostStep s = .next s := by
  rw [hostStep_of_none hi, resumeLinkDown_elsewhere hl]

/-- While the worker is idle and `HOST` has a sequence in progress, its turn is the exchange that comes next; with none in progress
and no `LINK_DOWN` held it is nothing (R9, R128, R231). -/
theorem hostStep_idleWorker {s : State} (hw : s.wstate = .idle) :
    (s.block ≠ none → hostStep s = exec .xchg16 s) ∧
    (s.block = none → s.parse = .start → hostStep s = exec .idParse s) ∧
    (∀ left i st, s.block = none → s.parse = .fields left i st → hostStep s = exec (.rdlp 0xFF) s) ∧
    (s.block = none → s.parse = .idle → s.lstate ≠ .shutdown → hostStep s = .next s) :=
  ⟨fun hb => hostStep_of_instr (hostInstr_block hw hb),
   fun hb hp => hostStep_of_instr (hostInstr_start hw hb hp),
   fun _ _ _ hb hp => hostStep_of_instr (hostInstr_fields hw hb hp),
   fun hb hp hl => hostStep_nothing (hostInstr_idle hb hp) hl⟩

/-! ### The block's own step (log entry 16) -/

theorem ownStep_drain {s : State} (hd : s.drainWait = true) (h : s.wstate = .idle ∨ s.oq.count = 0) :
    ownStep s = exec .outDrain s := by
  rw [ownStep, if_pos]
  simpa [hd] using h

theorem ownStep_host {s : State} (hd : s.drainWait = false) (hw : s.wstate = .idle) : ownStep s = hostStep s := by
  simp only [ownStep, hd, hw, Bool.false_and, beq_self_eq_true, Bool.false_eq_true, if_false, if_true]

theorem ownStep_worker {s : State} (hd : ¬(s.drainWait = true ∧ s.oq.count = 0)) (hw : s.wstate ≠ .idle) :
    ownStep s = workerStep s := by
  have hbusy : (s.wstate == .idle) = false := beq_false_of_ne hw
  rw [ownStep, if_neg, if_neg]
  · simp [hbusy]
  · simpa [hbusy] using hd

/-! ### A held `OUT_DRAIN` taken again (R39, R269) -/

theorem exec_outDrain_empty {s : State} (hl : s.lstate = .up) (hc : s.oq.count = 0) :
    exec .outDrain s = .next { s with drainWait := false, verdict := .done .ok, result := .none } := by
  show execOutDrain s = _
  rw [execOutDrain, if_neg (not_not.2 hl), if_pos ((oqEmpty_iff s).2 hc)]
  rfl

theorem exec_outDrain_bytes {s : State} (hl : s.lstate = .up) (hc : s.oq.count ≠ 0) :
    exec .outDrain s =
      .next { s with drainWait := true, wstate := requested s.wstate, verdict := .held, result := .none } := by
  show execOutDrain s = _
  rw [execOutDrain, if_neg (not_not.2 hl), if_neg (mt (oqEmpty_iff s).1 hc), requestCycle_up { s with drainWait := true } hl]
  rfl

/-! ### The end of a held `LINK_DOWN` (R21, R293) -/

/-- The tear-down leaves every element at its reset value, but for those that `SHUTDOWN` with an idle worker has there already. -/
theorem tearDown_atResetValues {s : State} (hw : s.wstate = .idle) (hd : s.drainWait = false) (ha : s.sbArmed = false) :
    AtResetValues (tearDown s).succeed where
  link := ⟨rfl, hw, rfl, rfl⟩
  worker := ⟨rfl, rfl, rfl⟩
  datapath := ⟨rfl, rfl, rfl, rfl, rfl⟩
  led := ⟨rfl, rfl⟩
  queues := ⟨rfl, rfl⟩
  endpoints := ⟨rfl, rfl, rfl, hd⟩
  bridge := ha
  identity := ⟨rfl, rfl, rfl, rfl, rfl⟩

/-- A bring-up is in progress in `BRINGUP` alone (R21). -/
theorem Inv.parse_idle {s : State} (h : Inv s) (hl : s.lstate ≠ .bringup) : s.parse = .idle :=
  not_not.1 (mt h.parsing.1 hl)

/-- Edges are notified in `UP` alone (R40). -/
theorem Inv.not_armed {s : State} (h : Inv s) (hl : s.lstate ≠ .up) : s.sbArmed = false :=
  Bool.eq_false_iff.2 (mt h.armed hl)

/-- `HOST` completes a held `LINK_DOWN` once the worker is idle (R291 to R293). -/
theorem hostStep_completesLinkDown {s : State} (h : Inv s) (hl : s.lstate = .shutdown) (hw : s.wstate = .idle)
    (hb : s.block = none) (hd : s.drainWait = false) :
    ∃ t, hostStep s = .next t ∧ t.verdict = .done .ok ∧ t.lstate = .down ∧ AtResetValues t := by
  have hp : s.parse = .idle := h.parse_idle (by simp [hl])
  have ha : s.sbArmed = false := h.not_armed (by simp [hl])
  exact ⟨_, by rw [hostStep_of_none (hostInstr_idle hb hp), resumeLinkDown_idle hl hw], rfl, rfl,
    tearDown_atResetValues hw hd ha⟩

/-! ### The obligations -/

/-- Settles O9: each agent's turn and each event ends in `exec`, which always answers a next state, or in one outright. -/
theorem noStepHalts : Obligations.NoStepHalts := by
  intro s
  cases hs : s.sched with
  | nil => rw [step_of_nothingScheduled hs]; exact ownStep_next s
  | cons e rest => rw [step_of_event hs]; exact takeEvent_next e _

/-- Settles O5: a word that decodes is run, and a bare word of the table decodes in the format of its row. -/
theorem stepRunsDecodedInstruction : Obligations.StepRunsDecodedInstruction := by
  refine ⟨fun s iss rest i hs hd => ?_, fun s n w i hd => ?_⟩
  · rw [step_of_event hs]
    exact runIssue_of_decode hd _
  · rw [State.withFetchWord, step_scheduleFirst]
    exact runIssue_of_decode (decode_of_decodeTableWord hd) s

/-- Settles O6: the worker's and `HOST`'s turns by the micro-step and the exchange the state names, the environment's events by what
`takeEvent` says of each. -/
theorem everyAgentTakesItsOwnStep : Obligations.EveryAgentTakesItsOwnStep := by
  intro s rest
  refine ⟨fun hs => ?worker, fun hs hw => ?host, fun hs hw hl => ?hostWaits, fun _ hs => step_of_event hs,
    fun _ hs => step_of_event hs, fun _ hs => step_of_event hs, fun _ hs => step_of_event hs⟩
  case worker =>
    rw [step_of_event hs]
    exact ⟨fun hw => workerStep_idle hw, fun hw => workerStep_of_instr (workerInstr_pending hw),
      fun i p hi hw hp => workerStep_of_instr (workerInstr_running hi hw hp)⟩
  case host =>
    rw [step_of_event hs]
    exact hostStep_idleWorker (s := { s with sched := rest }) hw
  case hostWaits =>
    rw [step_of_event hs]
    exact hostStep_nothing (s := { s with sched := rest }) (hostInstr_busy hw) hl

/-- Settles O7: `ownStep` tries a held `OUT_DRAIN`, the worker and `HOST` in this order; the invariants put a held `OUT_DRAIN` in
`UP` and leave no parse and no armed bridge in `SHUTDOWN`. -/
theorem blockStepsOfItsOwnAccord : Obligations.BlockStepsOfItsOwnAccord := by
  intro s hinv hs
  rw [step_of_nothingScheduled hs]
  refine ⟨fun hd hw hc => ?requests, fun hd hc => ?released, fun hd => ?worker, fun hd hw => ?host⟩
  case requests =>
    rw [ownStep_drain hd (.inl hw), exec_outDrain_bytes (hinv.drain hd) hc, hw, ← hd]
    rfl
  case released =>
    rw [ownStep_drain hd (.inr hc), exec_outDrain_empty (hinv.drain hd) hc]
  case worker =>
    refine ⟨fun hw => ?_, fun i p hi hw hp => ?_⟩
    · rw [ownStep_worker hd (by simp [hw]), workerStep_of_instr (workerInstr_pending hw)]
    · rw [ownStep_worker hd (by simp [hw]), workerStep_of_instr (workerInstr_running hi hw hp)]
  case host =>
    rw [ownStep_host hd hw]
    obtain ⟨hblock, hstart, hfields, hidle⟩ := hostStep_idleWorker hw
    exact ⟨hblock, hstart, hfields, fun hb hl => hostStep_completesLinkDown hinv hl hw hb hd, hidle⟩

end Sys2Proof.Machine
end

section
/-! `RDLP`: the handshake of its length, those of its data words, and a whole block, step by step (R99, R100, R128, R129, R233).
What is said of a whole block holds in a bring-up too, where it is one field of `ID_PARSE`. -/

namespace Sys2Proof.Machine

/-! ### Which handshake an operation makes -/

/-- A direct `RDLP` beside no other user of the link begins with the handshake of the length (R128). -/
theorem exec_rdlp_direct (max : Byte) {s : State} (hw : s.wstate ≠ .running) (hb : s.block = none) (hp : s.parse = .idle) :
    exec (.rdlp max) s = .next (lengthStep max.toNat (outsideContract s)) := by
  show execRdlp max s = _
  simp [execRdlp, workerRuns, hw, hb, hp]

/-- Between two fields of a bring-up `RDLP` with the capacity of R233 begins with the handshake of the length. -/
theorem exec_rdlp_field {s : State} {left i : Nat} {st : Staging} (hw : s.wstate ≠ .running) (hb : s.block = none)
    (hp : s.parse = .fields left i st) : exec (.rdlp 0xFF) s = .next (lengthStep Config.rdlpScratch s) := by
  show execRdlp 0xFF s = _
  simp [execRdlp, workerRuns, hw, hb, hp, Config.rdlpScratch]

/-- With data words of a block to come `XCHG16` is the handshake of the next (R128). -/
theorem exec_xchg16_data {s : State} {b : BlockRead} (hw : s.wstate ≠ .running) (hb : s.block = some b) :
    exec .xchg16 s = .next (dataStep b s) := by
  show execXchg16 s = _
  simp [execXchg16, workerRuns, hw, handshake, hb]

/-! ### One valid handshake (R99, R127, R128) -/

theorem lengthStep_valid {max : Nat} {s : State} (hlink : s.linkBound = true) (hv : validAnswer (answerAt s 0) = true)
    (hl : (answerAt s 0).b1.toNat ≤ max) :
    lengthStep max s = moreData ⟨max, (answerAt s 0).b1.toNat, []⟩ (afterHandshakes 1 s) := by
  obtain ⟨hpayload, hafter⟩ := exchangeWord_valid s hlink hv
  simp only [lengthStep, hpayload, hafter]
  rw [if_neg (by omega)]

theorem dataStep_valid (b : BlockRead) {s : State} (hlink : s.linkBound = true) (hv : validAnswer (answerAt s 0) = true) :
    dataStep b s =
      moreData { b with left := b.left - 1, got := b.got ++ [(answerAt s 0).b1] } (afterHandshakes 1 s) := by
  obtain ⟨hpayload, hafter⟩ := exchangeWord_valid s hlink hv
  simp only [dataStep, hpayload, hafter]

/-- `RDLP` is held between two of its handshakes, with this much of the block read (R9, R128). -/
def heldRead (b : BlockRead) (s : State) : State := { s with block := some b }.hold

theorem moreData_left {b : BlockRead} (h : b.left ≠ 0) (s : State) : moreData b s = heldRead b s := if_neg h

theorem moreData_done {b : BlockRead} (h : b.left = 0) (s : State) : moreData b s = endBlock b.max (some b.got) s := if_pos h

theorem afterHandshakes_one (s : State) : afterHandshakes 1 s =
    { s with answers := s.answers.tail, linkCount := s.linkCount + 1, linkTx := [0x00, 0x00] } := by
  simp only [afterHandshakes, List.drop_one]

/-! ### The end of a block read (R128, R231, R240) -/

/-- Outside a bring-up the end of a block read is its caller's answer. -/
theorem endBlock_direct (max : Nat) (got : Option (List Byte)) {s : State} (hp : ∀ left i st, s.parse ≠ .fields left i st) :
    endBlock max got s = blockReply max got { s with block := none } := by
  unfold endBlock
  split
  · exact absurd ‹_› (hp _ _ _)
  · rfl

/-- In a bring-up a field that is not read, or breaks its length rule, ends it. -/
theorem endBlock_field_fails (max : Nat) {got : Option (List Byte)} {s : State} {left i : Nat} {st : Staging}
    (hp : s.parse = .fields left i st) (hst : got.bind (stageField i · st) = none) : endBlock max got s = failBringUp s := by
  simp only [endBlock, hp, hst]

/-- In a bring-up a field that is read and fits is staged, and the next one follows. -/
theorem endBlock_field_taken (max : Nat) {got : Option (List Byte)} {s : State} {left i : Nat} {st st' : Staging}
    (hp : s.parse = .fields left i st) (hst : got.bind (stageField i · st) = some st') :
    endBlock max got s = nextField (left - 1) (i + 1) st' s := by
  simp only [endBlock, hp, hst]

/-! ### A whole block (R100) -/

theorem requestCycle_reply (v : Verdict) (r : Result) (s : State) :
    requestCycle (s.reply v r) = (requestCycle s).reply v r := by
  unfold requestCycle
  exact (apply_ite (State.reply v r) (s.lstate = .up ∧ s.wstate = .idle) { s with wstate := .pending } s).symm

theorem kick_reply (v : Verdict) (r : Result) (s : State) : kick (s.reply v r) = (kick s).reply v r := by
  rw [kick, requestCycle_reply]
  exact (apply_ite (State.reply v r) _ _ _).symm

/-- The end of a bring-up overwrites the block read and the outcome that stand in the state. -/
theorem finishBringUp_heldRead (st : Staging) (b : BlockRead) (s : State) :
    finishBringUp st (heldRead b s) = finishBringUp st s := by
  show (kick ((createLink (publish st s)).reply .held .none)).succeed = _
  rw [kick_reply]
  rfl

theorem nextField_heldRead (left i : Nat) (st : Staging) (b : BlockRead) (s : State) :
    nextField left i st (heldRead b s) = nextField left i st s := by
  cases left with
  | zero => exact finishBringUp_heldRead st b s
  | succ n => rfl

theorem endBlock_heldRead (max : Nat) (got : Option (List Byte)) (b : BlockRead) (s : State) :
    endBlock max got (heldRead b s) = endBlock max got s := by
  by_cases hp : ∃ left i st, s.parse = .fields left i st
  · obtain ⟨left, i, st, hp⟩ := hp
    have hp' : (heldRead b s).parse = .fields left i st := hp
    cases hst : got.bind (stageField i · st) with
    | none => rw [endBlock_field_fails max hp hst, endBlock_field_fails max hp' hst]; rfl
    | some st' => rw [endBlock_field_taken max hp hst, endBlock_field_taken max hp' hst, nextField_heldRead]
  · have hp' : ∀ left i st, s.parse ≠ .fields left i st := fun left i st h => hp ⟨left, i, st, h⟩
    rw [endBlock_direct max got hp', endBlock_direct max got (s := heldRead b s) hp']
    cases got <;> rfl

/-- Where a block read goes on does not depend on how far it had come before. -/
theorem moreData_heldRead (b b' : BlockRead) (s : State) : moreData b' (heldRead b s) = moreData b' s := by
  by_cases h : b'.left = 0
  · rw [moreData_done h, moreData_done h, endBlock_heldRead]
  · rw [moreData_left h, moreData_left h]
    rfl

/-- `HOST`'s turn in a held block read, on a valid response (R128). -/
theorem hostStep_heldRead (b : BlockRead) {s : State} (hw : s.wstate = .idle) (hlink : s.linkBound = true)
    (hv : validAnswer (answerAt s 0) = true) : hostStep (heldRead b s) =
      .next (moreData { b with left := b.left - 1, got := b.got ++ [(answerAt s 0).b1] } (afterHandshakes 1 s)) := by
  have hafter : afterHandshakes 1 (heldRead b s) = heldRead b (afterHandshakes 1 s) := rfl
  rw [hostStep_dataStep (heldRead b s) b hw rfl, dataStep_valid b (s := heldRead b s) hlink hv, hafter, moreData_heldRead]
  rfl

/-- The data words of a block, `HOST`'s turns one after another, from where the first `n` handshakes have led (R128, R129). -/
theorem hostTurns_moreData (max : Nat) (bs got : List Byte) (n : Nat) {s : State} (hw : s.wstate = .idle)
    (hlink : s.linkBound = true) (hs : PeerSends (afterHandshakes n s) bs) :
    hostTurns bs.length (moreData ⟨max, bs.length, got⟩ (afterHandshakes n s)) =
      .next (endBlock max (some (got ++ bs)) (afterHandshakes (n + bs.length) s)) := by
  induction bs generalizing got n with
  | nil =>
    rw [moreData_done rfl, List.append_nil]
    rfl
  | cons v vs ih =>
    obtain ⟨⟨hv, hpayload⟩, hrest⟩ := (peerSends_cons _ _ _).1 hs
    rw [afterHandshakes_add] at hrest
    have hturn : hostStep (heldRead ⟨max, vs.length + 1, got⟩ (afterHandshakes n s)) =
        .next (moreData ⟨max, vs.length, got ++ [v]⟩ (afterHandshakes (n + 1) s)) := by
      rw [hostStep_heldRead _ (s := afterHandshakes n s) hw hlink hv, afterHandshakes_add, hpayload]
      rfl
    rw [List.length_cons, moreData_left (Nat.succ_ne_zero _), hostTurns, hturn]
    have hvs := ih (got ++ [v]) (n + 1) hrest
    rwa [List.append_assoc, List.singleton_append, Nat.add_right_comm] at hvs

/-- A block of at most the capacity that the peer sends whole: the handshake of its length, one turn of `HOST`'s for each byte, and
the block is read (R128). -/
theorem hostTurns_lengthStep {max : Nat} {bs : List Byte} {s : State} (hw : s.wstate = .idle) (hlink : s.linkBound = true)
    (hbyte : bs.length < 256) (hmax : bs.length ≤ max) (hs : PeerSends s (blockPayloads bs)) :
    hostTurns bs.length (lengthStep max s) = .next (endBlock max (some bs) (afterHandshakes (1 + bs.length) s)) := by
  obtain ⟨⟨hv, hlen⟩, hdata⟩ := (peerSends_cons _ _ _).1 hs
  have hcount : (answerAt s 0).b1.toNat = bs.length := by
    rw [hlen, BitVec.toNat_ofNat]
    exact Nat.mod_eq_of_lt hbyte
  rw [lengthStep_valid hlink hv (by omega), hcount]
  exact hostTurns_moreData max bs [] 1 hw hlink hdata

/-! ### The obligation's clauses -/

/-- `RDLP` whose first response is valid, not empty and within the capacity is held, outside a bring-up and in one (R128, R233). -/
theorem exec_rdlp_holds {max : Byte} {s : State} (hw : s.wstate ≠ .running) (hb : s.block = none) (hlink : s.linkBound = true)
    (hp : s.parse = .idle ∨ (max = 0xFF ∧ ∃ left i st, s.parse = .fields left i st))
    (hv : validAnswer (answerAt s 0) = true) (hpos : 0 < (answerAt s 0).b1.toNat) (hmax : (answerAt s 0).b1.toNat ≤ max.toNat) :
    exec (.rdlp max) s = .next { s with
      answers := s.answers.tail, linkCount := s.linkCount + 1, linkTx := [0x00, 0x00],
      marked := s.marked || (s.parse == .idle && linkAlive s),
      block := some ⟨max.toNat, (answerAt s 0).b1.toNat, []⟩, verdict := .held, result := .none } := by
  have hne : (answerAt s 0).b1.toNat ≠ 0 := by omega
  rcases hp with hp | ⟨rfl, left, i, st, hp⟩
  · have hdirect : (s.parse == .idle) = true := by simp [hp]
    rw [exec_rdlp_direct max hw hb hp, lengthStep_valid (s := outsideContract s) hlink hv hmax, moreData_left hne,
      afterHandshakes_one, hdirect]
    rfl
  · have hfield : (s.parse == .idle) = false := by simp [hp]
    rw [exec_rdlp_field hw hb hp, lengthStep_valid (max := Config.rdlpScratch) hlink hv hmax, moreData_left hne,
      afterHandshakes_one, hfield, Bool.false_and, Bool.or_false]
    rfl

/-- A valid data word that is not the last leaves the read held, with one word fewer to come, in a bring-up too (R128, R129). -/
theorem exec_xchg16_holds {max left : Nat} {got : List Byte} {s : State} (hw : s.wstate ≠ .running) (hlink : s.linkBound = true)
    (hb : s.block = some ⟨max, left, got⟩) (hv : validAnswer (answerAt s 0) = true) (hleft : 1 < left) :
    exec .xchg16 s = .next { s with
      answers := s.answers.tail, linkCount := s.linkCount + 1, linkTx := [0x00, 0x00],
      block := some ⟨max, left - 1, got ++ [(answerAt s 0).b1]⟩, verdict := .held, result := .none } := by
  have hmore : left - 1 ≠ 0 := by omega
  rw [exec_xchg16_data hw hb, dataStep_valid _ hlink hv, moreData_left hmore, afterHandshakes_one]
  rfl

/-- The last valid data word of a direct read gives its caller the block (R128). -/
theorem exec_xchg16_last {max : Nat} {got : List Byte} {s : State} (hw : s.wstate ≠ .running) (hlink : s.linkBound = true)
    (hb : s.block = some ⟨max, 1, got⟩) (hv : validAnswer (answerAt s 0) = true) (hp : s.parse = .idle) :
    exec .xchg16 s = .next { s with
      answers := s.answers.tail, linkCount := s.linkCount + 1, linkTx := [0x00, 0x00], block := none, verdict := .done .ok,
      result := .block (got ++ (answerAt s 0).b1 :: List.replicate (max - (got.length + 1)) 0) (got.length + 1) } := by
  have hdirect : ∀ left i st, (afterHandshakes 1 s).parse ≠ .fields left i st := by simp [afterHandshakes, hp]
  rw [exec_xchg16_data hw hb, dataStep_valid _ hlink hv, moreData_done rfl, endBlock_direct max _ hdirect, afterHandshakes_one]
  simp [blockReply, State.reply, padTo]

/-- A direct read of a block that the peer sends whole (R100, R128): one handshake and one turn of `HOST`'s for each byte, and the
caller has the block. -/
theorem runSequence_rdlp {max : Byte} {bs : List Byte} {s : State} (hw : s.wstate = .idle) (hp : s.parse = .idle)
    (hb : s.block = none) (hlink : s.linkBound = true) (hmax : bs.length ≤ max.toNat) (hs : PeerSends s (blockPayloads bs)) :
    runSequence (.rdlp max) bs.length s = .next { s with
      answers := s.answers.drop (1 + bs.length), linkCount := s.linkCount + (1 + bs.length), linkTx := [0x00, 0x00],
      marked := s.marked || linkAlive s, verdict := .done .ok,
      result := .block (bs ++ List.replicate (max.toNat - bs.length) 0) bs.length } := by
  have hbyte : bs.length < 256 := by omega
  have hdirect : ∀ left i st, s.parse ≠ .fields left i st := by simp [hp]
  rw [runSequence, exec_rdlp_direct max (by simp [hw]) hb hp]
  show hostTurns bs.length (lengthStep max.toNat (outsideContract s)) = _
  rw [hostTurns_lengthStep (s := outsideContract s) hw hlink hbyte hmax hs,
    endBlock_direct (s := afterHandshakes (1 + bs.length) (outsideContract s)) _ _ hdirect, ← hb]
  rfl

/-- Settles O17: the handshake of the length, that of a data word, and by induction on the bytes the whole block. -/
theorem blockReadSucceeds : Obligations.BlockReadSucceeds := by
  refine ⟨fun max s hw hb hlink hp hv hpos hmax => exec_rdlp_holds hw hb hlink hp hv hpos hmax,
    fun max left got s hw hlink hb hv => ⟨exec_xchg16_holds hw hlink hb hv, ?last⟩,
    fun max bs s hw hp hb hlink hmax hs => runSequence_rdlp hw hp hb hlink hmax hs⟩
  case last =>
    rintro rfl hp
    exact exec_xchg16_last hw hlink hb hv hp

end Sys2Proof.Machine
end

section
/-! What an instruction can do to the block, said once, as a run of small moves: those of the data path, which leave the link's
lifecycle alone, and those of the lifecycle itself. An invariant that every move keeps is then kept by every step. -/

namespace Sys2Proof.Machine

/-! ### The moves -/

/-- `t` is `s` but for the inputs from outside, the outputs and the record of the run, and the two counters have not fallen (R42, R47 to
R49). No invariant reads these. -/
structure Recorded (s t : State) : Prop where
  eq : t = { s with
    ocBuf := t.ocBuf, peerPresent := t.peerPresent, answers := t.answers, sched := t.sched, verdict := t.verdict,
    result := t.result, icReady := t.icReady, ocAck := t.ocAck, linkTx := t.linkTx, linkCount := t.linkCount,
    marked := t.marked, diagXferFaults := t.diagXferFaults, diagInDrops := t.diagInDrops }
  faults : s.diagXferFaults ≤ t.diagXferFaults
  drops : s.diagInDrops ≤ t.diagInDrops

/-- The queues exist, or the worker is in a cycle, which it is only where they do (R52, R222). -/
def InUse (s : State) : Prop := s.lstate = .up ∨ s.lstate = .shutdown ∨ s.wstate = .running

/-- The moves that leave the link, the sequences of handshakes and the identity alone. `i` is the instruction that runs. -/
inductive DataMove (i : Option Instr) (s : State) : State → Prop where
  /-- An input is taken in, an output given, or the record kept. -/
  | records {t : State} : Recorded s t → DataMove i s t
  /-- The request latch is set (R141). -/
  | requested : s.lstate = .up → s.wstate = .idle → DataMove i s { s with wstate := .pending }
  /-- Endpoint bits and the hold of `OUT_DRAIN` (R36 to R39). -/
  | endpoints (oa ia rc dw : Bool) : s.lstate = .up →
      DataMove i s { s with outActive := oa, inActive := ia, readyCb := rc, drainWait := dw }
  /-- A hold of `OUT_DRAIN` ends (R269). -/
  | released : DataMove i s { s with drainWait := false }
  /-- The synchroniser shifts (R252). -/
  | shifted (m l p : Bool) : DataMove i s { s with sbMeta := m, sbLevel := l, sbPrev := p }
  /-- The LED command is written (R171). -/
  | commanded (d : Byte) : i = some (.flashLed d) → s.lstate = .up → DataMove i s { s with ledDuration := d, ledPending := true }
  /-- The LED command is taken into a slot (R175). -/
  | ledTaken : s.wstate = .running → DataMove i s { s with ledDuration := 0, ledPending := false }
  /-- The queues give or take bytes, and their registers still agree (R35). -/
  | queues (q r : Ring) : InUse s → (s.oq.ok = true → q.ok = true) → (s.iq.ok = true → r.ok = true) →
      DataMove i s { s with oq := q, iq := r }
  /-- A byte is charged while the gate is open (R191, R193). -/
  | charged : InUse s → s.usage < 126000 → DataMove i s { s with usage := s.usage + 1000 }
  /-- The estimate decays (R194). -/
  | decayed (u : Nat) : u ≤ s.usage → DataMove i s { s with usage := u }
  /-- The worker takes up the pending request (R143). -/
  | started : s.wstate = .pending → DataMove i s { s with wstate := .running, phase := .refill }
  /-- The worker writes the registers that are its own (R24 to R28). -/
  | cycled (p : Phase) (hd cb : Bool) (fo fi : Frame) : s.wstate = .running →
      DataMove i s { s with phase := p, hadData := hd, cbFired := cb, frameOut := fo, frameIn := fi }
  /-- The time of an exchange is taken, which is not in the future (R31, R148). -/
  | timed (e n : Nat) : s.wstate = .running → n ≤ s.now → DataMove i s { s with elapsed := e, lastXfer := n }
  /-- The cycle ends (R155). -/
  | flushed : s.wstate = .running → DataMove i s { s with wstate := .idle }

/-- The instructions that make a handshake of a sequence (R99, R126, R128, R231). -/
def makesHandshake : Instr → Bool
  | .idParse | .rdlp _ | .xchg16 | .hsInvalid | .hsValid _ _ => true
  | _ => false

/-- The moves of the link's lifecycle and of the sequences of handshakes. `HOST` resumes a `LINK_DOWN` with no instruction running. -/
inductive LinkMove (i : Option Instr) (s : State) : State → Prop where
  /-- A sequence goes on with what the exchange before has read. -/
  | sequence {j : Instr} {t : State} : i = some j → makesHandshake j = true → SequenceStep s t → LinkMove i s t
  /-- `LINK_UP` finds no peripheral (R288). -/
  | absent : i = some .linkUp → s.lstate = .down → LinkMove i s (rollBack (beginBringUp s))
  /-- `LINK_UP` binds a link (R286). -/
  | bound : i = some .linkUp → s.lstate = .down → LinkMove i s (bindLink (beginBringUp s))
  /-- `LINK_DOWN` shuts new work out (R291). -/
  | shut : i = some .linkDown → s.lstate = .up → LinkMove i s (shutOut s)
  /-- `LINK_DOWN` completes (R291, R293). -/
  | tornDown : (∀ j, i = some j → j = .linkDown) → s.lstate = .shutdown → s.wstate = .idle → LinkMove i s (tearDown s)

/-- One move, of the data path or of the lifecycle. -/
inductive Move (i : Option Instr) (s : State) : State → Prop where
  | data {t : State} : DataMove i s t → Move i s t
  | link {t : State} : LinkMove i s t → Move i s t

/-- A run of moves of one step. -/
def Moves (i : Option Instr) : State → State → Prop := Relation.ReflTransGen (Move i)

/-- What every move keeps, a run of them keeps. -/
theorem Moves.keeps {i : Option Instr} {s t : State} (P : State → Prop) (hmove : ∀ x y, Move i x y → P x → P y)
    (h : Moves i s t) (hs : P s) : P t := by
  induction h with
  | refl => exact hs
  | tail _ hm ih => exact hmove _ _ hm ih

theorem Moves.refl {i : Option Instr} (s : State) : Moves i s s := Relation.ReflTransGen.refl

theorem Moves.data {i : Option Instr} {s t u : State} (h : Moves i s t) (hm : DataMove i t u) : Moves i s u :=
  Relation.ReflTransGen.tail h (.data hm)

theorem Moves.link {i : Option Instr} {s t u : State} (h : Moves i s t) (hm : LinkMove i t u) : Moves i s u :=
  Relation.ReflTransGen.tail h (.link hm)

/-! ### Moves of the shared operations -/

theorem Recorded.trans {s t u : State} (h : Recorded s t) (k : Recorded t u) : Recorded s u := by
  refine ⟨?_, Nat.le_trans h.faults k.faults, Nat.le_trans h.drops k.drops⟩
  have hu := k.eq
  rw [h.eq] at hu
  exact hu

theorem recorded_reply (v : Verdict) (r : Result) (s : State) : Recorded s (s.reply v r) := ⟨rfl, Nat.le_refl _, Nat.le_refl _⟩

theorem recorded_refuse (s : State) : Recorded s s.refuse := ⟨rfl, Nat.le_refl _, Nat.le_refl _⟩

theorem recorded_outsideContract (s : State) : Recorded s (outsideContract s) := ⟨rfl, Nat.le_refl _, Nat.le_refl _⟩

theorem recorded_sched (l : List Event) (s : State) : Recorded s { s with sched := l } := ⟨rfl, Nat.le_refl _, Nat.le_refl _⟩

theorem OnlyLink.recorded {s t : State} (h : OnlyLink s t) : Recorded s t := by
  obtain ⟨heq, _, hfaults⟩ := h
  refine ⟨?_, hfaults, ?_⟩
  · rw [heq]
  · rw [heq]

section Operations

variable {i : Option Instr} {s t : State}

theorem Moves.records {u : State} (h : Moves i s t) (hr : Recorded t u) : Moves i s u := h.data (.records hr)

theorem Moves.reply (v : Verdict) (r : Result) (h : Moves i s t) : Moves i s (t.reply v r) := h.records (recorded_reply v r t)

theorem Moves.outside (h : Moves i s t) : Moves i s (outsideContract t) := h.records (recorded_outsideContract t)

theorem moves_refuse (s : State) : Moves i s s.refuse := (Moves.refl s).records (recorded_refuse s)

/-- An operation that is admitted under a condition and refused otherwise (R10). -/
theorem moves_ite_refuse {c : Prop} [Decidable c] (h : c → Moves i s t) : Moves i s (if c then t else s.refuse) := by
  split
  · exact h ‹_›
  · exact moves_refuse s

theorem Moves.request (h : Moves i s t) : Moves i s (requestCycle t) := by
  rcases requestCycle_cases t with ⟨hl, hw, he⟩ | he <;> rw [he]
  · exact h.data (.requested hl hw)
  · exact h

theorem moves_notifyEdge (s : State) : Moves i s (notifyEdge s) := by
  rcases notifyEdge_cases s with ⟨_, hl, hw, he⟩ | he <;> rw [he]
  · exact (Moves.refl s).data (.requested hl hw)
  · exact .refl s

theorem moves_sampleLine (v : Bool) (s : State) : Moves i s (sampleLine v s) := by
  have hshift := (Moves.refl (i := i) s).data (.shifted v s.sbMeta s.sbLevel)
  rcases sampleLine_cases v s with ⟨_, _, _, hl, hw, he⟩ | he <;> rw [he]
  · exact hshift.data (.requested hl hw)
  · exact hshift

theorem Moves.oq {q : Ring} (h : Moves i s t) (hu : InUse t) (hq : t.oq.ok = true → q.ok = true) :
    Moves i s { t with oq := q } := h.data (.queues q t.iq hu hq id)

theorem Moves.iq {q : Ring} (h : Moves i s t) (hu : InUse t) (hq : t.iq.ok = true → q.ok = true) :
    Moves i s { t with iq := q } := h.data (.queues t.oq q hu id hq)

theorem Moves.refill (h : Moves i s t) (hu : InUse t) : Moves i s (refillOutbound t) := by
  have hq := h.oq hu fun hok => (ringPushAll_spec (peekWindow t) t.oq hok).1
  exact hq.records ⟨rfl, Nat.le_refl _, Nat.le_refl _⟩

theorem moves_storeInbound (b : Byte) (hu : InUse s) : Moves i s (storeInbound b s).2 := by
  unfold storeInbound
  split
  · exact (Moves.refl s).records ⟨rfl, Nat.le_refl _, Nat.le_succ _⟩
  · rename_i q hp
    exact (Moves.refl s).iq hu fun hok => (ringPush_gained s.iq q b hok hp).ok

theorem storeInbound_wstate (b : Byte) (s : State) : (storeInbound b s).2.wstate = s.wstate := by
  unfold storeInbound
  split <;> rfl

theorem moves_deliverPair (tag v : Byte) (hw : s.wstate = .running) : Moves i s (deliverPair tag v s) := by
  have hrun : (storeInbound v s).2.wstate = .running := (storeInbound_wstate v s).trans hw
  have hstored : Moves i s { (storeInbound v s).2 with hadData := true } :=
    (moves_storeInbound v (.inr (.inr hw))).data (.cycled _ _ _ _ _ hrun)
  unfold deliverPair deliverByte
  split
  · exact .refl s
  · simp only
    split
    · exact (hstored.records (u := pulseReady _) ⟨rfl, Nat.le_refl _, Nat.le_refl _⟩).data (.cycled _ _ true _ _ hrun)
    · exact hstored

theorem deliverPair_wstate (tag v : Byte) (s : State) : (deliverPair tag v s).wstate = s.wstate := by
  unfold deliverPair deliverByte
  split
  · rfl
  · simp only
    split <;> exact storeInbound_wstate v s

theorem moves_putSlot (k : SlotIx) (sl : Slot) (hw : s.wstate = .running) : Moves i s (putSlot k sl s) :=
  (Moves.refl s).data (.cycled _ _ _ _ _ hw)

theorem composeOne_wstate (k : SlotIx) (s : State) : (composeOne k s).wstate = s.wstate := by
  unfold composeOne
  split
  · rfl
  · split
    · split <;> rfl
    · rfl

theorem moves_composeOne (k : SlotIx) (hw : s.wstate = .running) : Moves i s (composeOne k s) := by
  have hput (sl : Slot) : Moves i s (putSlot k sl s) := moves_putSlot k sl hw
  unfold composeOne
  split
  · exact (hput _).data (.ledTaken hw)
  · rename_i hled
    split
    · rename_i hcan
      have hgate : s.usage < 126000 := by simpa [hled] using (canSendFlag_iff s).1 hcan
      split
      · rename_i b q hp
        have hq := (hput (midiPair b)).oq (q := q) (.inr (.inr hw)) fun hok => (ringPop_lost s.oq q b hok hp).ok
        exact hq.data (.charged (.inr (.inr hw)) hgate)
      · exact hput _
    · exact hput _

theorem moves_emitSlot (sl : Slot) (s : State) : Moves i s (emitSlot sl s) := by
  unfold emitSlot
  split
  · rename_i k hk
    exact (moves_putSlot k sl ((composingSlot_iff s k).1 hk).1).outside.reply _ _
  · exact moves_refuse s

theorem decayUsage_le (n : Nat) (s : State) : (decayUsage n s).usage ≤ s.usage := by
  simp only [decayUsage]
  split <;> omega

theorem moves_decayUsage (n : Nat) (s : State) : Moves i s (decayUsage n s) := (Moves.refl s).data (.decayed _ (decayUsage_le n s))

theorem exchangeStep_wstate (s : State) : (exchangeStep s).wstate = s.wstate := by
  show (exchangeFrame s.frameOut s).after.wstate = s.wstate
  rw [(exchangeFrame_onlyLink s.frameOut s).eq]

theorem moves_exchangeStep (hw : s.wstate = .running) : Moves i s (exchangeStep s) := by
  have hx := (exchangeFrame_onlyLink s.frameOut s).recorded
  have hrun : (exchangeFrame s.frameOut s).after.wstate = .running := (exchangeStep_wstate s).trans hw
  have hnow : (exchangeFrame s.frameOut s).after.now = s.now := by rw [hx.eq]
  have hread : Moves i s { (exchangeFrame s.frameOut s).after with frameIn := (exchangeFrame s.frameOut s).rx } :=
    ((Moves.refl s).records hx).data (.cycled _ _ _ _ _ hrun)
  exact hread.data (.timed _ _ hrun hnow.ge)

theorem InUse.of_queueOpen (h : queueOpen s = true) : InUse s := by
  obtain ⟨hl | hl, _⟩ := (queueOpen_iff s).1 h
  · exact .inl hl
  · exact .inr (.inl hl)

/-! ### Handshakes -/

/-- `x` is `s` after the exchange of one handshake, which is counted where a link is bound (R126). -/
structure HandshakeMade (s x : State) : Prop where
  recorded : Recorded s x
  counted : s.linkBound = true → x.linkCount = s.linkCount + 1

theorem exchangeWord_made (s : State) : HandshakeMade s (exchangeWord s).after :=
  ⟨(exchangeWord_onlyLink s).recorded, fun hb => by rw [exchangeWord_after s hb]⟩

theorem HandshakeMade.after_recorded {x u : State} (h : HandshakeMade t x) (hr : Recorded u t) (hb : t.linkBound = u.linkBound)
    (hc : t.linkCount = u.linkCount) : HandshakeMade u x :=
  ⟨hr.trans h.recorded, fun hu => by rw [h.counted (hb.trans hu), hc]⟩

theorem singleHandshake_recorded (s : State) : Recorded s (singleHandshake s) :=
  ((exchangeWord_made s).recorded.trans (recorded_outsideContract _)).trans (recorded_reply _ _ _)

/-- Everything an instruction that makes handshakes can do: refused, a handshake of its own, or one exchange and what the sequence
makes of it. -/
theorem exec_handshake_cases {j : Instr} (hj : makesHandshake j = true) (h : exec j s = .next t) :
    Recorded s t ∨ ∃ x, HandshakeMade s x ∧ SequenceStep x t := by
  have hrespond (r p : Byte) : Recorded s (respond r p s) ∨ ∃ x, HandshakeMade s x ∧ SequenceStep x (respond r p s) := by
    rcases respond_cases r p s with he | ⟨_, _, hseq⟩
    · exact .inl (he ▸ recorded_refuse s)
    · have hanswered : Recorded s { outsideContract s with answers := handshakeAnswer r p :: s.answers } :=
        ⟨rfl, Nat.le_refl _, Nat.le_refl _⟩
      exact .inr ⟨_, (exchangeWord_made _).after_recorded hanswered rfl rfl, hseq⟩
  cases j with
  | idParse =>
    rcases execIdParse_cases s with he | ⟨_, t', hseq, he⟩ <;> cases he.symm.trans h
    · exact .inl (recorded_refuse s)
    · exact .inr ⟨_, exchangeWord_made s, hseq⟩
  | rdlp max =>
    rcases execRdlp_cases max s with he | ⟨t', hseq, he⟩ | ⟨_, t', hseq, he⟩ <;> cases he.symm.trans h
    · exact .inl (recorded_refuse s)
    · exact .inr ⟨_, exchangeWord_made s, hseq⟩
    · exact .inr ⟨_, (exchangeWord_made _).after_recorded (recorded_outsideContract s) rfl rfl, hseq⟩
  | xchg16 =>
    cases h
    split
    · exact .inl (recorded_refuse s)
    · rcases handshake_cases s with hseq | ⟨_, _, he⟩
      · exact .inr ⟨_, exchangeWord_made s, hseq⟩
      · exact .inl (he ▸ singleHandshake_recorded s)
  | hsInvalid => cases h; exact hrespond 0 0
  | hsValid r p => cases h; exact hrespond r p
  | _ => cases hj

theorem exec_handshake_moves {j : Instr} (hj : makesHandshake j = true) (h : exec j s = .next t) : Moves (some j) s t := by
  rcases exec_handshake_cases hj h with hr | ⟨x, hx, hseq⟩
  · exact (Moves.refl s).records hr
  · exact ((Moves.refl s).records hx.recorded).link (.sequence rfl hj hseq)

/-! ### Every instruction is a run of moves -/

theorem moves_quiesceThenTearDown (hi : ∀ j, i = some j → j = .linkDown) (hl : t.lstate = .shutdown) (h : Moves i s t) :
    Moves i s (quiesceThenTearDown t) := by
  rcases quiesceThenTearDown_cases t with ⟨hw, he⟩ | ⟨_, he⟩ <;> rw [he]
  · exact (h.link (.tornDown hi hl hw)).reply _ _
  · exact h.reply _ _

theorem moves_resumeLinkDown (s : State) : Moves none s (resumeLinkDown s) := by
  unfold resumeLinkDown
  split
  · exact moves_quiesceThenTearDown (by simp) ‹_› (.refl s)
  · exact .refl s

theorem moves_startBringUp (hl : s.lstate = .down) : Moves (some .linkUp) s (startBringUp s) := by
  rcases startBringUp_cases s with ⟨_, he⟩ | ⟨_, he⟩ <;> rw [he]
  · exact ((Moves.refl s).link (.absent rfl hl)).reply _ _
  · exact ((Moves.refl s).link (.bound rfl hl)).reply _ _

end Operations

/-- Every instruction, in every state, is a run of moves. -/
theorem exec_moves {j : Instr} {s t : State} (h : exec j s = .next t) : Moves (some j) s t := by
  have start : Moves (some j) s s := .refl s
  cases j with
  | idParse | rdlp | xchg16 | hsInvalid | hsValid => exact exec_handshake_moves rfl h
  | rxNone | sbLevel | canSend => cases h; exact start.reply _ _
  | slotRsvd => cases h; exact moves_refuse s
  | slotEmpty | slotMidi | slotLed => cases h; exact moves_emitSlot _ s
  | rxData tag v =>
    cases h
    split
    · rename_i k hk
      exact (moves_deliverPair tag v ((deliveringSlot_iff s k).1 hk).1).outside.reply _ _
    · exact moves_refuse s
  | hsReq =>
    cases h
    split
    · exact moves_refuse s
    · split
      · exact (start.records (u := { s with linkTx := wordBytes Config.hsRequest }) ⟨rfl, Nat.le_refl _, Nat.le_refl _⟩).outside.reply _ _
      · exact (start.records (u := countFault s) ⟨rfl, Nat.le_succ _, Nat.le_refl _⟩).outside.reply _ _
  | linkUp => cases h; exact moves_ite_refuse moves_startBringUp
  | linkDown =>
    cases h
    exact moves_ite_refuse fun hl => moves_quiesceThenTearDown (by simp) rfl (start.link (.shut rfl hl))
  | flashLed d => cases h; exact moves_ite_refuse fun hl => (start.data (.commanded d rfl hl)).request.reply _ _
  | reqCycle => cases h; exact start.request.reply _ _
  | outStart => cases h; exact moves_ite_refuse fun _ => start.request.reply _ _
  | outOpen | outClose | inOpen | inClose | inStop =>
    cases h; exact moves_ite_refuse fun hl => (start.data (.endpoints _ _ _ _ hl)).reply _ _
  | inStart => cases h; exact moves_ite_refuse fun hl => (start.data (.endpoints _ _ _ _ hl)).request.reply _ _
  | outDrain =>
    cases h
    split
    · exact (start.data .released).records (recorded_refuse _)
    · rename_i hl
      split
      · exact (start.data .released).reply _ _
      · exact (start.data (.endpoints _ _ _ true (not_not.1 hl))).request.reply _ _
  | iqDrain =>
    cases h
    exact moves_ite_refuse fun hl => (start.iq (.inl hl) fun hok => (ringDrain_spec s.iq hok).1).reply _ _
  | idGet sel =>
    have hget : execIdGet sel s = .next t := h
    unfold execIdGet at hget
    split at hget <;> cases hget
    case h_5 => exact moves_refuse s
    all_goals exact start.reply _ _
  | oqLen | iqLen => cases h; exact moves_ite_refuse fun _ => start.reply _ _
  | oqPush b =>
    cases h
    split
    · exact moves_refuse s
    · rename_i hl
      split
      · exact start.reply _ _
      · rename_i q hp
        have hup : s.lstate = .up := not_not.1 fun hne => hl (.inl hne)
        have hpush := start.oq (.inl hup) fun hok => (ringPush_gained s.oq q b hok hp).ok
        simp only
        split
        · exact hpush.request.reply _ _
        · exact hpush.reply _ _
  | cycStart => cases h; exact moves_ite_refuse fun hw => (start.data (.started hw)).reply _ _
  | itRefill =>
    cases h
    refine moves_ite_refuse fun hen => ?_
    obtain ⟨hw, _⟩ := (enabledAt_iff _ s).1 hen
    have hclear := start.data (.cycled s.phase false false s.frameOut s.frameIn hw)
    unfold refillStep
    simp only
    split
    · exact ((hclear.refill (.inr (.inr hw))).data (.cycled _ _ _ _ _ hw)).reply _ _
    · exact (hclear.data (.cycled _ _ _ _ _ hw)).reply _ _
  | composeSlot k =>
    cases h
    refine moves_ite_refuse fun hen => ?_
    obtain ⟨hw, _⟩ := (enabledAt_iff _ s).1 hen
    exact ((moves_composeOne k hw).data (.cycled _ _ _ _ _ ((composeOne_wstate k s).trans hw))).reply _ _
  | itXchg =>
    cases h
    refine moves_ite_refuse fun hen => ?_
    obtain ⟨hw, _⟩ := (enabledAt_iff _ s).1 hen
    exact ((moves_exchangeStep hw).data (.cycled _ _ _ _ _ ((exchangeStep_wstate s).trans hw))).reply _ _
  | itDecay =>
    cases h
    refine moves_ite_refuse fun hen => ?_
    obtain ⟨hw, _⟩ := (enabledAt_iff _ s).1 hen
    exact ((moves_decayUsage s.elapsed s).data (.cycled _ _ _ _ _ hw)).reply _ _
  | deliverSlot k =>
    cases h
    refine moves_ite_refuse fun hen => ?_
    obtain ⟨hw, _⟩ := (enabledAt_iff _ s).1 hen
    exact ((moves_deliverPair _ _ hw).data (.cycled _ _ _ _ _ ((deliverPair_wstate _ _ s).trans hw))).reply _ _
  | itCont =>
    cases h
    refine moves_ite_refuse fun hen => ?_
    exact (start.data (.cycled _ _ _ _ _ ((enabledAt_iff _ s).1 hen).1)).reply _ _
  | cycFlush =>
    cases h
    refine moves_ite_refuse fun hen => ?_
    obtain ⟨hw, _⟩ := (enabledAt_iff _ s).1 hen
    split
    · exact ((start.records (u := pulseReady s) ⟨rfl, Nat.le_refl _, Nat.le_refl _⟩).data (.flushed hw)).reply _ _
    · exact (start.data (.flushed hw)).reply _ _
  | sbSample v => cases h; exact (moves_sampleLine v s).reply _ _
  | sbEdge => cases h; exact (moves_notifyEdge s).reply _ _
  | xchg tx =>
    cases h
    split
    · exact moves_refuse s
    · exact (start.records (exchangeFrame_onlyLink tx s).recorded).outside.reply _ _
  | quiesce =>
    cases h
    split <;> exact start.reply _ _
  | oqPop =>
    cases h
    refine moves_ite_refuse fun hopen => ?_
    split
    · exact start.outside.reply _ _
    · rename_i b q hp
      exact (start.oq (.of_queueOpen hopen) fun hok => (ringPop_lost s.oq q b hok hp).ok).outside.reply _ _
  | oqRefill => cases h; exact moves_ite_refuse fun hopen => (start.refill (.of_queueOpen hopen)).outside.reply _ _
  | iqPush b => cases h; exact moves_ite_refuse fun hopen => (moves_storeInbound b (.of_queueOpen hopen)).outside.reply _ _
  | onSent =>
    cases h
    refine moves_ite_refuse fun hguard => ?_
    obtain ⟨hl, hgate, _⟩ := (sentGuard_iff s).1 hguard
    exact (start.data (.charged (hl.elim .inl fun hl => .inr (.inl hl)) hgate)).reply _ _
  | onElapsed n => cases h; exact (moves_decayUsage n s).reply _ _

end Sys2Proof.Machine
end

section
/-! The invariants of R52, that `DOWN` is one state, the limits of the identity, time and the counters: kept by every move and so by
every step, and held at reset. -/

namespace Sys2Proof.Machine

/-! ### What the moves leave alone -/

/-- The link, the sequences of handshakes and the identity of `t` are those of `s`, and so are time and the parameters. -/
structure SameLink (s t : State) : Prop where
  lstate : t.lstate = s.lstate
  linkBound : t.linkBound = s.linkBound
  parse : t.parse = s.parse
  block : t.block = s.block
  serial : t.idSerial = s.idSerial
  uid : t.idUid = s.idUid
  fw : t.idFw = s.idFw
  hw : t.idHw = s.idHw
  valid : t.idValid = s.idValid
  now : t.now = s.now
  params : t.params = s.params

theorem DataMove.sameLink {i : Option Instr} {s t : State} (h : DataMove i s t) : SameLink s t := by
  cases h with
  | records hr => rw [hr.eq]; constructor <;> rfl
  | _ => constructor <;> rfl

/-- The end of a bring-up, with the request that the kick may have made (R256, R286). -/
theorem finishBringUp_eq (st : Staging) (s : State) :
    finishBringUp st s =
      ({ createLink (publish st s) with wstate := (finishBringUp st s).wstate } : State).succeed := by
  rcases kick_cases (createLink (publish st s)) with ⟨_, _, _, he⟩ | he <;> simp only [finishBringUp, he] <;> rfl

/-- The answer of a block read is an outcome and a result, and changes nothing else (R128). -/
theorem blockReply_eq (max : Nat) (got : Option (List Byte)) (s : State) :
    blockReply max got s = s.reply (blockReply max got s).verdict (blockReply max got s).result := by
  cases got <;> rfl

/-! ### The invariants of R52 -/

/-- A sequence is in progress in `BRINGUP` alone (R21). -/
theorem Inv.bringup_of_parse {s : State} (h : Inv s) (hp : s.parse ≠ .idle) : s.lstate = .bringup := h.parsing.1 hp

theorem Inv.worker_idle {s : State} (h : Inv s) (hl : s.lstate = .down ∨ s.lstate = .bringup) : s.wstate = .idle := by
  by_contra hw
  rcases h.worker hw with hu | hu <;> simp [hu] at hl

theorem Inv.not_draining {s : State} (h : Inv s) (hl : s.lstate ≠ .up) : s.drainWait = false :=
  Bool.eq_false_iff.2 (mt h.drain hl)

theorem Inv.alive_of_running {s : State} (h : Inv s) (hw : s.wstate = .running) : s.lstate = .up ∨ s.lstate = .shutdown :=
  h.worker (by simp [hw])

theorem Inv.alive_of_inUse {s : State} (h : Inv s) (hu : InUse s) : s.lstate = .up ∨ s.lstate = .shutdown := by
  rcases hu with hl | hl | hw
  · exact .inl hl
  · exact .inr hl
  · exact h.alive_of_running hw

/-- In `DOWN`, where nothing is in progress, the clauses on the data are all there is to the invariants. -/
theorem Inv.of_down {s : State} (hl : s.lstate = .down) (hlink : s.linkBound = false) (hp : s.parse = .idle) (hb : s.block = none)
    (hw : s.wstate = .idle) (hd : s.drainWait = false) (ha : s.sbArmed = false) (usage_le : s.usage ≤ Config.usageMax)
    (oq_ok : s.oq.ok = true) (iq_ok : s.iq.ok = true) (led : s.ledPending = false → s.ledDuration = 0)
    (time : s.lastXfer ≤ s.now) : Inv s where
  usage_le := usage_le
  oq_ok := oq_ok
  iq_ok := iq_ok
  led := led
  worker h := absurd hw h
  bound h := by simp [hl] at h
  unbound _ := hlink
  time := time
  drain h := by simp [hd] at h
  armed h := by simp [ha] at h
  parsing := by simp [hp, hl]
  parsing_bound h := by simp [hl] at h
  count_first _ := hb
  fields_left _ _ _ h := by simp [hp] at h
  block_ok _ h := by simp [hb] at h

theorem DataMove.inv {i : Option Instr} {s t : State} (h : DataMove i s t) (hs : Inv s) : Inv t := by
  cases h with
  | records hr => rw [hr.eq]; exact { hs with }
  | shifted => exact { hs with }
  | cycled => exact { hs with }
  | requested hl _ => exact { hs with worker := fun _ => .inl hl }
  | endpoints _ _ _ _ hl => exact { hs with drain := fun _ => hl }
  | released => exact { hs with drain := fun h => nomatch h }
  | commanded _ _ _ => exact { hs with led := fun h => nomatch h }
  | ledTaken _ => exact { hs with led := fun _ => rfl }
  | queues q r _ hq hr => exact { hs with oq_ok := hq hs.oq_ok, iq_ok := hr hs.iq_ok }
  | charged _ hgate => exact { hs with usage_le := by simp only [Config.usageMax, Config.ceiling, Config.cost]; omega }
  | decayed u hu => exact { hs with usage_le := Nat.le_trans hu hs.usage_le }
  | started hw => exact { hs with worker := fun _ => hs.worker (by simp [hw]) }
  | timed _ _ _ hn => exact { hs with time := hn }
  | flushed _ => exact { hs with worker := fun h => absurd rfl h }

theorem rollBack_inv {s : State} (hs : Inv s) (hl : s.lstate ≠ .up) (hw : s.wstate = .idle) : Inv (rollBack s) :=
  .of_down rfl rfl rfl rfl hw (hs.not_draining hl) (hs.not_armed hl) hs.usage_le hs.oq_ok hs.iq_ok hs.led hs.time

theorem createLink_inv (st : Staging) {s : State} (w : WState) (hlink : s.linkBound = true) :
    Inv { createLink (publish st s) with wstate := w } where
  usage_le := Nat.zero_le _
  oq_ok := ring_empty_ok
  iq_ok := ring_empty_ok
  led _ := rfl
  worker _ := .inl rfl
  bound _ := hlink
  unbound h := nomatch h
  time := Nat.le_refl _
  drain h := nomatch h
  armed _ := rfl
  parsing := ⟨fun h => absurd rfl h, fun h => nomatch h⟩
  parsing_bound h := nomatch h
  count_first _ := rfl
  fields_left _ _ _ h := nomatch h
  block_ok _ h := nomatch h

theorem Inv.reply {s : State} (hs : Inv s) (v : Verdict) (r : Result) : Inv (s.reply v r) := { hs with }

theorem SequenceStep.inv {s t : State} (h : SequenceStep s t) (hs : Inv s) : Inv t := by
  cases h with
  | failed hp =>
    have hl := hs.bringup_of_parse hp
    exact (rollBack_inv hs (by simp [hl]) (hs.worker_idle (.inr hl))).reply _ _
  | finished st hp _ =>
    rw [finishBringUp_eq]
    exact (createLink_inv st _ (hs.parsing_bound (hs.bringup_of_parse hp))).reply _ _
  | field n i st hp hn hstart hfields _ =>
    have hl := hs.bringup_of_parse hp
    have hcount : i + n ≤ 255 := by
      cases hq : s.parse with
      | idle => exact absurd hq hp
      | start => have := hstart hq; omega
      | fields l j st' =>
        have := hfields l j st' hq
        have := (hs.fields_left l j st' hq).2.1
        omega
    exact { hs with
      parsing := ⟨fun _ => hl, fun _ => by simp⟩
      count_first := fun h => nomatch h
      fields_left := by
        intro l j st' h
        cases h
        exact ⟨hn, hcount, fun _ h => nomatch h⟩
      block_ok := fun _ h => nomatch h }
  | word b hlink hok hsame hfirst =>
    exact { hs with
      count_first := fun hq => by
        exact absurd hq (hfirst (hs.count_first hq)).1
      fields_left := by
        intro l j st hq
        obtain ⟨hl, hcount, hmax⟩ := hs.fields_left l j st hq
        refine ⟨hl, hcount, fun b' hb' => ?_⟩
        cases hb'
        cases hb : s.block with
        | none => exact (hfirst hb).2 l j st hq
        | some b' => rw [hsame b' hb, hmax b' hb]
      block_ok := by
        intro b' hb'
        cases hb'
        exact ⟨hlink, hok fun b' hb => (hs.block_ok b' hb).2⟩ }
  | answered max got hp =>
    rw [blockReply_eq]
    exact { hs with
      count_first := fun _ => rfl
      fields_left := fun l j st hq => absurd hq (hp l j st)
      block_ok := fun _ h => nomatch h }

theorem tearDown_inv {s : State} (hs : Inv s) (hl : s.lstate = .shutdown) (hw : s.wstate = .idle) : Inv (tearDown s) :=
  .of_down rfl rfl rfl rfl hw (hs.not_draining (by simp [hl])) (hs.not_armed (by simp [hl])) (Nat.zero_le _) ring_empty_ok
    ring_empty_ok (fun _ => rfl) (Nat.zero_le _)

theorem LinkMove.inv {i : Option Instr} {s t : State} (h : LinkMove i s t) (hs : Inv s) : Inv t := by
  cases h with
  | sequence _ _ hseq => exact hseq.inv hs
  | absent _ hl =>
    have hdown : s.lstate ≠ .up := by simp [hl]
    exact .of_down rfl rfl rfl rfl rfl (hs.not_draining hdown) (hs.not_armed hdown) hs.usage_le hs.oq_ok hs.iq_ok hs.led hs.time
  | bound _ hl =>
    have hdown : s.lstate ≠ .up := by simp [hl]
    exact { hs with
      worker := fun h => absurd rfl h
      bound := fun h => nomatch h
      unbound := fun h => nomatch h
      drain := fun h => absurd (hs.drain h) hdown
      armed := fun h => absurd (hs.armed h) hdown
      parsing := ⟨fun _ => rfl, fun _ h => nomatch h⟩
      parsing_bound := fun _ => rfl
      count_first := fun _ => rfl
      fields_left := fun _ _ _ h => nomatch h
      block_ok := fun _ h => nomatch h }
  | shut _ hl =>
    have hp : s.parse = .idle := hs.parse_idle (by simp [hl])
    exact { hs with
      worker := fun _ => .inr rfl
      bound := fun h => nomatch h
      unbound := fun h => nomatch h
      drain := fun h => nomatch h
      armed := fun h => nomatch h
      parsing := ⟨fun h => absurd hp h, fun h => nomatch h⟩
      parsing_bound := fun h => nomatch h }
  | tornDown _ hl hw => exact tearDown_inv hs hl hw

theorem Move.inv {i : Option Instr} {s t : State} (h : Move i s t) (hs : Inv s) : Inv t := by
  cases h with
  | data hm => exact hm.inv hs
  | link hm => exact hm.inv hs

theorem hardReset_inv (s : State) : Inv (hardReset s) :=
  .of_down rfl rfl rfl rfl rfl rfl rfl (Nat.zero_le _) ring_empty_ok ring_empty_ok (fun _ => rfl) (Nat.zero_le _)

/-! ### `DOWN` is one state (R21, R293) -/

/-- Where the link is up or going down the predicate asks nothing. -/
theorem DownIsReset.of_alive {s : State} (h : s.lstate = .up ∨ s.lstate = .shutdown) : DownIsReset s where
  down hl := by simp [hl] at h
  bringup hl := by simp [hl] at h

theorem AtResetValues.recorded {s t : State} (h : AtResetValues s) (hr : Recorded s t) : AtResetValues t := by
  rw [hr.eq]
  exact { h with }

theorem rollBack_atResetValues {s : State} (h : AtResetValues { s with linkBound := false, parse := .idle, block := none }) :
    AtResetValues (rollBack s) := { h with identity := ⟨rfl, rfl, rfl, rfl, rfl⟩ }

theorem beginBringUp_atResetValues {s : State} (h : AtResetValues s) :
    AtResetValues { beginBringUp s with linkBound := false, parse := .idle, block := none } :=
  { h with link := ⟨rfl, rfl, rfl, rfl⟩ }

/-- An estimate at zero cannot decay further. -/
theorem AtResetValues.decayed {s : State} {u : Nat} (h : AtResetValues s) (hu : u ≤ s.usage) :
    AtResetValues { s with usage := u } := by
  obtain ⟨hout, hin, helapsed, husage, hlast⟩ := h.datapath
  exact { h with datapath := ⟨hout, hin, helapsed, by simp only; omega, hlast⟩ }

theorem reset_atResetValues : AtResetValues State.reset where
  link := ⟨rfl, rfl, rfl, rfl⟩
  worker := ⟨rfl, rfl, rfl⟩
  datapath := ⟨rfl, rfl, rfl, rfl, rfl⟩
  led := ⟨rfl, rfl⟩
  queues := ⟨rfl, rfl⟩
  endpoints := ⟨rfl, rfl, rfl, rfl⟩
  bridge := rfl
  identity := ⟨rfl, rfl, rfl, rfl, rfl⟩

theorem hardReset_downIsReset (s : State) : DownIsReset (hardReset s) where
  down _ := { reset_atResetValues with }
  bringup h := nomatch h

theorem DataMove.downIsReset {i : Option Instr} {s t : State} (h : DataMove i s t) (hs : Inv s) (hd : DownIsReset s) :
    DownIsReset t := by
  cases h with
  | records hr => rw [hr.eq]; exact ⟨fun hl => { hd.down hl with }, fun hl => { hd.bringup hl with }⟩
  | shifted => exact ⟨fun hl => { hd.down hl with }, fun hl => { hd.bringup hl with }⟩
  | decayed u hu => exact ⟨fun hl => (hd.down hl).decayed hu, fun hl => (hd.bringup hl).decayed hu⟩
  | released =>
    by_cases hl : s.lstate = .up
    · exact .of_alive (.inl hl)
    · rw [← hs.not_draining hl]; exact hd
  | requested hl _ | endpoints _ _ _ _ hl | commanded _ _ hl => exact .of_alive (.inl hl)
  | ledTaken hw | cycled _ _ _ _ _ hw | timed _ _ hw _ | flushed hw => exact .of_alive (hs.alive_of_running hw)
  | queues _ _ hu _ _ | charged hu _ => exact .of_alive (hs.alive_of_inUse hu)
  | started hw => exact .of_alive (hs.worker (by simp [hw]))

theorem SequenceStep.downIsReset {s t : State} (h : SequenceStep s t) (hs : Inv s) (hd : DownIsReset s) : DownIsReset t := by
  cases h with
  | failed hp =>
    have hback : AtResetValues (rollBack s) := rollBack_atResetValues (hd.bringup (hs.bringup_of_parse hp))
    exact ⟨fun _ => { hback with }, fun h => nomatch h⟩
  | finished st _ _ =>
    rw [finishBringUp_eq]
    exact .of_alive (.inl rfl)
  | field _ _ _ hp _ _ _ _ =>
    have hl : s.lstate = .bringup := hs.bringup_of_parse hp
    exact ⟨fun h => (nomatch hl.symm.trans h), fun h => { hd.bringup h with }⟩
  | word _ hlink _ _ _ =>
    exact ⟨fun h => (nomatch hlink.symm.trans (hs.unbound h)), fun h => { hd.bringup h with }⟩
  | answered max got _ =>
    rw [blockReply_eq]
    refine ⟨fun h => ?_, fun h => { hd.bringup h with }⟩
    obtain ⟨hlink, hworker, hparse, _⟩ := (hd.down h).link
    exact { hd.down h with link := ⟨hlink, hworker, hparse, rfl⟩ }

theorem LinkMove.downIsReset {i : Option Instr} {s t : State} (h : LinkMove i s t) (hs : Inv s) (hd : DownIsReset s) :
    DownIsReset t := by
  cases h with
  | sequence _ _ hseq => exact hseq.downIsReset hs hd
  | absent _ hl => exact ⟨fun _ => rollBack_atResetValues (beginBringUp_atResetValues (hd.down hl)), fun h => nomatch h⟩
  | bound _ hl => exact ⟨fun h => (nomatch h), fun _ => { beginBringUp_atResetValues (hd.down hl) with }⟩
  | shut _ _ => exact .of_alive (.inr rfl)
  | tornDown _ hl hw =>
    have hup : s.lstate ≠ .up := by simp [hl]
    exact ⟨fun _ => { tearDown_atResetValues hw (hs.not_draining hup) (hs.not_armed hup) with }, fun h => nomatch h⟩

theorem Move.downIsReset {i : Option Instr} {s t : State} (h : Move i s t) (hs : Inv s) (hd : DownIsReset s) : DownIsReset t := by
  cases h with
  | data hm => exact hm.downIsReset hs hd
  | link hm => exact hm.downIsReset hs hd

/-! ### The limits of the identity (R41) -/

/-- With no field staged the limits are those of the published strings. -/
theorem IdentityLimits.of_published {s : State} (st : Staging) (hserial : s.idSerial = st.serial) (huid : s.idUid = st.uid)
    (hfw : s.idFw = st.fw) (hhw : s.idHw = st.hw) (hst : StagedLimits st) (hp : ∀ l i st', s.parse ≠ .fields l i st') :
    IdentityLimits s where
  serial := hserial ▸ hst.serial
  uid := huid ▸ hst.uid
  fw := hfw ▸ hst.fw
  hw := hhw ▸ hst.hw
  staged l i st' h := absurd h (hp l i st')

/-- The defaults are the strings of an empty staging (R41, R241). -/
theorem IdentityLimits.of_cleared {s u : State} (hid : identityOf s = identityOf (clearIdentity u)) (hp : s.parse = .idle) :
    IdentityLimits s := by
  simp only [identityOf, Prod.mk.injEq] at hid
  obtain ⟨hserial, huid, hfw, hhw, _⟩ := hid
  exact .of_published staged0 hserial huid hfw hhw staged0_limits (by simp [hp])

theorem IdentityLimits.sameLink {s t : State} (h : IdentityLimits s) (hst : SameLink s t) : IdentityLimits t where
  serial := hst.serial ▸ h.serial
  uid := hst.uid ▸ h.uid
  fw := hst.fw ▸ h.fw
  hw := hst.hw ▸ h.hw
  staged l i st hp := h.staged l i st (hst.parse ▸ hp)

theorem SequenceStep.identityLimits {s t : State} (h : SequenceStep s t) (hs : IdentityLimits s) : IdentityLimits t := by
  cases h with
  | failed _ => exact .of_cleared (u := s) rfl rfl
  | finished st _ hlim =>
    rw [finishBringUp_eq]
    exact .of_published st rfl rfl rfl rfl (hlim hs.staged) fun _ _ _ h => nomatch h
  | field n i st _ _ _ _ hlim =>
    exact { hs with
      staged := by
        intro l j st' h
        cases h
        exact hlim hs.staged }
  | word _ _ _ _ _ => exact { hs with }
  | answered max got _ =>
    rw [blockReply_eq]
    exact { hs with }

theorem Move.identityLimits {i : Option Instr} {s t : State} (h : Move i s t) (hs : IdentityLimits s) : IdentityLimits t := by
  cases h with
  | data hm => exact hs.sameLink hm.sameLink
  | link hm =>
    cases hm with
    | sequence _ _ hseq => exact hseq.identityLimits hs
    | absent _ _ | tornDown _ _ _ => exact .of_cleared (u := s) rfl rfl
    | bound _ _ => exact { hs with staged := fun _ _ _ h => nomatch h }
    | shut _ _ => exact { hs with }

/-! ### Time, the parameters and the counters (R7, R42, R47) -/

/-- From `s` to `t` time and the counters have not fallen and the parameters are the same. -/
structure NotFallen (s t : State) : Prop where
  now : s.now ≤ t.now
  params : t.params = s.params
  faults : s.diagXferFaults ≤ t.diagXferFaults
  drops : s.diagInDrops ≤ t.diagInDrops

theorem NotFallen.of_eq {s t : State} (hnow : t.now = s.now) (hparams : t.params = s.params)
    (hfaults : t.diagXferFaults = s.diagXferFaults) (hdrops : t.diagInDrops = s.diagInDrops) : NotFallen s t :=
  ⟨hnow.ge, hparams, hfaults.ge, hdrops.ge⟩

theorem NotFallen.trans {s t u : State} (h : NotFallen s t) (k : NotFallen t u) : NotFallen s u :=
  ⟨h.now.trans k.now, k.params.trans h.params, h.faults.trans k.faults, h.drops.trans k.drops⟩

theorem DataMove.notFallen {i : Option Instr} {s t : State} (h : DataMove i s t) : NotFallen s t := by
  have hlink := h.sameLink
  cases h with
  | records hr => exact ⟨hlink.now.ge, hlink.params, hr.faults, hr.drops⟩
  | _ => exact .of_eq rfl rfl rfl rfl

theorem LinkMove.notFallen {i : Option Instr} {s t : State} (h : LinkMove i s t) : NotFallen s t := by
  cases h with
  | sequence _ _ hseq =>
    cases hseq with
    | finished st _ _ => rw [finishBringUp_eq]; exact .of_eq rfl rfl rfl rfl
    | answered max got _ => rw [blockReply_eq]; exact .of_eq rfl rfl rfl rfl
    | _ => exact .of_eq rfl rfl rfl rfl
  | _ => exact .of_eq rfl rfl rfl rfl

theorem Move.notFallen {i : Option Instr} {s t : State} (h : Move i s t) : NotFallen s t := by
  cases h with
  | data hm => exact hm.notFallen
  | link hm => exact hm.notFallen

end Sys2Proof.Machine
end

section
/-! What a step can do, as moves; how the lifecycle state and the request latch change; and the obligations on the state. -/

namespace Sys2Proof.Machine

/-! ### Which instructions a step runs -/

/-- The step from `s` runs `i`: it is issued, or it is the held `OUT_DRAIN`, the worker's micro-step or `HOST`'s exchange. -/
def Takes (s : State) (i : Instr) : Prop :=
  (∃ iss rest, s.sched = .op iss :: rest ∧ decode iss = .ok i) ∨ i = .outDrain ∨ workerInstr s = some i ∨
    ((s.sched = [] ∨ ∃ rest, s.sched = .host :: rest) ∧ hostInstr s = some i)

theorem workerInstr_cases {s : State} {i : Instr} (h : workerInstr s = some i) : i = .cycStart ∨ ∃ p, microPhase i = some p := by
  unfold workerInstr at h
  split at h
  · cases h
  · exact .inl (Option.some.inj h).symm
  · split at h <;> cases h <;> exact .inr ⟨_, rfl⟩

theorem hostInstr_cases {s : State} {i : Instr} (h : hostInstr s = some i) : makesHandshake i = true := by
  unfold hostInstr at h
  split at h
  · split at h <;> cases h <;> rfl
  · cases h

/-- `LINK_UP`, `LINK_DOWN` and `FLASH_LED` are commands: no agent of the block takes them by itself (R103). -/
theorem Takes.issued {s : State} {i : Instr} (h : Takes s i) (hi : i = .linkUp ∨ i = .linkDown ∨ ∃ d, i = .flashLed d) :
    ∃ iss rest, s.sched = .op iss :: rest ∧ decode iss = .ok i := by
  rcases h with h | rfl | hw | ⟨_, hh⟩
  · exact h
  · simp at hi
  · have hmicro := workerInstr_cases hw
    rcases hi with rfl | rfl | ⟨d, rfl⟩ <;> simp [microPhase] at hmicro
  · have hshake := hostInstr_cases hh
    rcases hi with rfl | rfl | ⟨d, rfl⟩ <;> cases hshake

/-- A handshake is `HOST`'s, the block's own, or issued (R9). -/
theorem Takes.handshake {s : State} {i : Instr} (h : Takes s i) (hi : makesHandshake i = true) :
    s.sched = [] ∨ (∃ rest, s.sched = .host :: rest) ∨ ∃ iss rest, s.sched = .op iss :: rest ∧ decode iss = .ok i := by
  rcases h with h | rfl | hw | ⟨h | h, _⟩
  · exact .inr (.inr h)
  · cases hi
  · rcases workerInstr_cases hw with rfl | ⟨p, hp⟩
    · cases hi
    · cases i <;> cases hi <;> cases hp
  · exact .inl h
  · exact .inr (.inl h)

/-- Everything a step can do, by what it does to the block: an instruction runs; only inputs, outputs and the record change; `HOST`
resumes a held `LINK_DOWN`; time passes; the hardware reset. -/
theorem step_effects {s t : State} (h : step s = .next t) :
    (∃ i, Takes s i ∧ exec i { s with sched := s.sched.tail } = .next t) ∨ Recorded s t ∨
    ((s.sched = [] ∨ ∃ rest, s.sched = .host :: rest) ∧ t = resumeLinkDown { s with sched := s.sched.tail }) ∨
    (∃ dt l, t = { s with sched := l, now := s.now + dt }) ∨
    (∃ rest, s.sched = .rst :: rest ∧ t = hardReset { s with sched := rest }) := by
  rcases step_cases h with ⟨i, l, he, rfl, hi⟩ | ⟨_, l, _, rfl⟩ | ⟨rfl, _, hs⟩ | ⟨l, _, rfl⟩ | ⟨dt, l, _, rfl⟩ | ⟨bs, l, _, rfl⟩ |
    ⟨b, l, _, rfl⟩ | ⟨as, l, _, rfl⟩ | ⟨l, hs, rfl⟩
  · refine .inl ⟨i, ?_, he⟩
    rcases hi with ⟨iss, hs, hd⟩ | ⟨_, hi, _⟩ | ⟨_, hw⟩ | ⟨hs | hs, hh⟩
    · exact .inl ⟨iss, _, hs, hd⟩
    · exact .inr (.inl hi)
    · exact .inr (.inr (.inl hw))
    · exact .inr (.inr (.inr ⟨.inl hs, hh⟩))
    · exact .inr (.inr (.inr ⟨.inr ⟨_, hs⟩, hh⟩))
  · exact .inr (.inl ((recorded_sched l s).trans (recorded_refuse _)))
  · exact .inr (.inr (.inl ⟨hs, rfl⟩))
  · exact .inr (.inl (recorded_sched l s))
  · exact .inr (.inr (.inr (.inl ⟨dt, l, rfl⟩)))
  · exact .inr (.inl ⟨rfl, Nat.le_refl _, Nat.le_refl _⟩)
  · exact .inr (.inl ⟨rfl, Nat.le_refl _, Nat.le_refl _⟩)
  · exact .inr (.inl ⟨rfl, Nat.le_refl _, Nat.le_refl _⟩)
  · exact .inr (.inr (.inr (.inr ⟨l, hs, rfl⟩)))

/-- A step is a run of moves, or time passes, or it is the hardware reset. -/
theorem step_moves {s t : State} (h : step s = .next t) :
    (∃ i, Moves i s t) ∨ (∃ dt l, t = { s with sched := l, now := s.now + dt }) ∨
    (∃ rest, s.sched = .rst :: rest ∧ t = hardReset { s with sched := rest }) := by
  have hsched : Move none s { s with sched := s.sched.tail } := .data (.records (recorded_sched _ s))
  rcases step_effects h with ⟨i, _, he⟩ | hr | ⟨_, rfl⟩ | hclock | hrst
  · exact .inl ⟨some i, Relation.ReflTransGen.head (.data (.records (recorded_sched _ s))) (exec_moves he)⟩
  · exact .inl ⟨none, (Moves.refl s).records hr⟩
  · exact .inl ⟨none, Relation.ReflTransGen.head hsched (moves_resumeLinkDown _)⟩
  · exact .inr (.inl hclock)
  · exact .inr (.inr hrst)

/-- What every move, the clock and the reset keep, every step keeps. -/
theorem step_keeps_of_moves (P : State → Prop) (hmove : ∀ i x y, Move i x y → P x → P y)
    (hclock : ∀ x l n, P x → x.now ≤ n → P { x with sched := l, now := n }) (hreset : ∀ x, P (hardReset x)) {s t : State}
    (h : step s = .next t) (hs : P s) : P t := by
  rcases step_moves h with ⟨i, hm⟩ | ⟨dt, l, rfl⟩ | ⟨_, _, rfl⟩
  · exact hm.keeps P (hmove i) hs
  · exact hclock s l _ hs (Nat.le_add_right _ _)
  · exact hreset _

/-! ### The lifecycle state (R294) -/

/-- What one handshake of a sequence does to the lifecycle state: nothing, or it ends the bring-up it belongs to. -/
theorem SequenceStep.lstate_cases {s t : State} (h : SequenceStep s t) :
    t.lstate = s.lstate ∨ (s.parse ≠ .idle ∧ (t.lstate = .up ∨ t.lstate = .down)) := by
  cases h with
  | failed hp => exact .inr ⟨hp, .inr rfl⟩
  | finished st hp _ => exact .inr ⟨hp, .inl (by rw [finishBringUp_eq]; rfl)⟩
  | answered max got _ => exact .inl (by rw [blockReply_eq]; rfl)
  | _ => exact .inl rfl

theorem SequenceStep.linkCount {s t : State} (h : SequenceStep s t) : t.linkCount = s.linkCount := by
  cases h with
  | finished st _ _ => rw [finishBringUp_eq]; rfl
  | answered max got _ => rw [blockReply_eq]; rfl
  | _ => rfl

theorem Recorded.lstate {s t : State} (h : Recorded s t) : t.lstate = s.lstate := by rw [h.eq]

theorem Recorded.inv {s t : State} (h : Recorded s t) (hs : Inv s) : Inv t := (DataMove.records (i := none) h).inv hs

/-- No instruction but `LINK_UP`, `LINK_DOWN` and those that make handshakes moves the lifecycle. -/
theorem exec_lstate {j : Instr} {s t : State} (hshake : makesHandshake j = false) (hup : j ≠ .linkUp) (hdown : j ≠ .linkDown)
    (h : exec j s = .next t) : t.lstate = s.lstate := by
  refine (exec_moves h).keeps (fun x => x.lstate = s.lstate) (fun x y hm hx => ?_) rfl
  cases hm with
  | data hm => exact hm.sameLink.lstate.trans hx
  | link hm =>
    cases hm with
    | sequence hj hshake' _ => cases hj; simp [hshake] at hshake'
    | absent hj _ | bound hj _ => exact absurd (Option.some.inj hj) hup
    | shut hj _ => exact absurd (Option.some.inj hj) hdown
    | tornDown hj _ _ => exact absurd (hj j rfl) hdown

/-- `LINK_UP` leads from `DOWN` to `BRINGUP` where a peripheral is present, and nowhere else (R286, R288). -/
theorem exec_linkUp_lstate {s t : State} (h : exec .linkUp s = .next t) :
    t.lstate = s.lstate ∨ (s.lstate = .down ∧ s.peerPresent = true ∧ t.lstate = .bringup) := by
  cases h
  split
  · rename_i hl
    rcases startBringUp_cases s with ⟨_, he⟩ | ⟨hp, he⟩ <;> rw [he]
    · exact .inl hl.symm
    · exact .inr ⟨hl, hp, rfl⟩
  · exact .inl rfl

/-- A `LINK_DOWN` taken on, at once or resumed, leads to `DOWN` with the worker idle and else to `SHUTDOWN`; the latch stays (R291,
R292). -/
theorem quiesceThenTearDown_states {s : State} (hl : s.lstate = .shutdown) :
    (quiesceThenTearDown s).lstate = (if s.wstate = .idle then .down else .shutdown) ∧
      (quiesceThenTearDown s).wstate = s.wstate := by
  rcases quiesceThenTearDown_cases s with ⟨hw, he⟩ | ⟨hw, he⟩ <;> rw [he]
  · exact ⟨(if_pos hw).symm, rfl⟩
  · exact ⟨hl.trans (if_neg hw).symm, rfl⟩

theorem exec_linkDown_states {s t : State} (h : exec .linkDown s = .next t) :
    (t.lstate = s.lstate ∨ (s.lstate = .up ∧ t.lstate = if s.wstate = .idle then .down else .shutdown)) ∧
      t.wstate = s.wstate := by
  cases h
  split
  · obtain ⟨hl, hw⟩ := quiesceThenTearDown_states (s := shutOut s) rfl
    exact ⟨.inr ⟨‹_›, hl⟩, hw⟩
  · exact ⟨.inl rfl, rfl⟩

theorem resumeLinkDown_states (s : State) :
    ((resumeLinkDown s).lstate = s.lstate ∨
      (s.lstate = .shutdown ∧ s.wstate = .idle ∧ (resumeLinkDown s).lstate = .down)) ∧
      (resumeLinkDown s).wstate = s.wstate := by
  unfold resumeLinkDown
  split
  · rename_i hl
    obtain ⟨hq, hw⟩ := quiesceThenTearDown_states hl
    refine ⟨?_, hw⟩
    by_cases hidle : s.wstate = .idle
    · exact .inr ⟨hl, hidle, hq.trans (if_pos hidle)⟩
    · exact .inl ((hq.trans (if_neg hidle)).trans hl.symm)
  · exact ⟨.inl rfl, rfl⟩

/-- In a bring-up `RDLP` has the capacity of R233 or is refused. -/
theorem exec_rdlp_refused {max : Byte} {s : State} (hp : s.parse ≠ .idle) (hmax : max ≠ 0xFF) :
    exec (.rdlp max) s = .next s.refuse := by
  have hcap : max.toNat ≠ Config.rdlpScratch := fun h => hmax (BitVec.eq_of_toNat_eq h)
  show execRdlp max s = _
  rw [execRdlp, if_neg hcap]
  split
  · rfl
  · split
    · exact absurd ‹_› hp
    · rfl
    · rfl

/-- An instruction that makes handshakes moves the lifecycle only where it ends a bring-up, and then it has made one exchange. -/
theorem exec_handshake_lstate {j : Instr} {s t : State} (hs : Inv s) (hj : makesHandshake j = true) (h : exec j s = .next t) :
    t.lstate = s.lstate ∨
      (s.lstate = .bringup ∧ (t.lstate = .up ∨ t.lstate = .down) ∧ t.linkCount = s.linkCount + 1 ∧
        (j = .idParse ∨ j = .rdlp 0xFF ∨ j = .xchg16 ∨ j = .hsInvalid ∨ ∃ r p, j = .hsValid r p)) := by
  rcases exec_handshake_cases hj h with hr | ⟨x, hx, hseq⟩
  · exact .inl hr.lstate
  · rcases hseq.lstate_cases with hl | ⟨hp, hends⟩
    · exact .inl (hl.trans hx.recorded.lstate)
    · have hparse : s.parse ≠ .idle := by rwa [hx.recorded.eq] at hp
      have hbring : s.lstate = .bringup := hs.bringup_of_parse hparse
      by_cases hrefused : ∃ max, j = .rdlp max ∧ max ≠ 0xFF
      · obtain ⟨max, rfl, hmax⟩ := hrefused
        cases (exec_rdlp_refused hparse hmax).symm.trans h
        exact .inl rfl
      · refine .inr ⟨hbring, hends, hseq.linkCount.trans (hx.counted (hs.parsing_bound hbring)), ?_⟩
        cases j with
        | idParse | xchg16 | hsInvalid | hsValid => simp
        | rdlp max => simpa using hrefused
        | _ => cases hj

/-! ### A cycle becomes pending in `UP` alone (R52) -/

/-- But for `LINK_DOWN`, a move makes a cycle pending in `UP` only, and leaves none pending elsewhere. -/
theorem Move.pending_up {i : Option Instr} {s t : State} (h : Move i s t) (hi : i ≠ some .linkDown) (hs : Inv s)
    (hp : s.wstate = .pending → s.lstate = .up) : t.wstate = .pending → t.lstate = .up := by
  cases h with
  | data hm =>
    cases hm with
    | records hr => rw [hr.eq]; exact hp
    | requested hl _ => exact fun _ => hl
    | started _ | flushed _ => exact fun h => nomatch h
    | _ => exact hp
  | link hm =>
    cases hm with
    | sequence _ _ hseq =>
      cases hseq with
      | failed hq =>
        have hidle : s.wstate = .idle := hs.worker_idle (.inr (hs.bringup_of_parse hq))
        exact fun h => nomatch hidle.symm.trans h
      | finished st _ _ =>
        rw [finishBringUp_eq]
        exact fun _ => rfl
      | answered max got _ =>
        rw [blockReply_eq]
        exact hp
      | _ => exact hp
    | absent _ _ | bound _ _ => exact fun h => nomatch h
    | shut hj _ => exact absurd hj hi
    | tornDown _ _ hw => exact fun h => nomatch hw.symm.trans h

theorem exec_pending_up {j : Instr} {s t : State} (hs : Inv s) (hw : s.wstate ≠ .pending) (h : exec j s = .next t)
    (ht : t.wstate = .pending) : t.lstate = .up := by
  by_cases hj : j = .linkDown
  · subst hj
    exact absurd ((exec_linkDown_states h).2.symm.trans ht) hw
  · refine ((exec_moves h).keeps (fun x => Inv x ∧ (x.wstate = .pending → x.lstate = .up)) (fun x y hm hx => ?_)
      ⟨hs, fun hp => absurd hp hw⟩).2 ht
    exact ⟨hm.inv hx.1, hm.pending_up (by simp [hj]) hx.1 hx.2⟩

/-! ### `UP` and the identity (R41, R230) -/

/-- But for `LINK_DOWN`, a move leaves `UP` alone, and the identity there. -/
theorem Move.stays_up {i : Option Instr} {s t : State} (h : Move i s t) (hi : i ≠ some .linkDown) (hs : Inv s) (hl : s.lstate = .up) :
    t.lstate = .up ∧ identityOf t = identityOf s := by
  have hp : s.parse = .idle := hs.parse_idle (by simp [hl])
  cases h with
  | data hm =>
    have hsame := hm.sameLink
    exact ⟨hsame.lstate.trans hl, by simp only [identityOf, hsame.serial, hsame.uid, hsame.fw, hsame.hw, hsame.valid]⟩
  | link hm =>
    cases hm with
    | sequence _ _ hseq =>
      cases hseq with
      | failed hq => exact absurd hp hq
      | finished _ hq _ => exact absurd hp hq
      | field _ _ _ hq _ _ _ _ => exact absurd hp hq
      | word _ _ _ _ _ => exact ⟨hl, rfl⟩
      | answered max got _ =>
        rw [blockReply_eq]
        exact ⟨hl, rfl⟩
    | absent _ hd | bound _ hd => exact nomatch hl.symm.trans hd
    | shut hj _ => exact absurd hj hi
    | tornDown _ hd _ => exact nomatch hl.symm.trans hd

theorem exec_stays_up {j : Instr} {s t : State} (hj : j ≠ .linkDown) (hs : Inv s) (hl : s.lstate = .up) (h : exec j s = .next t) :
    t.lstate = .up ∧ identityOf t = identityOf s := by
  refine ((exec_moves h).keeps (fun x => Inv x ∧ x.lstate = .up ∧ identityOf x = identityOf s) (fun x y hm hx => ?_)
    ⟨hs, hl, rfl⟩).2
  obtain ⟨hx, hxl, hxid⟩ := hx
  obtain ⟨hyl, hyid⟩ := hm.stays_up (by simp [hj]) hx hxl
  exact ⟨hm.inv hx, hyl, hyid.trans hxid⟩

/-- `LINK_DOWN` always leaves `UP`. -/
theorem exec_linkDown_leaves_up {s t : State} (hl : s.lstate = .up) (h : exec .linkDown s = .next t) : t.lstate ≠ .up := by
  cases h
  rw [if_pos hl, (quiesceThenTearDown_states (s := shutOut s) rfl).1]
  split <;> simp

/-! ### The LED command (R32) -/

/-- But for `FLASH_LED`, no move makes an LED command pending. -/
theorem Move.led_clear {i : Option Instr} {s t : State} (h : Move i s t) (hi : ∀ d, i ≠ some (.flashLed d))
    (hs : s.ledPending = false) : t.ledPending = false := by
  cases h with
  | data hm =>
    cases hm with
    | records hr => rw [hr.eq]; exact hs
    | commanded d hj _ => exact absurd hj (hi d)
    | ledTaken _ => rfl
    | _ => exact hs
  | link hm =>
    cases hm with
    | sequence _ _ hseq =>
      cases hseq with
      | finished st _ _ => rw [finishBringUp_eq]; rfl
      | answered max got _ => rw [blockReply_eq]; exact hs
      | _ => exact hs
    | tornDown _ _ _ => rfl
    | _ => exact hs

theorem requestCycle_led (s : State) : (requestCycle s).ledPending = s.ledPending ∧ (requestCycle s).ledDuration = s.ledDuration := by
  rcases requestCycle_cases s with ⟨_, _, he⟩ | he <;> rw [he] <;> exact ⟨rfl, rfl⟩

/-- `FLASH_LED` makes its command pending in `UP` alone (R171). -/
theorem exec_flashLed_pending {d : Byte} {s t : State} (h : exec (.flashLed d) s = .next t) (hs : s.ledPending = false)
    (ht : t.ledPending = true) : s.lstate = .up ∧ t.ledDuration = d := by
  cases h
  split at ht
  · rename_i hl
    rw [if_pos hl]
    exact ⟨hl, (requestCycle_led _).2⟩
  · exact absurd ht (by simp [hs])

/-! ### The obligations -/

/-- Settles O30: `LINK_UP`, `LINK_DOWN` and the handshakes by what each can do to the lifecycle state, the resumed `LINK_DOWN` and the
reset likewise; nothing else moves it. -/
theorem lifecycleTransitions : Obligations.LifecycleTransitions := by
  intro s t hs h
  rcases step_effects h with ⟨i, htakes, he⟩ | hr | ⟨hsched, rfl⟩ | ⟨dt, l, rfl⟩ | ⟨rest, hsched, rfl⟩
  · have hs' : Inv { s with sched := s.sched.tail } := (recorded_sched _ s).inv hs
    refine ⟨?_, fun hw => exec_pending_up hs' hw he⟩
    by_cases hup : i = .linkUp
    · subst hup
      obtain ⟨iss, rest, hsched, hd⟩ := htakes.issued (.inl rfl)
      rcases exec_linkUp_lstate he with hl | ⟨hl, hp, ht⟩
      · exact .inl hl
      · exact .inr (.inl ⟨iss, rest, hsched, hd, hl, hp, ht⟩)
    · by_cases hdown : i = .linkDown
      · subst hdown
        obtain ⟨iss, rest, hsched, hd⟩ := htakes.issued (.inr (.inl rfl))
        rcases (exec_linkDown_states he).1 with hl | ⟨hl, ht⟩
        · exact .inl hl
        · exact .inr (.inr (.inr (.inl ⟨iss, rest, hsched, hd, hl, ht⟩)))
      · cases hshake : makesHandshake i with
        | false => exact .inl (exec_lstate (s := { s with sched := s.sched.tail }) hshake hup hdown he)
        | true =>
          rcases exec_handshake_lstate hs' hshake he with hl | ⟨hl, ht, hcount, hi⟩
          · exact .inl hl
          · refine .inr (.inr (.inl ⟨hl, ht, hcount, ?_⟩))
            rcases htakes.handshake hshake with hsched | hsched | ⟨iss, rest, hsched, hd⟩
            · exact .inl hsched
            · exact .inr (.inl hsched)
            · exact .inr (.inr ⟨iss, rest, i, hsched, hd, hi⟩)
  · exact ⟨.inl hr.lstate, fun hw ht => absurd (by rwa [hr.eq] at ht) hw⟩
  · obtain ⟨hl, hw⟩ := resumeLinkDown_states { s with sched := s.sched.tail }
    refine ⟨?_, fun hne ht => absurd (hw.symm.trans ht) hne⟩
    rcases hl with hl | ⟨hl, hidle, ht⟩
    · exact .inl hl
    · exact .inr (.inr (.inr (.inr (.inl ⟨hsched, hl, hidle, ht⟩))))
  · exact ⟨.inl rfl, fun hw ht => absurd ht hw⟩
  · exact ⟨.inr (.inr (.inr (.inr (.inr ⟨rest, hsched, rfl⟩)))), fun _ ht => nomatch ht⟩

/-- Settles O57: every move keeps the invariants, time only adds to `now`, and the reset has them. -/
theorem everyStepKeepsTheInvariants : Obligations.EveryStepKeepsTheInvariants := by
  intro s t hs h
  exact step_keeps_of_moves Inv (fun _ _ _ hm => hm.inv) (fun _ _ _ hx hn => { hx with time := hx.time.trans hn }) hardReset_inv
    h hs

/-- Settles O58: with the invariants carried along, every move keeps it. -/
theorem downStaysOneState : Obligations.DownStaysOneState := by
  intro s t hs hd h
  refine (step_keeps_of_moves (fun x => Inv x ∧ DownIsReset x) ?move ?clock ?reset h ⟨hs, hd⟩).2
  case move => exact fun i x y hm ⟨hx, hxd⟩ => ⟨hm.inv hx, hm.downIsReset hx hxd⟩
  case clock =>
    intro x l n ⟨hx, hxd⟩ hn
    exact ⟨{ hx with time := hx.time.trans hn }, fun hl => { hxd.down hl with }, fun hl => { hxd.bringup hl with }⟩
  case reset => exact fun x => ⟨hardReset_inv x, hardReset_downIsReset x⟩

/-- Settles O24: no instruction but `LINK_DOWN` leaves `UP` or writes the identity there, and `LINK_DOWN` ends elsewhere. -/
theorem identityImmutableWhileUp : Obligations.IdentityImmutableWhileUp := by
  intro s t hs h hl ht
  rcases step_effects h with ⟨i, _, he⟩ | hr | ⟨_, rfl⟩ | ⟨dt, l, rfl⟩ | ⟨rest, _, rfl⟩
  · by_cases hi : i = .linkDown
    · subst hi
      exact absurd ht (exec_linkDown_leaves_up (s := { s with sched := s.sched.tail }) hl he)
    · exact (exec_stays_up hi ((recorded_sched s.sched.tail s).inv hs) hl he).2
  · rw [hr.eq]; rfl
  · have hup : ({ s with sched := s.sched.tail } : State).lstate ≠ .shutdown := by simp [hl]
    rw [resumeLinkDown_elsewhere hup]
    rfl
  · rfl
  · exact nomatch ht

/-- Settles O32: no move but that of `FLASH_LED` makes a command pending, and `FLASH_LED` is issued. -/
theorem onlyFlashLedMakesACommandPending : Obligations.OnlyFlashLedMakesACommandPending := by
  intro s t h hs ht
  rcases step_effects h with ⟨i, htakes, he⟩ | hr | ⟨_, rfl⟩ | ⟨dt, l, rfl⟩ | ⟨rest, _, rfl⟩
  · by_cases hi : ∃ d, i = .flashLed d
    · obtain ⟨d, rfl⟩ := hi
      obtain ⟨iss, rest, hsched, hd⟩ := htakes.issued (.inr (.inr ⟨d, rfl⟩))
      obtain ⟨hl, hdur⟩ := exec_flashLed_pending he hs ht
      exact ⟨hl, iss, rest, d, hsched, hd, hdur⟩
    · have hclear := (exec_moves he).keeps (fun x => x.ledPending = false)
        (fun _ _ hm => hm.led_clear fun d hd => hi ⟨d, Option.some.inj hd⟩) hs
      exact nomatch hclear.symm.trans ht
  · rw [hr.eq] at ht
    exact nomatch hs.symm.trans ht
  · have hclear := (moves_resumeLinkDown { s with sched := s.sched.tail }).keeps (fun x => x.ledPending = false)
      (fun _ _ hm => hm.led_clear (by simp)) hs
    exact nomatch hclear.symm.trans ht
  · exact nomatch hs.symm.trans ht
  · exact nomatch ht

/-- Settles O59: every field that is staged is within its limits, and what is published was staged. -/
theorem identityStaysWithinItsLimits : Obligations.IdentityStaysWithinItsLimits := by
  intro s t hs h
  exact step_keeps_of_moves IdentityLimits (fun _ _ _ hm => hm.identityLimits) (fun _ _ _ hx _ => { hx with })
    (fun _ => .of_cleared (u := State.reset) rfl rfl) h hs

/-- Settles O60: no move lets time or a counter fall, the clock adds to `now`, and the reset keeps `now` and the parameters. -/
theorem timeAndCountersNeverFall : Obligations.TimeAndCountersNeverFall := by
  intro s t h
  rcases step_moves h with ⟨i, hm⟩ | ⟨dt, l, rfl⟩ | ⟨rest, hsched, rfl⟩
  · obtain ⟨hnow, hparams, hfaults, hdrops⟩ :=
      hm.keeps (NotFallen s) (fun _ _ hxy hx => hx.trans hxy.notFallen) (.of_eq rfl rfl rfl rfl)
    exact ⟨hnow, hparams, .inl ⟨hfaults, hdrops⟩⟩
  · exact ⟨Nat.le_add_right _ _, rfl, .inl ⟨Nat.le_refl _, Nat.le_refl _⟩⟩
  · exact ⟨Nat.le_refl _, rfl, .inr ⟨rest, hsched⟩⟩

/-- A hardware reset ends refused exactly where it finds a held caller of `OUT_DRAIN` or `LINK_DOWN` (R330, log entry 18). -/
theorem hardReset_refused (s : State) :
    (hardReset s).verdict = .done .refused ↔ s.drainWait = true ∨ s.lstate = .shutdown := by
  simp only [hardReset]
  split <;> simp_all

/-- Settles O10: the step is the reset, whose fields are those of the table by definition. -/
theorem hardwareResetGivesTheTable : Obligations.HardwareResetGivesTheTable := by
  intro s rest hs
  refine ⟨hardReset { s with sched := rest }, step_of_event hs, ?_⟩
  and_intros
  any_goals rfl
  exact hardReset_refused { s with sched := rest }

theorem reset_inv : Inv State.reset :=
  .of_down rfl rfl rfl rfl rfl rfl rfl (Nat.zero_le _) ring_empty_ok ring_empty_ok (fun _ => rfl) (Nat.zero_le _)

/-- Settles O56: nothing is in progress at reset, and every element has its reset value. -/
theorem resetHasTheInvariants : Obligations.ResetHasTheInvariants :=
  ⟨reset_inv, (by decide : 0 < Config.ceiling), ⟨fun _ => reset_atResetValues, fun h => nomatch h⟩,
    .of_cleared (u := State.reset) rfl rfl, by decide, by decide⟩

end Sys2Proof.Machine
end

section
/-! The decoder and the encoder (R90 to R105): what a word of each format is read as, that encoding and decoding agree, and what is
refused. -/

namespace Sys2Proof

/-! ### An encoded word, read in its format -/

@[simp] theorem decode_issueOf_slotOut (h l : Byte) : decode (issueOf .slotOut h l) = .ok (decodeSlotOut h l) := by
  simp [decode]

@[simp] theorem decode_issueOf_slotIn (h l : Byte) : decode (issueOf .slotIn h l) = .ok (decodeSlotIn h l) := by
  simp [decode]

@[simp] theorem decode_issueOf_hsResp (h l : Byte) : decode (issueOf .hsResp h l) = .ok (decodeHsResp h l) := by
  simp [decode]

@[simp] theorem decode_issueOf_cmd (h l : Byte) : decode (issueOf .cmd h l) = decodeCmd h l := by
  simp [decode]

@[simp] theorem decode_issueOf_uop (h l : Byte) : decode (issueOf .uop h l) = decodeUop h l := by
  simp [decode]

@[simp] theorem decode_issueOf_fn (h l : Byte) : decode (issueOf .fn h l) = decodeFn h l Args.zero := by
  simp [decode]

/-- The operands outside the word are read beside it (R103, log entry 20). -/
theorem decode_fn_args (h l : Byte) (a : Args) : decode ⟨.fn, joinBytes h l, a⟩ = decodeFn h l a := by
  simp [decode]

/-! ### The slots and the handshake responses (R93, R95, R96, R99) -/

theorem decodeSlotOut_midi (b : Byte) : decodeSlotOut Config.tagMidi b = .slotMidi b := by
  simp [decodeSlotOut, Config.tagMidi, Config.tagEmpty]

theorem decodeSlotOut_led (d : Byte) : decodeSlotOut Config.tagLed d = .slotLed d := by
  simp [decodeSlotOut, Config.tagLed, Config.tagMidi, Config.tagEmpty]

/-- A reserved slot has none of the three encodings of R93 (R95). -/
theorem reservedSlot_iff (t v : Byte) : reservedSlot t v = true ↔
    ¬(t = Config.tagEmpty ∧ v = 0) ∧ t ≠ Config.tagMidi ∧ t ≠ Config.tagLed := by
  have hmidi : Config.tagEmpty ≠ Config.tagMidi := by decide
  have hled : Config.tagEmpty ≠ Config.tagLed := by decide
  by_cases h : t = Config.tagEmpty
  · subst h
    simp [reservedSlot, hmidi, hled]
  · simp [reservedSlot, h]

theorem decodeSlotOut_reserved {t v : Byte} (h : reservedSlot t v = true) : decodeSlotOut t v = .slotRsvd t v := by
  obtain ⟨hempty, hmidi, hled⟩ := (reservedSlot_iff t v).1 h
  simp only [decodeSlotOut, if_neg hempty, if_neg hmidi, if_neg hled]

theorem decodeSlotIn_data {t v : Byte} (h : t ≠ 0) : decodeSlotIn t v = .rxData t v := if_neg h

theorem decodeHsResp_valid {r p : Byte} (h : r ≠ 0) : decodeHsResp r p = .hsValid r p := if_neg h

/-! ### What a word of each format is read as -/

/-- `i` is well-formed and is encoded in `fmt` under the high byte `op`. -/
structure EncodedUnder (fmt : Format) (op : Byte) (i : Instr) : Prop where
  wf : i.wf = true
  fmt : (encode i).fmt = fmt
  hi : hiByte (encode i).word = op

/-- An instruction whose word is its code and an operand byte is encoded under that code. -/
theorem EncodedUnder.of_code {fmt : Format} {op arg : Byte} {i : Instr} {code : Nat} (hop : op.toNat = code)
    (hwf : i.wf = true) (hfmt : (encode i).fmt = fmt) (hword : (encode i).word = joinBytes (BitVec.ofNat 8 code) arg) :
    EncodedUnder fmt op i := by
  refine ⟨hwf, hfmt, ?_⟩
  rw [hword, hiByte_joinBytes, ← hop, BitVec.ofNat_toNat, BitVec.setWidth_eq]

/-- An outbound slot word re-encodes to itself, every bit of it (R93, R95). -/
theorem encode_decodeSlotOut (t v : Byte) :
    (decodeSlotOut t v).wf = true ∧ encode (decodeSlotOut t v) = issueOf .slotOut t v := by
  by_cases hempty : t = Config.tagEmpty ∧ v = 0
  · obtain ⟨rfl, rfl⟩ := hempty
    exact ⟨rfl, rfl⟩
  by_cases hmidi : t = Config.tagMidi
  · subst hmidi
    rw [decodeSlotOut_midi]
    exact ⟨rfl, rfl⟩
  by_cases hled : t = Config.tagLed
  · subst hled
    rw [decodeSlotOut_led]
    exact ⟨rfl, rfl⟩
  · have hrsvd := (reservedSlot_iff t v).2 ⟨hempty, hmidi, hled⟩
    rw [decodeSlotOut_reserved hrsvd]
    exact ⟨hrsvd, rfl⟩

theorem decodeSlotIn_encoded (t v : Byte) : EncodedUnder .slotIn t (decodeSlotIn t v) := by
  by_cases h : t = 0
  · rw [decodeSlotIn, if_pos h, h]
    exact ⟨rfl, rfl, hiByte_joinBytes 0 0⟩
  · rw [decodeSlotIn_data h]
    exact ⟨bne_iff_ne.2 h, rfl, hiByte_joinBytes t v⟩

theorem decodeHsResp_encoded (r p : Byte) : EncodedUnder .hsResp r (decodeHsResp r p) := by
  by_cases h : r = 0
  · rw [decodeHsResp, if_pos h, h]
    exact ⟨rfl, rfl, hiByte_joinBytes 0 0⟩
  · rw [decodeHsResp_valid h]
    exact ⟨bne_iff_ne.2 h, rfl, hiByte_joinBytes r p⟩

/-- A response that is not `HS.INVALID` re-encodes to itself, every bit of it (R99). -/
theorem encode_decodeHsResp {r p : Byte} (h : decodeHsResp r p ≠ .hsInvalid) :
    (encode (decodeHsResp r p)).word = joinBytes r p := by
  have hr : r ≠ 0 := fun hr => h (if_pos hr)
  rw [decodeHsResp_valid hr]
  rfl

/-! ### The listed codes (R103, R104, R105) -/

/-- A command word is read as one of the eighteen commands, encoded under its own code (R104). -/
theorem decodeCmd_encoded {op arg : Byte} {i : Instr} (h : decodeCmd op arg = .ok i) :
    EncodedUnder .cmd op i ∧ op.toNat ∈ [0x01, 0x02, 0x10, 0x11, 0x20, 0x21, 0x22, 0x23, 0x28, 0x29, 0x2A, 0x2B, 0x2C, 0x30, 0x31,
      0x32, 0x33, 0x3E] := by
  unfold decodeCmd at h
  split at h <;> cases h <;> rename_i hop <;> exact ⟨.of_code hop rfl rfl rfl, by simp [hop]⟩

/-- The slot number of a word is 0 or 1 (R105). -/
theorem slotOperand_eq_ok {op arg : Byte} {k : SlotIx} (h : slotOperand op arg = .ok k) : arg = slotByte k := by
  unfold slotOperand at h
  split at h
  · cases h; assumption
  · split at h <;> cases h
    assumption

/-- The sample of a word is one bit (R252). -/
theorem bitOperand_eq_ok {arg : Byte} {v : Bool} (h : bitOperand arg = .ok v) : arg = bitByte v := by
  unfold bitOperand at h
  split at h
  · cases h; assumption
  · split at h <;> cases h
    assumption

theorem slotOperand_slotByte (op : Byte) (k : SlotIx) : slotOperand op (slotByte k) = .ok k := by
  cases k <;> rfl

theorem bitOperand_bitByte (v : Bool) : bitOperand (bitByte v) = .ok v := by
  cases v <;> rfl

/-- An operation with an operand of its own is read only where the operand is. -/
theorem ok_of_map_ok {α : Type} {f : α → Instr} {x : Except DecodeError α} {i : Instr} (h : x.map f = .ok i) :
    ∃ a, x = .ok a ∧ i = f a := by
  cases x with
  | error e => cases h
  | ok a => cases h; exact ⟨a, rfl, rfl⟩

/-- A label of a micro-step is read as one of the ten, encoded under its own label (R103). -/
theorem decodeUop_encoded {op arg : Byte} {i : Instr} (h : decodeUop op arg = .ok i) :
    EncodedUnder .uop op i ∧ op.toNat ∈ [0x40, 0x41, 0x42, 0x43, 0x44, 0x45, 0x46, 0x47, 0x48, 0x49] := by
  unfold decodeUop at h
  split at h
  case h_3 hop | h_6 hop | h_9 hop =>
    obtain ⟨a, _, rfl⟩ := ok_of_map_ok h
    exact ⟨.of_code hop rfl rfl rfl, by simp [hop]⟩
  all_goals cases h <;> rename_i hop <;> exact ⟨.of_code hop rfl rfl rfl, by simp [hop]⟩

/-- A label of a function is read as one of the eleven, encoded under its own label (R103). -/
theorem decodeFn_encoded {op arg : Byte} {a : Args} {i : Instr} (h : decodeFn op arg a = .ok i) :
    EncodedUnder .fn op i ∧ op.toNat ∈ [0x50, 0x51, 0x52, 0x53, 0x54, 0x58, 0x59, 0x5A, 0x60, 0x61, 0x62] := by
  unfold decodeFn at h
  split at h <;> cases h <;> rename_i hop <;> exact ⟨.of_code hop rfl rfl rfl, by simp [hop]⟩

/-- The request word is `HS_REQUEST` and no other (R98). -/
theorem decode_hsReq_eq_ok {w : Word} {a : Args} {i : Instr} (h : decode ⟨.hsReq, w, a⟩ = .ok i) :
    w = Config.hsRequest ∧ i = .hsReq := by
  by_cases hw : w = Config.hsRequest
  · subst hw
    cases h
    exact ⟨rfl, rfl⟩
  · simp [decode, hw] at h

/-- Whatever is decoded is well-formed, of the format it was read in, and encoded under the high byte it was read from (R90). -/
theorem decode_encoded {iss : Issue} {i : Instr} (h : decode iss = .ok i) : EncodedUnder iss.fmt (hiByte iss.word) i := by
  obtain ⟨fmt, w, a⟩ := iss
  cases fmt with
  | slotOut =>
    cases h
    obtain ⟨hwf, henc⟩ := encode_decodeSlotOut (hiByte w) (loByte w)
    exact ⟨hwf, by rw [henc]; rfl, by rw [henc]; exact hiByte_joinBytes _ _⟩
  | slotIn => cases h; exact decodeSlotIn_encoded _ _
  | hsReq =>
    obtain ⟨rfl, rfl⟩ := decode_hsReq_eq_ok h
    exact ⟨rfl, rfl, rfl⟩
  | hsResp => cases h; exact decodeHsResp_encoded _ _
  | cmd => exact (decodeCmd_encoded h).1
  | uop => exact (decodeUop_encoded h).1
  | fn => exact (decodeFn_encoded h).1

/-! ### What is no operation of its format (R98, R105, R252) -/

theorem decodeUop_slot_refused {op arg : Byte} (hop : op = 0x42 ∨ op = 0x45) (harg : 1 < arg.toNat) (i : Instr) :
    decodeUop op arg ≠ .ok i := by
  intro h
  obtain ⟨k, hk⟩ : ∃ k, slotOperand op arg = .ok k := by
    rcases hop with rfl | rfl
    all_goals
      obtain ⟨k, hk, _⟩ := ok_of_map_ok h
      exact ⟨k, hk⟩
  rw [slotOperand_eq_ok hk] at harg
  cases k <;> exact absurd harg (by decide)

theorem decodeUop_sample_refused {arg : Byte} (harg : 1 < arg.toNat) (i : Instr) : decodeUop 0x48 arg ≠ .ok i := by
  intro h
  obtain ⟨v, hv, _⟩ := ok_of_map_ok (f := Instr.sbSample) h
  rw [bitOperand_eq_ok hv] at harg
  cases v <;> exact absurd harg (by decide)

end Sys2Proof

namespace Sys2Proof.Machine

/-- A word that decodes to nothing changes nothing, is refused and marks the run (R105, U14). -/
theorem runIssue_of_rejected {iss : Issue} (h : ∀ i, decode iss ≠ .ok i) (s : State) : runIssue iss s = .next (turnedAway s) := by
  unfold runIssue
  split
  · exact absurd ‹_› (h _)
  · rfl

/-- `ID_GET` past selector 3 is refused (R105, R243). -/
theorem exec_idGet_refused {sel : Byte} (h : 3 < sel.toNat) (s : State) : exec (.idGet sel) s = .next (turnedAway s) := by
  show execIdGet sel s = _
  unfold execIdGet
  split
  case h_5 => rfl
  all_goals omega

/-! ### The obligations -/

/-- Settles O2: the word of an instruction is read in its format, its operand byte by the slot and bit decoders' inverses and its
operands outside the word beside it. -/
theorem decodeEncodeRoundTrip : Obligations.DecodeEncodeRoundTrip := by
  intro i hwf
  cases i with
  | slotEmpty => exact decode_issueOf_slotOut _ _
  | slotMidi b => exact (decode_issueOf_slotOut _ _).trans (congrArg _ (decodeSlotOut_midi b))
  | slotLed d => exact (decode_issueOf_slotOut _ _).trans (congrArg _ (decodeSlotOut_led d))
  | slotRsvd t v => exact (decode_issueOf_slotOut _ _).trans (congrArg _ (decodeSlotOut_reserved hwf))
  | rxNone => exact decode_issueOf_slotIn _ _
  | rxData t v => exact (decode_issueOf_slotIn _ _).trans (congrArg _ (decodeSlotIn_data (bne_iff_ne.1 hwf)))
  | hsReq => rfl
  | hsInvalid => exact decode_issueOf_hsResp _ _
  | hsValid r p => exact (decode_issueOf_hsResp _ _).trans (congrArg _ (decodeHsResp_valid (bne_iff_ne.1 hwf)))
  | composeSlot k =>
    exact (decode_issueOf_uop _ _).trans (congrArg (Except.map Instr.composeSlot) (slotOperand_slotByte 0x42 k))
  | deliverSlot k =>
    exact (decode_issueOf_uop _ _).trans (congrArg (Except.map Instr.deliverSlot) (slotOperand_slotByte 0x45 k))
  | sbSample v => exact (decode_issueOf_uop _ _).trans (congrArg (Except.map Instr.sbSample) (bitOperand_bitByte v))
  | cycStart | itRefill | itXchg | itDecay | itCont | cycFlush | sbEdge => exact decode_issueOf_uop _ _
  | xchg tx => exact decode_fn_args _ _ ⟨tx, 0⟩
  | onElapsed n => exact decode_fn_args _ _ ⟨Args.zero.tx, n⟩
  | xchg16 | rdlp | idParse | quiesce | oqPop | oqRefill | iqPush | canSend | onSent => exact decode_issueOf_fn _ _
  | _ => exact decode_issueOf_cmd _ _

/-- Settles O3: whatever is decoded is encoded under the high byte it was read from; an outbound slot and a response that is not
`HS.INVALID` keep their low byte too. -/
theorem decodedInstructionReencodes : Obligations.DecodedInstructionReencodes := by
  intro iss i h
  obtain ⟨hwf, hfmt, hhi⟩ := decode_encoded h
  refine ⟨hwf, hfmt, hhi, ?slotOut, ?hsResp⟩ <;> obtain ⟨fmt, w, a⟩ := iss
  case slotOut =>
    rintro rfl
    cases h
    rw [(encode_decodeSlotOut (hiByte w) (loByte w)).2]
    exact joinBytes_hiByte_loByte w
  case hsResp =>
    rintro rfl hi
    cases h
    rw [encode_decodeHsResp hi]
    exact joinBytes_hiByte_loByte w

/-- Settles O1: each of the ten words by computation. -/
theorem sampleWordsDecode : Obligations.SampleWordsDecode := by
  and_intros <;> rfl

/-- Settles O4: what decodes has a listed code and an operand that exists, and what does not decode is refused. -/
theorem commandPortRefusesUnlistedCodes : Obligations.CommandPortRefusesUnlistedCodes := by
  refine ⟨fun w a s hop => ?_, fun sel s hsel => exec_idGet_refused hsel s, fun w a i hop harg => ?_, fun s iss rest hs h => ?_,
    fun w a i => ⟨fun hop h => hop (decodeUop_encoded h).2, fun hop harg => ?_, fun hop h => hop (decodeFn_encoded h).2,
      fun hw h => hw (decode_hsReq_eq_ok h).1⟩⟩
  · exact runIssue_of_rejected (iss := ⟨.cmd, w, a⟩) (fun i h => hop (decodeCmd_encoded h).2) s
  · exact decodeUop_slot_refused hop harg i
  · rw [step_of_event hs]
    exact runIssue_of_rejected h _
  · show decodeUop (hiByte w) (loByte w) ≠ .ok i
    rw [hop]
    exact decodeUop_sample_refused harg i

/-- Settles O12: the tag alone is tested, and `RX.NONE` has no effect. -/
theorem emptyInboundSlotDoesNothing : Obligations.EmptyInboundSlotDoesNothing :=
  ⟨fun _ _ h => congrArg Except.ok (if_pos h), fun _ => rfl⟩

end Sys2Proof.Machine
end

section
/-! The frame registers: a whole frame composed and a whole frame delivered (R107, R178, R210, R217), the outbound slot words (R175 to
R177), and which steps write the outbound frame or the hold of `OUT_DRAIN` (R95, R104). -/

namespace Sys2Proof.Machine

/-! ### A whole frame composed (R107, R174, R178) -/

/-- The MIDI bytes of one outbound slot as a monitor reads it (R107). -/
def monitored (sl : Slot) : List Byte := if sl.tag = Config.tagMidi then [sl.value] else []

theorem midiValues_eq (f : Frame) : midiValues f = monitored f.slot0 ++ monitored f.slot1 := by
  by_cases h0 : f.slot0.tag = Config.tagMidi <;> by_cases h1 : f.slot1.tag = Config.tagMidi <;>
    simp [midiValues, monitored, h0, h1]

@[simp] theorem frameSlot_setFrameSlot (f : Frame) (k : SlotIx) (sl : Slot) : frameSlot (setFrameSlot f k sl) k = sl := by
  cases k <;> rfl

/-- From `s` to `t` slot `k` is composed: what a monitor reads in it has left the head of the queue and is charged, and an LED
command that was pending is in it. -/
structure Composed (k : SlotIx) (s t : State) : Prop where
  wstate : t.wstate = s.wstate
  oq_ok : t.oq.ok = true
  frame : t.frameOut = setFrameSlot s.frameOut k (frameSlot t.frameOut k)
  order : monitored (frameSlot t.frameOut k) ++ ringList t.oq = ringList s.oq
  charge : t.usage = s.usage + 1000 * (monitored (frameSlot t.frameOut k)).length
  led : s.ledPending = true → frameSlot t.frameOut k = ledPair s.ledDuration
  led_clear : t.ledPending = false

theorem composeOne_composed (k : SlotIx) {s : State} (hok : s.oq.ok = true) : Composed k s (composeOne k s) := by
  rcases composeOne_cases k s hok with ⟨_, he⟩ | ⟨hled, _, b, q, hq, hlist, _, he⟩ | ⟨hled, _, he⟩ <;> rw [he]
  · refine ⟨rfl, hok, ?_, ?_, ?_, fun _ => ?_, rfl⟩ <;> rw [frameSlot_setFrameSlot] <;> rfl
  · refine ⟨rfl, hq, ?_, ?_, ?_, fun h => absurd (hled.symm.trans h) Bool.false_ne_true, hled⟩ <;> rw [frameSlot_setFrameSlot]
    · exact hlist.symm
    · rfl
  · refine ⟨rfl, hok, ?_, ?_, ?_, fun h => absurd (hled.symm.trans h) Bool.false_ne_true, hled⟩ <;>
      rw [frameSlot_setFrameSlot] <;> rfl

/-- `COMPOSE_SLOT k` in its phase (R140, R174). -/
theorem exec_composeSlot {k : SlotIx} {s : State} (hw : s.wstate = .running) (hp : s.phase = composePhase k) (hok : s.oq.ok = true) :
    ∃ t, exec (.composeSlot k) s = .next t ∧ t.phase = afterCompose k ∧ Composed k s t := by
  refine ⟨_, congrArg Host.Outcome.next (if_pos ((enabledAt_iff _ s).2 ⟨hw, hp⟩)), rfl, ?_⟩
  exact { composeOne_composed k hok with }

/-! ### A whole frame delivered (R96, R97, R210, R217) -/

/-- The byte an inbound slot delivers, if it has one (R96). -/
def delivers (t v : Byte) : List Byte := if t = 0 then [] else [v]

theorem inboundValues_eq (f : Frame) :
    inboundValues f = delivers f.slot0.tag f.slot0.value ++ delivers f.slot1.tag f.slot1.value := by
  by_cases h0 : f.slot0.tag = 0 <;> by_cases h1 : f.slot1.tag = 0 <;>
    simp only [inboundValues, delivers, List.filter_cons, bne_iff_ne, ne_eq, h0, h1, not_true, not_false_iff, if_true, if_false] <;>
    rfl

/-- From `s` to `t` these bytes are delivered: appended as far as there is room, the rest counted as dropped. -/
structure Delivered (vs : List Byte) (s t : State) : Prop where
  wstate : t.wstate = s.wstate
  frameIn : t.frameIn = s.frameIn
  iq_ok : t.iq.ok = true
  order : ringList t.iq = ringList s.iq ++ vs.take (4096 - s.iq.count)
  drops : t.diagInDrops = s.diagInDrops + (vs.length - (4096 - s.iq.count))

theorem Delivered.trans {vs ws : List Byte} {s t u : State} (h : Delivered vs s t) (k : Delivered ws t u) :
    Delivered (vs ++ ws) s u := by
  have hcount : t.iq.count = s.iq.count + min (4096 - s.iq.count) vs.length := by
    rw [← ringList_length t.iq, h.order, List.length_append, List.length_take, ringList_length]
  refine ⟨k.wstate.trans h.wstate, k.frameIn.trans h.frameIn, k.iq_ok, ?_, ?_⟩
  · rw [k.order, h.order, List.append_assoc, List.take_append, hcount]
    congr 3
    omega
  · rw [k.drops, h.drops, List.length_append, hcount]
    omega

theorem deliverPair_delivered (tag v : Byte) {s : State} (hok : s.iq.ok = true) :
    Delivered (delivers tag v) s (deliverPair tag v s) := by
  by_cases htag : tag = 0
  · rw [deliverPair, if_pos htag, delivers, if_pos htag]
    exact ⟨rfl, rfl, hok, by simp, by simp⟩
  rw [deliverPair, if_neg htag, delivers, if_neg htag]
  rcases deliverByte_cases v s hok with ⟨hfull, he⟩ | ⟨q, hq, hlist, hcount, hcases⟩
  · rw [he]
    exact ⟨rfl, rfl, hok, by simp [hfull], by simp [hfull]⟩
  · have hroom : 4096 - s.iq.count = 4095 - s.iq.count + 1 := by
      have := ((ring_ok_iff q).1 hq).1
      omega
    rcases hcases with ⟨_, _, _, he⟩ | ⟨_, he⟩ <;> rw [he] <;>
      exact ⟨rfl, rfl, hq, by simp [hroom, hlist], by simp [hroom]⟩

/-- `DELIVER_SLOT k` in its phase (R140, R180). -/
theorem exec_deliverSlot {k : SlotIx} {s : State} (hw : s.wstate = .running) (hp : s.phase = deliverPhase k) (hok : s.iq.ok = true) :
    ∃ t, exec (.deliverSlot k) s = .next t ∧ t.phase = afterDeliver k ∧
      Delivered (delivers (frameSlot s.frameIn k).tag (frameSlot s.frameIn k).value) s t := by
  refine ⟨_, congrArg Host.Outcome.next (if_pos ((enabledAt_iff _ s).2 ⟨hw, hp⟩)), rfl, ?_⟩
  exact { deliverPair_delivered (frameSlot s.frameIn k).tag (frameSlot s.frameIn k).value hok with }

/-! ### The outbound slot words (R170, R175 to R177) -/

/-- Where the link is up or going down a call outside the contract marks the run (R72, log entry 13). -/
theorem outsideContract_alive {s : State} (h : s.lstate = .up ∨ s.lstate = .shutdown) :
    outsideContract s = { s with marked := true } := by
  rw [outsideContract, (linkAlive_iff s).2 h, Bool.or_true]

/-- A slot word is placed in the slot that is being composed (log entries 13 and 15). -/
theorem emitSlot_composing (sl : Slot) {s : State} {k : SlotIx} (hl : s.lstate = .up ∨ s.lstate = .shutdown)
    (hw : s.wstate = .running) (hp : s.phase = composePhase k) :
    emitSlot sl s = { s with
      frameOut := setFrameSlot s.frameOut k sl, marked := true, verdict := .done .ok, result := .none } := by
  rw [emitSlot, (composingSlot_iff s k).2 ⟨hw, hp⟩]
  simp only [outsideContract_alive (s := putSlot k sl s) hl]
  rfl

/-- With no slot being composed a slot word is refused (R170). -/
theorem emitSlot_refused (sl : Slot) {s : State} (h : ¬(s.wstate = .running ∧ (s.phase = .compose0 ∨ s.phase = .compose1))) :
    emitSlot sl s = turnedAway s := by
  have hnone : composingSlot s = none := by
    refine Option.eq_none_iff_forall_ne_some.2 fun k hk => h ?_
    obtain ⟨hw, hp⟩ := (composingSlot_iff s k).1 hk
    cases k
    · exact ⟨hw, .inl hp⟩
    · exact ⟨hw, .inr hp⟩
  rw [emitSlot, hnone]
  rfl

/-! ### Which instructions write the outbound frame or the hold of `OUT_DRAIN` -/

/-- The outbound frame and the hold of `OUT_DRAIN` in `t` are those in `s`. -/
structure Spares (s t : State) : Prop where
  frameOut : t.frameOut = s.frameOut
  drainWait : t.drainWait = s.drainWait

theorem Recorded.spares {s t : State} (h : Recorded s t) : Spares s t := by
  rw [h.eq]
  exact ⟨rfl, rfl⟩

theorem Spares.reply {s t : State} (v : Verdict) (r : Result) (h : Spares s t) : Spares s (t.reply v r) := { h with }

theorem Spares.outside {s t : State} (h : Spares s t) : Spares s (outsideContract t) := { h with }

theorem spares_refuse (s : State) : Spares s s.refuse := ⟨rfl, rfl⟩

theorem spares_ite_refuse {c : Prop} [Decidable c] {s t : State} (h : Spares s t) : Spares s (if c then t else s.refuse) := by
  split
  · exact h
  · exact spares_refuse s

theorem spares_requestCycle (s : State) : Spares s (requestCycle s) := ⟨requestCycle_frameOut s, requestCycle_drainWait s⟩

theorem spares_sampleLine (v : Bool) (s : State) : Spares s (sampleLine v s) := by
  rcases sampleLine_cases v s with ⟨_, _, _, _, _, he⟩ | he <;> rw [he] <;> exact ⟨rfl, rfl⟩

theorem spares_storeInbound (b : Byte) (s : State) : Spares s (storeInbound b s).2 := by
  unfold storeInbound
  split <;> exact ⟨rfl, rfl⟩

theorem spares_deliverPair (tag v : Byte) (s : State) : Spares s (deliverPair tag v s) := by
  have hstored := spares_storeInbound v s
  unfold deliverPair deliverByte
  split
  · exact ⟨rfl, rfl⟩
  · simp only
    split <;> exact { hstored with }

theorem spares_refillOutbound (s : State) : Spares s (refillOutbound s) := ⟨rfl, rfl⟩

theorem spares_refillStep (s : State) : Spares s (refillStep s) := by
  unfold refillStep
  simp only
  split <;> exact ⟨rfl, rfl⟩

theorem spares_exchangeStep (s : State) : Spares s (exchangeStep s) := by
  have hx := (exchangeFrame_onlyLink s.frameOut s).recorded.spares
  exact { hx with }

theorem spares_startBringUp (s : State) : Spares s (startBringUp s) := by
  rcases startBringUp_cases s with ⟨_, he⟩ | ⟨_, he⟩ <;> rw [he] <;> exact ⟨rfl, rfl⟩

/-- The instructions that write the outbound frame or the hold of `OUT_DRAIN`, those that may end a bring-up aside. -/
def writesFrameOrHold : Instr → Bool
  | .slotEmpty | .slotMidi _ | .slotLed _ | .composeSlot _ | .linkDown | .outDrain => true
  | _ => false

/-- Every other instruction leaves both alone. -/
theorem exec_spares {j : Instr} {s t : State} (hj : writesFrameOrHold j = false) (hshake : makesHandshake j = false)
    (h : exec j s = .next t) : Spares s t := by
  cases j with
  | slotEmpty | slotMidi | slotLed | composeSlot | linkDown | outDrain => cases hj
  | idParse | rdlp | xchg16 | hsInvalid | hsValid => cases hshake
  | rxNone | sbLevel | canSend | slotRsvd | onElapsed => cases h; exact ⟨rfl, rfl⟩
  | outOpen | outClose | inOpen | inClose | inStop | iqDrain | oqLen | iqLen | cycStart | itDecay | itCont | onSent =>
    cases h; exact spares_ite_refuse ⟨rfl, rfl⟩
  | reqCycle => cases h; exact { spares_requestCycle s with }
  | flashLed d =>
    cases h; exact spares_ite_refuse { spares_requestCycle { s with ledDuration := d, ledPending := true } with }
  | outStart => cases h; exact spares_ite_refuse { spares_requestCycle s with }
  | inStart => cases h; exact spares_ite_refuse { spares_requestCycle { s with readyCb := true } with }
  | sbSample v => cases h; exact { spares_sampleLine v s with }
  | sbEdge => cases h; exact ⟨notifyEdge_frameOut s, notifyEdge_drainWait s⟩
  | linkUp => cases h; exact spares_ite_refuse (spares_startBringUp s)
  | itRefill => cases h; exact spares_ite_refuse { spares_refillStep s with }
  | itXchg => cases h; exact spares_ite_refuse { spares_exchangeStep s with }
  | deliverSlot k => cases h; exact spares_ite_refuse { spares_deliverPair _ _ s with }
  | iqPush b => cases h; exact spares_ite_refuse ((spares_storeInbound b s).outside.reply _ _)
  | oqRefill => cases h; exact spares_ite_refuse ((spares_refillOutbound s).outside.reply _ _)
  | rxData tag v =>
    cases h
    split
    · exact (spares_deliverPair tag v s).outside.reply _ _
    · exact spares_refuse s
  | hsReq =>
    cases h
    split
    · exact spares_refuse s
    · split
      · exact (show Spares s { s with linkTx := wordBytes Config.hsRequest } from ⟨rfl, rfl⟩).outside.reply _ _
      · exact (show Spares s (countFault s) from ⟨rfl, rfl⟩).outside.reply _ _
  | xchg tx =>
    cases h
    split
    · exact spares_refuse s
    · exact (exchangeFrame_onlyLink tx s).recorded.spares.outside.reply _ _
  | cycFlush =>
    cases h
    refine spares_ite_refuse ?_
    split <;> exact ⟨rfl, rfl⟩
  | idGet sel =>
    have hget : execIdGet sel s = .next t := h
    unfold execIdGet at hget
    split at hget <;> cases hget <;> exact ⟨rfl, rfl⟩
  | oqPush b =>
    cases h
    split
    · exact spares_refuse s
    · split
      · exact ⟨rfl, rfl⟩
      · rename_i q _
        simp only
        split
        · exact { spares_requestCycle { s with oq := q } with }
        · exact ⟨rfl, rfl⟩
  | quiesce =>
    cases h
    split <;> exact ⟨rfl, rfl⟩
  | oqPop =>
    cases h
    refine spares_ite_refuse ?_
    split <;> exact ⟨rfl, rfl⟩

/-! ### The outbound frame stays legal (R93, R95) -/

theorem FrameOutLegal.of_eq {s t : State} (h : FrameOutLegal s) (he : t.frameOut = s.frameOut) : FrameOutLegal t := by
  unfold FrameOutLegal
  rw [he]
  exact h

theorem FrameOutLegal.setSlot {s t : State} (h : FrameOutLegal s) {k : SlotIx} {sl : Slot} (hsl : legalSlot sl = true)
    (he : t.frameOut = setFrameSlot s.frameOut k sl) : FrameOutLegal t := by
  unfold FrameOutLegal
  rw [he]
  cases k
  · exact ⟨hsl, h.2⟩
  · exact ⟨h.1, hsl⟩

theorem legalSlot_ledPair (d : Byte) : legalSlot (ledPair d) = true := rfl

theorem legalSlot_midiPair (b : Byte) : legalSlot (midiPair b) = true := rfl

theorem legalSlot_emptyPair : legalSlot emptyPair = true := rfl

/-- Whatever the state, `COMPOSE_SLOT` writes one of the three encodings and leaves the hold of `OUT_DRAIN` alone (R174). -/
theorem composeOne_writes (k : SlotIx) (s : State) :
    (∃ sl, legalSlot sl = true ∧ (composeOne k s).frameOut = setFrameSlot s.frameOut k sl) ∧
      (composeOne k s).drainWait = s.drainWait := by
  unfold composeOne
  split
  · exact ⟨⟨_, legalSlot_ledPair _, rfl⟩, rfl⟩
  · split
    · split
      · exact ⟨⟨_, legalSlot_midiPair _, rfl⟩, rfl⟩
      · exact ⟨⟨_, legalSlot_emptyPair, rfl⟩, rfl⟩
    · exact ⟨⟨_, legalSlot_emptyPair, rfl⟩, rfl⟩

theorem emitSlot_legal {sl : Slot} {s : State} (hsl : legalSlot sl = true) (h : FrameOutLegal s) : FrameOutLegal (emitSlot sl s) := by
  unfold emitSlot
  split
  · exact h.setSlot hsl rfl
  · exact h.of_eq rfl

theorem emitSlot_drainWait (sl : Slot) (s : State) : (emitSlot sl s).drainWait = s.drainWait := by
  unfold emitSlot
  split <;> rfl

theorem quiesceThenTearDown_legal {s : State} (h : FrameOutLegal s) : FrameOutLegal (quiesceThenTearDown s) := by
  rcases quiesceThenTearDown_cases s with ⟨_, he⟩ | ⟨_, he⟩ <;> rw [he]
  · exact (by decide : legalSlot Frame.zero.slot0 = true ∧ legalSlot Frame.zero.slot1 = true)
  · exact h.of_eq rfl

theorem SequenceStep.frameOut {s t : State} (h : SequenceStep s t) : t.frameOut = s.frameOut := by
  cases h with
  | finished st _ _ => rw [finishBringUp_eq]; rfl
  | answered max got _ => rw [blockReply_eq]; rfl
  | _ => rfl

theorem exec_handshake_frameOut {j : Instr} {s t : State} (hj : makesHandshake j = true) (h : exec j s = .next t) :
    t.frameOut = s.frameOut := by
  rcases exec_handshake_cases hj h with hr | ⟨x, hx, hseq⟩
  · exact hr.spares.frameOut
  · exact hseq.frameOut.trans hx.recorded.spares.frameOut

theorem exec_frameOutLegal (j : Instr) (s t : State) (h : exec j s = .next t) (hs : FrameOutLegal s) : FrameOutLegal t := by
  by_cases hshake : makesHandshake j = true
  · exact hs.of_eq (exec_handshake_frameOut hshake h)
  by_cases hj : writesFrameOrHold j = true
  · cases j with
    | slotEmpty => cases h; exact emitSlot_legal legalSlot_emptyPair hs
    | slotMidi b => cases h; exact emitSlot_legal (legalSlot_midiPair b) hs
    | slotLed d => cases h; exact emitSlot_legal (legalSlot_ledPair d) hs
    | composeSlot k =>
      obtain ⟨⟨sl, hsl, he⟩, _⟩ := composeOne_writes k s
      cases h
      split
      · exact hs.setSlot hsl he
      · exact hs.of_eq rfl
    | linkDown =>
      cases h
      split
      · exact quiesceThenTearDown_legal (hs.of_eq rfl)
      · exact hs.of_eq rfl
    | outDrain =>
      cases h
      split
      · exact hs.of_eq rfl
      · split
        · exact hs.of_eq rfl
        · exact hs.of_eq (requestCycle_frameOut _)
    | _ => cases hj
  · exact hs.of_eq (exec_spares (by simpa using hj) (by simpa using hshake) h).frameOut

/-! ### The obligations -/

/-- Settles O34: the two slots one after the other; the second leaves the first as it is. -/
theorem composedFrameCarriesTheQueueInOrder : Obligations.ComposedFrameCarriesTheQueueInOrder := by
  intro s hok hw hp
  obtain ⟨t, ht, htp, h0⟩ := exec_composeSlot (k := .slot0) hw hp hok
  obtain ⟨u, hu, hup, h1⟩ := exec_composeSlot (k := .slot1) (h0.wstate.trans hw) htp h0.oq_ok
  have hfirst : u.frameOut.slot0 = t.frameOut.slot0 := by rw [h1.frame]; rfl
  have horder : monitored u.frameOut.slot1 ++ ringList u.oq = ringList t.oq := h1.order
  have hcharge : u.usage = t.usage + 1000 * (monitored u.frameOut.slot1).length := h1.charge
  refine ⟨t, u, ht, hu, hup, ?_, ?_, fun hled => ⟨hfirst.trans (h0.led hled), h1.led_clear⟩⟩
  · rw [midiValues_eq, hfirst, List.append_assoc, horder]
    exact h0.order
  · rw [midiValues_eq, hfirst, List.length_append, hcharge, h0.charge, Nat.mul_add, Nat.add_assoc]
    rfl

/-- Settles O36: the two slots one after the other. -/
theorem deliveredFrameKeepsOrder : Obligations.DeliveredFrameKeepsOrder := by
  intro s hok hw hp
  obtain ⟨t, ht, htp, h0⟩ := exec_deliverSlot (k := .slot0) hw hp hok
  obtain ⟨u, hu, hup, h1⟩ := exec_deliverSlot (k := .slot1) (h0.wstate.trans hw) htp h0.iq_ok
  rw [h0.frameIn] at h1
  have hframe := h0.trans h1
  refine ⟨t, u, ht, hu, hup, ?_, ?_⟩ <;> rw [inboundValues_eq]
  · exact hframe.order
  · exact hframe.drops

/-- Settles O11: a slot word is placed where a slot is being composed and refused elsewhere; a reserved one is always refused. -/
theorem outboundSlotWordsArePlaced : Obligations.OutboundSlotWordsArePlaced := by
  have next {t u : State} (h : t = u) : (Host.Outcome.next t : Out) = .next u := congrArg _ h
  refine ⟨fun _ _ _ => rfl, fun s k hl hw hp => ?_, fun s h => ?_⟩
  · exact ⟨next (emitSlot_composing _ hl hw hp), fun _ => next (emitSlot_composing _ hl hw hp),
      fun _ => next (emitSlot_composing _ hl hw hp)⟩
  · exact ⟨next (emitSlot_refused _ h), fun _ => next (emitSlot_refused _ h), fun _ => next (emitSlot_refused _ h)⟩

/-- Settles O37: the instructions that write the frame write one of the three encodings, and the tear-down and the reset write
`SLOT.EMPTY`. -/
theorem outboundFrameStaysLegal : Obligations.OutboundFrameStaysLegal := by
  intro s t hs h
  refine step_keeps FrameOutLegal (fun _ _ h => h) exec_frameOutLegal (fun _ h => h) (fun x hx => ?resume) (fun _ _ h => h)
    (fun _ _ h => h) (fun _ _ h => h) (fun _ _ h => h) (fun _ _ => ?reset) h hs
  case resume =>
    unfold resumeLinkDown
    split
    · exact quiesceThenTearDown_legal hx
    · exact hx
  case reset => exact (by decide : legalSlot Frame.zero.slot0 = true ∧ legalSlot Frame.zero.slot1 = true)

end Sys2Proof.Machine
end

section
/-! The hold of a caller in `OUT_DRAIN`: `done` of the command port stays low until it is lifted (R39, R104, R269). -/

namespace Sys2Proof.Machine

theorem cmdDone_of_held {s : State} (h : s.drainWait = true ∨ s.lstate = .bringup ∨ s.lstate = .shutdown) : cmdDone s = false := by
  rw [cmdDone, (callerHeld_iff s).2 h, Bool.not_true, Bool.false_and]

/-- With no bring-up in progress a handshake leaves the hold of `OUT_DRAIN` alone. -/
theorem SequenceStep.drainWait {s t : State} (h : SequenceStep s t) (hp : s.parse = .idle) : t.drainWait = s.drainWait := by
  cases h with
  | failed hq | finished _ hq _ | field _ _ _ hq _ _ _ _ => exact absurd hp hq
  | answered max got _ => rw [blockReply_eq]; rfl
  | word _ _ _ _ _ => rfl

/-- With no bring-up in progress no instruction but `OUT_DRAIN` and `LINK_DOWN` moves the hold of `OUT_DRAIN`. -/
theorem exec_drainWait {j : Instr} {s t : State} (hp : s.parse = .idle) (hdrain : j ≠ .outDrain) (hdown : j ≠ .linkDown)
    (h : exec j s = .next t) : t.drainWait = s.drainWait := by
  by_cases hshake : makesHandshake j = true
  · rcases exec_handshake_cases hshake h with hr | ⟨x, hx, hseq⟩
    · exact hr.spares.drainWait
    · have hxp : x.parse = .idle := by rw [hx.recorded.eq]; exact hp
      exact (hseq.drainWait hxp).trans hx.recorded.spares.drainWait
  by_cases hj : writesFrameOrHold j = true
  · cases j with
    | slotEmpty | slotMidi | slotLed => cases h; exact emitSlot_drainWait _ s
    | composeSlot k =>
      cases h
      split
      · exact (composeOne_writes k s).2
      · rfl
    | linkDown => exact absurd rfl hdown
    | outDrain => exact absurd rfl hdrain
    | _ => cases hj
  · exact (exec_spares (by simpa using hj) (by simpa using hshake) h).drainWait

/-- A held `OUT_DRAIN` taken with bytes queued is held again (R269). -/
theorem exec_outDrain_holds {s t : State} (hl : s.lstate = .up) (hc : s.oq.count ≠ 0) (h : exec .outDrain s = .next t) :
    t.drainWait = true := by
  cases (exec_outDrain_bytes hl hc).symm.trans h
  rfl

/-- What lifts the hold of `OUT_DRAIN` when an instruction runs in `UP` (R269, R291). -/
theorem exec_lifts_hold {j : Instr} {s t : State} (hl : s.lstate = .up) (hp : s.parse = .idle) (hd : s.drainWait = true)
    (h : exec j s = .next t) (ht : t.drainWait = false) : (j = .outDrain ∧ s.oq.count = 0) ∨ j = .linkDown := by
  by_cases hdown : j = .linkDown
  · exact .inr hdown
  by_cases hdrain : j = .outDrain
  · subst hdrain
    refine .inl ⟨rfl, ?_⟩
    by_contra hc
    exact Bool.false_ne_true (ht.symm.trans (exec_outDrain_holds hl hc h))
  · exact absurd (ht.symm.trans ((exec_drainWait hp hdrain hdown h).trans hd)) Bool.false_ne_true

/-- The worker and `HOST` take neither `OUT_DRAIN` nor `LINK_DOWN` by themselves. -/
theorem agent_takes_no_command {s : State} {i : Instr} (h : workerInstr s = some i ∨ hostInstr s = some i) :
    i ≠ .outDrain ∧ i ≠ .linkDown := by
  rcases h with h | h
  · rcases workerInstr_cases h with rfl | ⟨p, hp⟩
    · simp
    · constructor <;> rintro rfl <;> cases hp
  · have hshake := hostInstr_cases h
    constructor <;> rintro rfl <;> cases hshake

/-- A step after which a held `OUT_DRAIN` is held no more: `OUT_DRAIN` has found the queue empty, `LINK_DOWN` has ended it, or the
reset has. -/
theorem step_lifts_hold {s t : State} (hs : Inv s) (hd : s.drainWait = true) (h : step s = .next t) (ht : t.drainWait = false) :
    (s.oq.count = 0 ∧ (s.sched = [] ∨ ∃ iss rest, s.sched = .op iss :: rest ∧ decode iss = .ok .outDrain)) ∨
      (∃ iss rest, s.sched = .op iss :: rest ∧ decode iss = .ok .linkDown) ∨ ∃ rest, s.sched = .rst :: rest := by
  have hl : s.lstate = .up := hs.drain hd
  have hp : s.parse = .idle := hs.parse_idle (by simp [hl])
  have stays (hu : t.drainWait = s.drainWait) : False := Bool.false_ne_true (ht.symm.trans (hu.trans hd))
  rcases step_cases h with ⟨i, l, he, _, hi⟩ | ⟨_, l, _, rfl⟩ | ⟨he, _, _⟩ | ⟨l, _, rfl⟩ | ⟨dt, l, _, rfl⟩ | ⟨bs, l, _, rfl⟩ |
    ⟨b, l, _, rfl⟩ | ⟨as, l, _, rfl⟩ | ⟨l, hsched, _⟩
  · rcases exec_lifts_hold (s := { s with sched := l }) hl hp hd he ht with ⟨rfl, hc⟩ | rfl
    · refine .inl ⟨hc, ?_⟩
      rcases hi with ⟨iss, hsched, hdec⟩ | ⟨hsched, _⟩ | ⟨_, hw⟩ | ⟨_, hh⟩
      · exact .inr ⟨iss, l, hsched, hdec⟩
      · exact .inl hsched
      · exact absurd rfl (agent_takes_no_command (.inl hw)).1
      · exact absurd rfl (agent_takes_no_command (.inr hh)).1
    · rcases hi with ⟨iss, hsched, hdec⟩ | ⟨_, hne, _⟩ | ⟨_, hw⟩ | ⟨_, hh⟩
      · exact .inr (.inl ⟨iss, l, hsched, hdec⟩)
      · cases hne
      · exact absurd rfl (agent_takes_no_command (.inl hw)).2
      · exact absurd rfl (agent_takes_no_command (.inr hh)).2
  · exact (stays rfl).elim
  · rw [resumeLinkDown_elsewhere (by simp [hl])] at he
    exact (stays (by rw [he])).elim
  · exact (stays rfl).elim
  · exact (stays rfl).elim
  · exact (stays rfl).elim
  · exact (stays rfl).elim
  · exact (stays rfl).elim
  · exact .inr (.inr ⟨l, hsched⟩)

/-- Settles O8: `done` is low while a caller is held, and what lifts the hold of `OUT_DRAIN` is one of the three. -/
theorem heldCallerKeepsDoneLow : Obligations.HeldCallerKeepsDoneLow := by
  refine ⟨fun s hl hc => ⟨_, exec_outDrain_bytes hl hc, rfl, cmdDone_of_held (.inl rfl)⟩, fun s hl => cmdDone_of_held (.inr hl),
    fun s t hs hd h => ?_⟩
  cases ht : t.drainWait with
  | true => exact .inl ⟨rfl, cmdDone_of_held (.inl ht)⟩
  | false => exact .inr ⟨rfl, step_lifts_hold hs hd h ht⟩

end Sys2Proof.Machine
end

section
/-! The handshake words as steps (R98, R99, R127), a block read on any peer (R128, R308), and a whole `ID_XACT` (R101, R231 to R242). -/

namespace Sys2Proof.Machine

/-! ### One handshake, valid or not (R99, R127, R128, R232) -/

/-- `XCHG16` beside no running worker is a handshake (R72, R126). -/
theorem exec_xchg16 {s : State} (hw : s.wstate ≠ .running) : exec .xchg16 s = .next (handshake s) := by
  show execXchg16 s = _
  rw [execXchg16, if_neg (mt (workerRuns_iff s).1 hw)]

theorem countStep_valid {s : State} (hlink : s.linkBound = true) (hv : validAnswer (answerAt s 0) = true) :
    countStep s = nextField (answerAt s 0).b1.toNat 0 staged0 (afterHandshakes 1 s) := by
  obtain ⟨hpayload, hafter⟩ := exchangeWord_valid s hlink hv
  simp only [countStep, hpayload, hafter]

/-- `RDLP` ends at its first handshake unless the length is valid and within the capacity (R128). -/
theorem lengthStep_rejected {max : Nat} {s : State}
    (h : ¬(s.linkBound = true ∧ validAnswer (answerAt s 0) = true ∧ (answerAt s 0).b1.toNat ≤ max)) :
    lengthStep max s = endBlock max none (exchangeWord s).after := by
  by_cases hvalid : s.linkBound = true ∧ validAnswer (answerAt s 0) = true
  · obtain ⟨hlink, hv⟩ := hvalid
    have hlong : max < (answerAt s 0).b1.toNat := Nat.lt_of_not_le fun hle => h ⟨hlink, hv, hle⟩
    simp only [lengthStep, (exchangeWord_valid s hlink hv).1, if_pos hlong]
  · rw [answerAt_zero] at hvalid
    simp only [lengthStep, exchangeWord_payload, if_neg hvalid]

theorem dataStep_rejected (b : BlockRead) {s : State} (h : hsPayload (exchangeWord s).rx = none) :
    dataStep b s = endBlock b.max none (exchangeWord s).after := by
  simp only [dataStep, h]

/-- In a bring-up a handshake without a payload fails it, wherever it stands (R240, R303). -/
theorem handshake_fails_bringUp {s : State} (hrx : hsPayload (exchangeWord s).rx = none) (hp : s.parse ≠ .idle)
    (hfirst : s.parse = .start → s.block = none) : handshake s = failBringUp (exchangeWord s).after := by
  have hsame : (exchangeWord s).after.parse = s.parse := by rw [(exchangeWord_onlyLink s).eq]
  cases hparse : s.parse with
  | idle => exact absurd hparse hp
  | start => simp only [handshake, hfirst hparse, hparse, countStep, hrx]
  | fields left i st =>
    have hend (max : Nat) : endBlock max none (exchangeWord s).after = failBringUp (exchangeWord s).after :=
      endBlock_field_fails max (hsame.trans hparse) rfl
    cases hb : s.block with
    | none => simp only [handshake, hb, hparse, lengthStep, hrx, hend]
    | some b => simp only [handshake, hb, dataStep, hrx, hend]

/-- What a handshake does is fixed by where the sequence stands and what the exchange answers. -/
theorem handshake_congr {x y : State} (hb : x.block = y.block) (hp : x.parse = y.parse) (hx : exchangeWord x = exchangeWord y) :
    handshake x = handshake y := by
  simp only [handshake, dataStep, countStep, lengthStep, singleHandshake, hb, hp, hx]

/-- `ID_PARSE` is held between two fields (R9, R231). -/
def heldField (left i : Nat) (st : Staging) (s : State) : State := { s with parse := .fields left i st, block := none }.hold

theorem nextField_left {left : Nat} (h : left ≠ 0) (i : Nat) (st : Staging) (s : State) :
    nextField left i st s = heldField left i st s := by
  cases left with
  | zero => exact absurd rfl h
  | succ n => rfl

/-! ### The handshake words (R98, R99, log entry 15) -/

/-- The link has a user: the worker, a bring-up or a block read (R72). -/
theorem linkInUse_iff (s : State) :
    (workerRuns s || linkTaken s) = true ↔ s.wstate = .running ∨ s.parse ≠ .idle ∨ s.block ≠ none := by
  rw [Bool.or_eq_true, workerRuns_iff, linkTaken_iff, Option.isSome_iff_ne_none]

theorem exec_hsReq_refused {s : State} (h : s.wstate = .running ∨ s.parse ≠ .idle ∨ s.block ≠ none) :
    exec .hsReq s = .next (turnedAway s) :=
  congrArg Host.Outcome.next (if_pos ((linkInUse_iff s).2 h))

/-- Where the link has no user the request crosses it, or is a fault with no link bound (R98, R123). -/
theorem exec_hsReq_free {s : State} (h : ¬(s.wstate = .running ∨ s.parse ≠ .idle ∨ s.block ≠ none)) :
    exec .hsReq s = .next (if s.linkBound then (outsideContract { s with linkTx := wordBytes Config.hsRequest }).succeed
      else (outsideContract (countFault s)).raise .linkFault) :=
  congrArg Host.Outcome.next (if_neg (mt (linkInUse_iff s).1 h))

/-- `s` with this answer of the peer before the others, as a response word taken by itself leaves it (log entry 15). -/
def answeredBy (a : Config.LinkAnswer) (s : State) : State := { outsideContract s with answers := a :: s.answers }

/-- The state after the handshake that a response word has answered: no answer of the peer's is used. -/
def heard (s : State) : State := { outsideContract s with linkCount := s.linkCount + 1, linkTx := [0x00, 0x00] }

theorem answeredBy_valid {r : Byte} (p b2 b3 : Byte) (h : r ≠ 0) (s : State) :
    validAnswer (answerAt (answeredBy ⟨true, r, p, b2, b3⟩ s) 0) = true := bne_iff_ne.2 h

theorem exchangeWord_answeredBy {a : Config.LinkAnswer} (ha : a.ok = true) {s : State} (hlink : s.linkBound = true) :
    exchangeWord (answeredBy a s) = ⟨.ok, joinBytes a.b0 a.b1, heard s⟩ := by
  have hbound : (answeredBy a s).linkBound = true := hlink
  have hanswer : (linkAnswerOf (answeredBy a s)).ok = true := ha
  rw [exchangeWord, exchange, if_pos hbound, if_pos hanswer]
  rfl

theorem exchangeWord_answeredBy_invalid (p : Byte) (s : State) :
    hsPayload (exchangeWord (answeredBy (handshakeAnswer 0 p) s)).rx = none :=
  exchangeWord_invalid _ rfl

/-- A response that a handshake waits for is the answer to it (R99, R126). -/
theorem respond_waiting (r p : Byte) {s : State} (hw : s.wstate ≠ .running) (ht : s.parse ≠ .idle ∨ s.block ≠ none)
    (hlink : s.linkBound = true) : respond r p s = handshake (answeredBy (handshakeAnswer r p) s) := by
  have htaken : linkTaken s = true := by rwa [linkTaken_iff, Option.isSome_iff_ne_none]
  have hruns : workerRuns s = false := Bool.eq_false_iff.2 (mt (workerRuns_iff s).1 hw)
  rw [respond, if_neg (by simp [htaken, hruns, hlink])]
  rfl

theorem respond_refused (r p : Byte) {s : State}
    (h : s.wstate = .running ∨ (s.parse = .idle ∧ s.block = none) ∨ s.linkBound = false) : respond r p s = turnedAway s := by
  refine if_pos ?_
  rcases h with hw | ⟨hp, hb⟩ | hlink
  · simp [workerRuns, hw]
  · simp [linkTaken, hp, hb]
  · simp [hlink]

/-- `HS.INVALID` in a bring-up rolls it back (R289, R290). -/
theorem respond_invalid_bringUp {s : State} (hs : Inv s) (hl : s.lstate = .bringup) : respond 0 0 s = failBringUp (heard s) := by
  have hidle : s.wstate = .idle := hs.worker_idle (.inr hl)
  have hlink : s.linkBound = true := hs.parsing_bound hl
  have hp : s.parse ≠ .idle := hs.parsing.2 hl
  rw [respond_waiting 0 0 (by simp [hidle]) (.inl hp) hlink,
    handshake_fails_bringUp (s := answeredBy _ s) (exchangeWord_answeredBy_invalid 0 s) hp hs.count_first,
    exchangeWord_answeredBy (a := handshakeAnswer 0 0) rfl hlink]

/-- `HS.INVALID` in a direct block read ends it with a destination of zeros (R128). -/
theorem respond_invalid_block {b : BlockRead} {s : State} (hw : s.wstate ≠ .running) (hlink : s.linkBound = true)
    (hp : s.parse = .idle) (hb : s.block = some b) :
    respond 0 0 s = blockReply b.max none { heard s with block := none } := by
  have hdirect : ∀ left i st, (heard s).parse ≠ .fields left i st := by simp [heard, hp]
  have hwait : handshake (answeredBy (handshakeAnswer 0 0) s) = dataStep b (answeredBy (handshakeAnswer 0 0) s) := by
    simp only [handshake, answeredBy, outsideContract_block, hb]
  rw [respond_waiting 0 0 hw (.inr (by simp [hb])) hlink, hwait,
    dataStep_rejected b (exchangeWord_answeredBy_invalid 0 s), exchangeWord_answeredBy (a := handshakeAnswer 0 0) rfl hlink,
    endBlock_direct _ _ hdirect]

/-- A response word is to `XCHG16` as any other answer with its two bytes (R126). -/
theorem respond_as_xchg16 {r p : Byte} (b2 b3 : Byte) {s : State} (hw : s.wstate ≠ .running)
    (ht : s.parse ≠ .idle ∨ s.block ≠ none) (hlink : s.linkBound = true) :
    exec (.hsValid r p) s = exec .xchg16 (answeredBy ⟨true, r, p, b2, b3⟩ s) := by
  rw [exec_xchg16 (s := answeredBy _ s) hw]
  have hsame : exchangeWord (answeredBy (handshakeAnswer r p) s) = exchangeWord (answeredBy ⟨true, r, p, b2, b3⟩ s) := by
    rw [exchangeWord_answeredBy rfl hlink, exchangeWord_answeredBy rfl hlink]
    rfl
  show Host.Outcome.next (respond r p s) = _
  rw [respond_waiting r p hw ht hlink]
  exact congrArg Host.Outcome.next (handshake_congr rfl rfl hsame)

theorem toNat_ne_zero {p : Byte} (h : p ≠ 0) : p.toNat ≠ 0 := fun h0 => h (BitVec.eq_of_toNat_eq h0)

/-- `HS.VALID p` at the count step gives the count (R232). -/
theorem respond_valid_count {r p : Byte} {s : State} (hr : r ≠ 0) (hw : s.wstate ≠ .running) (hlink : s.linkBound = true)
    (hp : s.parse = .start) (hb : s.block = none) : respond r p s = nextField p.toNat 0 staged0 (heard s) := by
  have hwait : handshake (answeredBy (handshakeAnswer r p) s) = countStep (answeredBy (handshakeAnswer r p) s) := by
    simp only [handshake, answeredBy, outsideContract_block, outsideContract_parse, hb, hp]
  rw [respond_waiting r p hw (.inl (by simp [hp])) hlink, hwait]
  exact countStep_valid hlink (answeredBy_valid p 0 0 hr s)

/-- `HS.VALID p` before a field gives its length (R128, R233). -/
theorem respond_valid_length {r p : Byte} {s : State} {left i : Nat} {st : Staging} (hr : r ≠ 0) (hw : s.wstate ≠ .running)
    (hlink : s.linkBound = true) (hp : s.parse = .fields left i st) (hb : s.block = none) :
    respond r p s = moreData ⟨Config.rdlpScratch, p.toNat, []⟩ (heard s) := by
  have hwait : handshake (answeredBy (handshakeAnswer r p) s) =
      lengthStep Config.rdlpScratch (answeredBy (handshakeAnswer r p) s) := by
    simp only [handshake, answeredBy, outsideContract_block, outsideContract_parse, hb, hp]
  rw [respond_waiting r p hw (.inl (by simp [hp])) hlink, hwait]
  exact lengthStep_valid hlink (answeredBy_valid p 0 0 hr s) (Nat.le_of_lt_succ p.isLt)

/-- Settles O14: a response word is the handshake it answers, so the lemmas on one handshake say what it does. -/
theorem handshakeWords : Obligations.HandshakeWords := by
  refine ⟨fun s hw hp hb => ?request, fun s h => exec_hsReq_refused h, fun s hs hl => ?bringUp,
    fun max left got s hw hlink hp hb => ?block, fun r p s hr hw hlink =>
      ⟨fun hp hb hpos => ?count, fun left i st hp hb hpos => ?length, fun max left got hb hleft => ?data, fun ht b2 b3 => ?xchg16⟩,
    fun s h => ⟨?_, fun r p _ => ?_⟩⟩
  case request =>
    rw [exec_hsReq_free (by simp [hw, hp, hb])]
    exact ⟨fun hlink => by rw [if_pos hlink]; rfl, fun hlink => by rw [if_neg (by simp [hlink])]; rfl⟩
  case bringUp =>
    have hmark : (s.marked || linkAlive s) = s.marked := by simp [linkAlive, hl]
    show Host.Outcome.next (respond 0 0 s) = _
    rw [respond_invalid_bringUp hs hl, heard, outsideContract, hmark]
    rfl
  case block =>
    show Host.Outcome.next (respond 0 0 s) = _
    rw [respond_invalid_block hw hlink hp hb]
    rfl
  case count =>
    show Host.Outcome.next (respond r p s) = _
    rw [respond_valid_count hr hw hlink hp hb, nextField_left (toNat_ne_zero hpos), heldField, ← hb]
    rfl
  case length =>
    show Host.Outcome.next (respond r p s) = _
    rw [respond_valid_length hr hw hlink hp hb, moreData_left (toNat_ne_zero hpos)]
    rfl
  case data =>
    rw [respond_as_xchg16 0 0 hw (.inr (by simp [hb])) hlink,
      exec_xchg16_holds (s := answeredBy _ s) hw hlink hb (answeredBy_valid p 0 0 hr s) hleft]
    rfl
  case xchg16 => exact respond_as_xchg16 b2 b3 hw ht hlink
  · exact congrArg Host.Outcome.next (respond_refused 0 0 h)
  · exact congrArg Host.Outcome.next (respond_refused r p h)

end Sys2Proof.Machine
end

section
/-! `RDLP` on any peer: the whole block or a destination of zeros, within as many turns of `HOST`'s as its capacity (R100, R128, R308). -/

namespace Sys2Proof.Machine

/-! ### What a peer sends -/

/-- Either the peer's next `n` responses are valid, or they are so up to a first that is not. -/
theorem peerSends_or_stops (n : Nat) (s : State) :
    (∃ bs : List Byte, bs.length = n ∧ PeerSends s bs) ∨
      ∃ bs : List Byte, bs.length < n ∧ PeerSends s bs ∧ validAnswer (answerAt s bs.length) = false := by
  induction n with
  | zero => exact .inl ⟨[], rfl, fun _ _ h => nomatch h⟩
  | succ n ih =>
    rcases ih with ⟨bs, rfl, hs⟩ | ⟨bs, hlt, hs, hv⟩
    · cases hv : validAnswer (answerAt s bs.length) with
      | true =>
        have hlast : PeerSends (afterHandshakes bs.length s) [(answerAt s bs.length).b1] :=
          by
          refine (peerSends_cons _ _ _).2 ⟨?_, fun _ _ h => nomatch h⟩
          rw [answerAt_afterHandshakes]
          exact ⟨hv, rfl⟩
        exact .inl ⟨bs ++ [(answerAt s bs.length).b1], List.length_append, (peerSends_append _ _ _).2 ⟨hs, hlast⟩⟩
      | false => exact .inr ⟨bs, Nat.lt_succ_self _, hs, hv⟩
    · exact .inr ⟨bs, Nat.lt_succ_of_lt hlt, hs, hv⟩

/-- A valid length and as many valid data words are a block (R100). -/
theorem peerSends_block {s : State} {bs : List Byte} (hv : validAnswer (answerAt s 0) = true)
    (hlen : bs.length = (answerAt s 0).b1.toNat) (hs : PeerSends (afterHandshakes 1 s) bs) : PeerSends s (blockPayloads bs) := by
  refine (peerSends_cons _ _ _).2 ⟨⟨hv, ?_⟩, hs⟩
  rw [hlen, BitVec.ofNat_toNat, BitVec.setWidth_eq]

/-! ### A direct read that fails (R128, R308) -/

/-- `y` is `s` but for the link's bookkeeping, the block being read and the outcome. -/
def Reading (s y : State) : Prop :=
  y = { s with
    answers := y.answers, linkCount := y.linkCount, linkTx := y.linkTx, diagXferFaults := y.diagXferFaults,
    block := y.block, verdict := y.verdict, result := y.result }

theorem reading_heldRead (b : BlockRead) (n : Nat) (s : State) : Reading s (heldRead b (afterHandshakes n s)) := rfl

theorem Reading.onlyLink {s y x : State} (h : Reading s y) (hx : OnlyLink y x) : Reading s x := by
  unfold Reading
  rw [hx.eq, h]

theorem Reading.parse {s y : State} (h : Reading s y) : y.parse = s.parse := by rw [h]

/-- `RDLP` has ended from `s` in `t` with `ProtocolError` and a destination of `max` zeros (R128). -/
structure ReadFailed (max : Nat) (s t : State) : Prop where
  reading : Reading s t
  block : t.block = none
  verdict : t.verdict = .done .protocolError
  result : t.result = .block (List.replicate max 0) 0

theorem endBlock_readFailed (max : Nat) {s y : State} (h : Reading s y) (hp : s.parse = .idle) :
    ReadFailed max s (endBlock max none y) := by
  have hdirect : ∀ left i st, y.parse ≠ .fields left i st := by simp [h.parse, hp]
  rw [endBlock_direct max none hdirect]
  refine ⟨?_, rfl, rfl, rfl⟩
  rw [h]
  rfl

/-- As many data words of a block as the peer sends, `HOST`'s turns one after another; `k` words are still to come (R128). -/
theorem hostTurns_moreData_part (max k : Nat) (bs got : List Byte) (n : Nat) {s : State} (hw : s.wstate = .idle)
    (hlink : s.linkBound = true) (hs : PeerSends (afterHandshakes n s) bs) :
    hostTurns bs.length (moreData ⟨max, k + bs.length, got⟩ (afterHandshakes n s)) =
      .next (moreData ⟨max, k, got ++ bs⟩ (afterHandshakes (n + bs.length) s)) := by
  induction bs generalizing got n with
  | nil =>
    rw [List.append_nil]
    rfl
  | cons v vs ih =>
    obtain ⟨⟨hv, hpayload⟩, hrest⟩ := (peerSends_cons _ _ _).1 hs
    rw [afterHandshakes_add] at hrest
    have hturn : hostStep (heldRead ⟨max, k + vs.length + 1, got⟩ (afterHandshakes n s)) =
        .next (moreData ⟨max, k + vs.length, got ++ [v]⟩ (afterHandshakes (n + 1) s)) := by
      rw [hostStep_heldRead _ (s := afterHandshakes n s) hw hlink hv, afterHandshakes_add, hpayload]
      rfl
    rw [List.length_cons, ← Nat.add_assoc, moreData_left (Nat.succ_ne_zero _), hostTurns, hturn]
    have hvs := ih (got ++ [v]) (n + 1) hrest
    rwa [List.append_assoc, List.singleton_append, Nat.add_assoc, Nat.add_comm 1] at hvs

/-- `HOST`'s turn in a held block read, on a response that is not valid (R128, R129). -/
theorem hostStep_heldRead_fails (b : BlockRead) {s : State} (hw : s.wstate = .idle) (hv : validAnswer (answerAt s 0) = false) :
    hostStep (heldRead b s) = .next (endBlock b.max none (exchangeWord (heldRead b s)).after) := by
  rw [hostStep_dataStep (heldRead b s) b hw rfl, dataStep_rejected b (exchangeWord_invalid (heldRead b s) hv)]

/-- The first data word that is not valid ends the read (R128, R129). -/
theorem hostTurns_moreData_fails (max k : Nat) (bs : List Byte) (n : Nat) {s : State} (hw : s.wstate = .idle)
    (hlink : s.linkBound = true) (hp : s.parse = .idle) (hs : PeerSends (afterHandshakes n s) bs)
    (hv : validAnswer (answerAt (afterHandshakes n s) bs.length) = false) :
    ∃ t, hostTurns (bs.length + 1) (moreData ⟨max, k + 1 + bs.length, []⟩ (afterHandshakes n s)) = .next t ∧
      ReadFailed max s t := by
  rw [answerAt_afterHandshakes] at hv
  have hstop : validAnswer (answerAt (afterHandshakes (n + bs.length) s) 0) = false := by
    rw [answerAt_afterHandshakes]
    exact hv
  have hreading := (reading_heldRead ⟨max, k + 1, bs⟩ (n + bs.length) s).onlyLink (exchangeWord_onlyLink _)
  refine ⟨_, ?_, endBlock_readFailed max hreading hp⟩
  rw [hostTurns_add, hostTurns_moreData_part max (k + 1) bs [] n hw hlink hs, List.nil_append, moreData_left (Nat.succ_ne_zero k)]
  simp only [hostTurns, hostStep_heldRead_fails ⟨max, k + 1, bs⟩ (s := afterHandshakes (n + bs.length) s) hw hstop]

/-- From its first handshake on, a direct read fails within as many turns as its capacity, or the peer sends a block that fits. -/
theorem lengthStep_fails_or_block (max : Nat) {s : State} (hw : s.wstate = .idle) (hp : s.parse = .idle) :
    (∃ n t, n ≤ max ∧ hostTurns n (lengthStep max s) = .next t ∧ ReadFailed max s t) ∨
      ∃ bs : List Byte, s.linkBound = true ∧ PeerSends s (blockPayloads bs) ∧ bs.length = (answerAt s 0).b1.toNat ∧
        bs.length ≤ max := by
  by_cases hfirst : s.linkBound = true ∧ validAnswer (answerAt s 0) = true ∧ (answerAt s 0).b1.toNat ≤ max
  · obtain ⟨hlink, hv, hmax⟩ := hfirst
    rcases peerSends_or_stops (answerAt s 0).b1.toNat (afterHandshakes 1 s) with ⟨bs, hlen, hs⟩ | ⟨bs, hlt, hs, hstop⟩
    · exact .inr ⟨bs, hlink, peerSends_block hv hlen hs, hlen, hlen ▸ hmax⟩
    · obtain ⟨k, hk⟩ := Nat.exists_eq_add_of_lt hlt
      obtain ⟨t, ht, hfailed⟩ := hostTurns_moreData_fails max k bs 1 hw hlink hp hs hstop
      have hleft : k + 1 + bs.length = (answerAt s 0).b1.toNat := by omega
      rw [hleft, ← lengthStep_valid hlink hv hmax] at ht
      exact .inl ⟨bs.length + 1, t, by omega, ht, hfailed⟩
  · have hreading : Reading s (exchangeWord s).after := (show Reading s s from rfl).onlyLink (exchangeWord_onlyLink s)
    exact .inl ⟨0, _, Nat.zero_le _, by rw [lengthStep_rejected hfirst]; rfl, endBlock_readFailed max hreading hp⟩

/-- Settles O19: a read that does not fail is one of a block that the peer sends whole. -/
theorem blockReadIsWholeOrZero : Obligations.BlockReadIsWholeOrZero := by
  intro max s hw hp hb
  rcases lengthStep_fails_or_block max.toNat (s := outsideContract s) hw hp with
    ⟨n, t, hn, ht, hfailed⟩ | ⟨bs, hlink, hs, hlen, hmax⟩
  · have hrun : runSequence (.rdlp max) n s = .next t := by
      rw [runSequence, exec_rdlp_direct max (by simp [hw]) hb hp]
      exact ht
    have hframe : t = { outsideContract s with
        answers := t.answers, linkCount := t.linkCount, linkTx := t.linkTx, diagXferFaults := t.diagXferFaults, block := s.block,
        verdict := t.verdict, result := t.result } := by
      rw [hb, ← hfailed.block]
      exact hfailed.reading
    exact ⟨n, t, hn, hrun, hframe, .inr ⟨hfailed.verdict, hfailed.result⟩⟩
  · exact ⟨bs.length, _, hmax, runSequence_rdlp hw hp hb hlink hmax hs, rfl, .inl ⟨rfl, bs, hs, hlen, hmax, rfl, rfl, rfl⟩⟩

end Sys2Proof.Machine
end

section
/-! A whole `ID_XACT` (R101, R231 to R242): the count, one block for each field, and the publication. -/

namespace Sys2Proof.Machine

/-! ### The renderings (R234, R235, R237, R238) -/

/-- The lowercase hexadecimal digits as ASCII bytes (R235, log entry 22). -/
def asciiDigits : List Byte := [0x30, 0x31, 0x32, 0x33, 0x34, 0x35, 0x36, 0x37, 0x38, 0x39, 0x61, 0x62, 0x63, 0x64, 0x65, 0x66]

theorem hexDigit_eq : ∀ n < 16, hexDigit n = asciiDigits.getD n 0 := by decide

theorem hexByte_eq (b : Byte) : hexByte b = [asciiDigits.getD (b.toNat / 16) 0, asciiDigits.getD (b.toNat % 16) 0] := by
  have := b.isLt
  rw [hexByte, hexDigit_eq _ (by omega), hexDigit_eq _ (by omega)]

theorem hexShort_eq (b : Byte) : hexShort b =
    if b.toNat < 16 then [asciiDigits.getD b.toNat 0]
    else [asciiDigits.getD (b.toNat / 16) 0, asciiDigits.getD (b.toNat % 16) 0] := by
  unfold hexShort
  split
  · rw [hexDigit_eq _ ‹_›]
  · exact hexByte_eq b

/-! ### The fields, one after another (R231, R233) -/

/-- Take a run of fields into the staging, the first of index `i`, or nothing where one violates its rule (R234 to R239). -/
def stageFields : Nat → List (List Byte) → Staging → Option Staging
  | _, [], st => some st
  | i, f :: fs, st => (stageField i f st).bind (stageFields (i + 1) fs)

/-- The handshakes of a run of blocks (R101): one for each length and one for each byte. -/
def blockExchanges (fields : List (List Byte)) : Nat := fields.length + (fields.map List.length).sum

theorem blockExchanges_cons (f : List Byte) (fs : List (List Byte)) :
    blockExchanges (f :: fs) = (f.length + 1) + blockExchanges fs := by
  simp only [blockExchanges, List.length_cons, List.map_cons, List.sum_cons]
  omega

theorem identityExchanges_eq (fields : List (List Byte)) : identityExchanges fields = 1 + blockExchanges fields := Nat.add_assoc _ _ _

/-- The end of a bring-up overwrites the field and the outcome that stand in the state. -/
theorem finishBringUp_heldField (left i : Nat) (st st' : Staging) (s : State) :
    finishBringUp st' (heldField left i st s) = finishBringUp st' s := by
  show (kick ((createLink (publish st' s)).reply .held .none)).succeed = _
  rw [kick_reply]
  rfl

/-- Where `ID_PARSE` goes on does not depend on the field it was at before. -/
theorem nextField_heldField (left' i' left i : Nat) (st' st : Staging) (s : State) :
    nextField left' i' st' (heldField left i st s) = nextField left' i' st' s := by
  cases left' with
  | zero => exact finishBringUp_heldField left i st st' s
  | succ n => rfl

/-- A field that the peer sends whole and that fits is staged: the handshake of its length, and one for each byte (R231, R233). -/
theorem hostTurns_heldField {left i : Nat} {st st' : Staging} {f : List Byte} {s : State} (hw : s.wstate = .idle)
    (hlink : s.linkBound = true) (hlen : f.length ≤ 255) (hst : stageField i f st = some st') (hs : PeerSends s (blockPayloads f)) :
    hostTurns (f.length + 1) (heldField (left + 1) i st s) = .next (nextField left (i + 1) st' (afterHandshakes (1 + f.length) s)) := by
  have hturn : hostStep (heldField (left + 1) i st s) = .next (lengthStep Config.rdlpScratch (heldField (left + 1) i st s)) :=
    hostStep_lengthStep _ (left + 1) i st hw rfl rfl
  have hread := hostTurns_lengthStep (s := heldField (left + 1) i st s) hw hlink (Nat.lt_succ_of_le hlen) hlen hs
  have htaken := endBlock_field_taken Config.rdlpScratch (got := some f)
    (s := heldField (left + 1) i st (afterHandshakes (1 + f.length) s)) rfl hst
  rw [nextField_heldField] at htaken
  rw [hostTurns, hturn]
  exact hread.trans (congrArg Host.Outcome.next htaken)

/-- All fields of an `ID_XACT` that the peer sends whole, from where the first `n` handshakes have led (R231). -/
theorem hostTurns_nextField (fields : List (List Byte)) (i n : Nat) {st st' : Staging} {s : State} (hw : s.wstate = .idle)
    (hlink : s.linkBound = true) (hlen : ∀ f ∈ fields, f.length ≤ 255) (hst : stageFields i fields st = some st')
    (hs : PeerSends (afterHandshakes n s) (fields.flatMap blockPayloads)) :
    hostTurns (blockExchanges fields) (nextField fields.length i st (afterHandshakes n s)) =
      .next (finishBringUp st' (afterHandshakes (n + blockExchanges fields) s)) := by
  induction fields generalizing i n st with
  | nil =>
    cases hst
    rfl
  | cons f fs ih =>
    obtain ⟨st1, hst1, hrest⟩ := Option.bind_eq_some_iff.1 hst
    obtain ⟨hfirst, hothers⟩ := (peerSends_append _ _ _).1 hs
    rw [afterHandshakes_add] at hothers
    have hcount : n + (1 + f.length) = n + (blockPayloads f).length := by rw [Nat.add_comm 1]; rfl
    have hfield := hostTurns_heldField (left := fs.length) (s := afterHandshakes n s) hw hlink (hlen f List.mem_cons_self) hst1 hfirst
    rw [afterHandshakes_add, hcount] at hfield
    rw [blockExchanges_cons, hostTurns_add, List.length_cons, nextField_left (Nat.succ_ne_zero _), hfield]
    have hfs := ih (i + 1) _ (fun g hg => hlen g (List.mem_cons_of_mem f hg)) hrest hothers
    rwa [Nat.add_assoc] at hfs

/-! ### What the fields stage (R234 to R241) -/

/-- Fields from index 4 on are discarded (R239). -/
theorem stageFields_discarded (i : Nat) (fields : List (List Byte)) (st : Staging) : stageFields (i + 4) fields st = some st := by
  induction fields generalizing i with
  | nil => rfl
  | cons f fs ih =>
    rw [stageFields, stageField_other]
    exact ih (i + 1)

theorem stageFields_cons {i : Nat} {f : List Byte} {st st' : Staging} (h : stageField i f st = some st') (fs : List (List Byte)) :
    stageFields i (f :: fs) st = stageFields (i + 1) fs st' := by
  rw [stageFields, h, Option.bind_some]

/-- What the fields of an `ID_XACT` stage: each of the four that occurs by its rendering, the others at their defaults. -/
def renderedFields (fields : List (List Byte)) : Staging :=
  ⟨firmwareOf fields[0]?, (fields[1]?).getD [], hexString ((fields[2]?).getD []), hardwareOf fields[3]?⟩

/-- Fields that keep their length rules are staged, all of them (R231 to R241). -/
theorem stageFields_of_fit {fields : List (List Byte)} (h : fieldsFit fields = true) :
    stageFields 0 fields staged0 = some (renderedFields fields) := by
  have taken0 {f : List Byte} (hf : f.length = 2) (st : Staging) := (stageField_zero f st).trans (if_pos hf)
  have taken1 {f : List Byte} (hf : f.length ≤ 10) (st : Staging) := (stageField_one f st).trans (if_pos hf)
  have taken2 {f : List Byte} (hf : f.length ≤ 12) (st : Staging) := (stageField_two f st).trans (if_pos hf)
  have taken3 {f : List Byte} (hf : f.length = 2) (st : Staging) := (stageField_three f st).trans (if_pos hf)
  match fields with
  | [] => rfl
  | [f0] =>
    have h0 : f0.length = 2 := by simpa [fieldsFit] using h
    exact stageFields_cons (taken0 h0 _) _
  | [f0, f1] =>
    obtain ⟨h0, h1⟩ : f0.length = 2 ∧ f1.length ≤ 10 := by simpa [fieldsFit] using h
    exact (stageFields_cons (taken0 h0 _) _).trans (stageFields_cons (taken1 h1 _) _)
  | [f0, f1, f2] =>
    obtain ⟨⟨h0, h1⟩, h2⟩ : (f0.length = 2 ∧ f1.length ≤ 10) ∧ f2.length ≤ 12 := by simpa [fieldsFit] using h
    exact (stageFields_cons (taken0 h0 _) _).trans <| (stageFields_cons (taken1 h1 _) _).trans (stageFields_cons (taken2 h2 _) _)
  | f0 :: f1 :: f2 :: f3 :: fs =>
    obtain ⟨⟨⟨h0, h1⟩, h2⟩, h3⟩ : ((f0.length = 2 ∧ f1.length ≤ 10) ∧ f2.length ≤ 12) ∧ f3.length = 2 := by
      simpa [fieldsFit] using h
    exact (stageFields_cons (taken0 h0 _) _).trans <| (stageFields_cons (taken1 h1 _) _).trans <|
      (stageFields_cons (taken2 h2 _) _).trans <| (stageFields_cons (taken3 h3 _) _).trans (stageFields_discarded 0 fs _)

/-! ### The obligation -/

/-- `ID_PARSE` where `LINK_UP` calls it, on a valid count (R231, R232). -/
theorem exec_idParse_valid {s : State} (hlink : s.linkBound = true) (hp : s.parse = .start) (hv : validAnswer (answerAt s 0) = true) :
    exec .idParse s = .next (nextField (answerAt s 0).b1.toNat 0 staged0 (afterHandshakes 1 s)) := by
  show execIdParse s = _
  rw [execIdParse, if_pos hp, countStep_valid hlink hv]

/-- A whole `ID_XACT` whose fields fit ends the bring-up in success, after exactly its handshakes (R101, R231). -/
theorem runSequence_idParse {fields : List (List Byte)} {s : State} (hw : s.wstate = .idle) (hlink : s.linkBound = true)
    (hp : s.parse = .start) (hframe : fieldsFrame fields) (hfit : fieldsFit fields = true)
    (hs : PeerSends s (identityPayloads fields)) :
    runSequence .idParse (identityExchanges fields - 1) s =
      .next (finishBringUp (renderedFields fields) (afterHandshakes (identityExchanges fields) s)) := by
  obtain ⟨hcount, hlen⟩ := hframe
  obtain ⟨⟨hv, hn⟩, hblocks⟩ := (peerSends_cons _ _ _).1 hs
  have hnum : (answerAt s 0).b1.toNat = fields.length := by
    rw [hn, BitVec.toNat_ofNat]
    exact Nat.mod_eq_of_lt (Nat.lt_succ_of_le hcount)
  rw [runSequence, exec_idParse_valid hlink hp hv, hnum, identityExchanges_eq, Nat.add_sub_cancel_left]
  exact hostTurns_nextField fields 0 1 hw hlink hlen (stageFields_of_fit hfit) hblocks

/-- Settles O20: the count step, the renderings digit by digit, and by induction on the fields the whole transcript. -/
theorem identityPublishedFromTranscript : Obligations.IdentityPublishedFromTranscript := by
  refine ⟨fun s hs hp hv hpos => ?count, fun b0 b1 => ?renderings, fun fields s hs hp hframe hfit hsends => ?transcript⟩
  case count =>
    have hlink : s.linkBound = true := hs.parsing_bound (hs.bringup_of_parse (by simp [hp]))
    have hb : s.block = none := hs.count_first hp
    rw [exec_idParse_valid hlink hp hv, nextField_left (by omega), heldField, ← hb, afterHandshakes_one]
    rfl
  case renderings =>
    refine ⟨?_, rfl, ?_, rfl, rfl, fun bs => ?_⟩
    · rw [firmwareOf, fmtFw, hexShort_eq, hexByte_eq, List.append_assoc]
      rfl
    · rw [hardwareOf, fmtHw, hexShort_eq, hexShort_eq, List.append_assoc]
      rfl
    · rw [hexString, List.flatMap_cons, hexByte_eq]
      rfl
  case transcript =>
    have hl : s.lstate = .bringup := hs.bringup_of_parse (by simp [hp])
    have hrun := runSequence_idParse (hs.worker_idle (.inr hl)) (hs.parsing_bound hl) hp hframe hfit hsends
    rw [finishBringUp_eq] at hrun
    exact ⟨_, hrun, rfl, rfl, rfl, rfl, rfl, rfl, rfl, rfl, rfl, rfl⟩

end Sys2Proof.Machine
end

section
/-! The frame exchange engine's functions called directly: `XCHG` and `XCHG16` by what the exchange answers (R122 to R126), and `RDLP`
where a handshake is bad, with the one state a failed read ends in (R128, R129, R310). -/

namespace Sys2Proof.Machine

/-! ### What an exchange answers (R121 to R124) -/

theorem exchange_unbound {α : Type} (out : List Byte) (read : Config.LinkAnswer → α) (zero : α) {s : State}
    (hlink : s.linkBound = false) : exchange out read zero s = ⟨.linkFault, zero, countFault s⟩ :=
  if_neg (by simp [hlink])

theorem exchange_failed {α : Type} (out : List Byte) (read : Config.LinkAnswer → α) (zero : α) {s : State}
    (hlink : s.linkBound = true) (hok : (answerAt s 0).ok = false) :
    exchange out read zero s = ⟨.transferFault, zero, countFault (afterLink out s)⟩ := by
  rw [answerAt_zero] at hok
  rw [exchange, if_pos hlink, if_neg (by simp [hok])]

theorem exchange_answered {α : Type} (out : List Byte) (read : Config.LinkAnswer → α) (zero : α) {s : State}
    (hlink : s.linkBound = true) (hok : (answerAt s 0).ok = true) :
    exchange out read zero s = ⟨.ok, read (answerAt s 0), afterLink out s⟩ := by
  rw [answerAt_zero] at *
  rw [exchange, if_pos hlink, if_pos hok]

/-! ### `XCHG` and `XCHG16` as calls of their own (R72, R120, R122, R126) -/

theorem exec_xchg_refused (tx : Frame) {s : State} (h : s.wstate = .running ∨ s.parse ≠ .idle ∨ s.block ≠ none) :
    exec (.xchg tx) s = .next (turnedAway s) :=
  congrArg Host.Outcome.next (if_pos ((linkInUse_iff s).2 h))

/-- Where the link has no user `XCHG` is one exchange, and its status and inbound frame are the caller's (R122). -/
theorem exec_xchg_free (tx : Frame) {s : State} (h : ¬(s.wstate = .running ∨ s.parse ≠ .idle ∨ s.block ≠ none)) :
    exec (.xchg tx) s = .next ((outsideContract (exchangeFrame tx s).after).reply (.done (exchangeFrame tx s).status)
      (.frame (exchangeFrame tx s).rx)) :=
  congrArg Host.Outcome.next (if_neg (mt (linkInUse_iff s).1 h))

theorem exec_xchg16_refused {s : State} (hw : s.wstate = .running) : exec .xchg16 s = .next (turnedAway s) :=
  congrArg Host.Outcome.next (if_pos ((workerRuns_iff s).2 hw))

/-- Where the link has no user `XCHG16` is a handshake of no sequence (R126). -/
theorem exec_xchg16_single {s : State} (hw : s.wstate ≠ .running) (hp : s.parse = .idle) (hb : s.block = none) :
    exec .xchg16 s = .next (singleHandshake s) := by
  simp only [exec_xchg16 hw, handshake, hb, hp]

/-- In step 4 of a bring-up `XCHG16` is the count step, as `ID_PARSE` is (R231, R232). -/
theorem exec_xchg16_start {s : State} (hw : s.wstate ≠ .running) (hb : s.block = none) (hp : s.parse = .start) :
    exec .xchg16 s = exec .idParse s := by
  have hparse : exec .idParse s = .next (countStep s) := congrArg Host.Outcome.next (if_pos hp)
  simp only [exec_xchg16 hw, handshake, hb, hp, hparse]

/-- Between two fields of a bring-up `XCHG16` is the length of the next, as `RDLP` with the capacity of R233 is. -/
theorem exec_xchg16_field {s : State} {left i : Nat} {st : Staging} (hw : s.wstate ≠ .running) (hb : s.block = none)
    (hp : s.parse = .fields left i st) : exec .xchg16 s = exec (.rdlp 0xFF) s := by
  simp only [exec_xchg16 hw, handshake, hb, hp, exec_rdlp_field hw hb hp]

/-! ### `RDLP` at a bad handshake (R128, R129, R310) -/

/-- Beside a running worker or another block read, and before the count step, `RDLP` is refused (R72, R120). -/
theorem exec_rdlp_busy (max : Byte) {s : State} (h : s.wstate = .running ∨ s.block ≠ none ∨ s.parse = .start) :
    exec (.rdlp max) s = .next (turnedAway s) := by
  show execRdlp max s = _
  by_cases hbusy : (workerRuns s || s.block.isSome) = true
  · exact congrArg Host.Outcome.next (if_pos hbusy)
  · have hfree : s.wstate ≠ .running ∧ s.block = none := by simpa [workerRuns] using hbusy
    have hstart : s.parse = .start := (h.resolve_left hfree.1).resolve_left (not_not.2 hfree.2)
    rw [execRdlp, if_neg hbusy, hstart]
    rfl

/-- The one state a direct read that fails ends in: `y` gives the link's bookkeeping, the destination is all zeros (R128). -/
theorem endBlock_readFailed_eq (max : Nat) {s y : State} (h : Reading s y) (hp : s.parse = .idle) (hb : s.block = none) :
    endBlock max none y = { s with
      answers := y.answers, linkCount := y.linkCount, linkTx := y.linkTx, diagXferFaults := y.diagXferFaults,
      verdict := .done .protocolError, result := .block (List.replicate max 0) 0 } := by
  have hdirect : ∀ left i st, y.parse ≠ .fields left i st := by simp [h.parse, hp]
  rw [endBlock_direct max none hdirect, ← hb, h]
  rfl

/-- A direct `RDLP` ends at its first handshake unless the length is valid and within the capacity (R128, R310). -/
theorem exec_rdlp_rejected {max : Byte} {s : State} (hw : s.wstate = .idle) (hp : s.parse = .idle) (hb : s.block = none)
    (h : ¬(s.linkBound = true ∧ validAnswer (answerAt s 0) = true ∧ (answerAt s 0).b1.toNat ≤ max.toNat)) :
    exec (.rdlp max) s = .next (endBlock max.toNat none (exchangeWord (outsideContract s)).after) := by
  rw [exec_rdlp_direct max (by simp [hw]) hb hp]
  exact congrArg Host.Outcome.next (lengthStep_rejected (s := outsideContract s) h)

theorem reading_exchangeWord {s y : State} (h : Reading s y) : Reading s (exchangeWord y).after := h.onlyLink (exchangeWord_onlyLink y)

/-- With no link bound no handshake crosses, and the fault is counted (R123). -/
theorem exec_rdlp_unbound {max : Byte} {s : State} (hw : s.wstate = .idle) (hp : s.parse = .idle) (hb : s.block = none)
    (hlink : s.linkBound = false) : exec (.rdlp max) s = .next { s with
      diagXferFaults := s.diagXferFaults + 1, marked := s.marked || linkAlive s,
      verdict := .done .protocolError, result := .block (List.replicate max.toNat 0) 0 } := by
  have hread : Reading (outsideContract s) (exchangeWord (outsideContract s)).after := reading_exchangeWord rfl
  have hafter : (exchangeWord (outsideContract s)).after = countFault (outsideContract s) :=
    congrArg Exchanged.after (exchange_unbound _ _ _ (s := outsideContract s) hlink)
  rw [exec_rdlp_rejected hw hp hb (by simp [hlink]), endBlock_readFailed_eq max.toNat hread hp hb, hafter]
  rfl

/-- A first handshake that fails or is not ready, and a length past the capacity, end `RDLP` after that one exchange (R128, R310). -/
theorem exec_rdlp_badLength {max : Byte} {s : State} (hw : s.wstate = .idle) (hp : s.parse = .idle) (hb : s.block = none)
    (hlink : s.linkBound = true) (hbad : validAnswer (answerAt s 0) = false ∨ max.toNat < (answerAt s 0).b1.toNat) :
    exec (.rdlp max) s = .next { s with
      answers := s.answers.tail, linkCount := s.linkCount + 1, linkTx := [0x00, 0x00],
      diagXferFaults := s.diagXferFaults + (if (answerAt s 0).ok then 0 else 1), marked := s.marked || linkAlive s,
      verdict := .done .protocolError, result := .block (List.replicate max.toNat 0) 0 } := by
  have hread : Reading (outsideContract s) (exchangeWord (outsideContract s)).after := reading_exchangeWord rfl
  have hrejected : ¬(s.linkBound = true ∧ validAnswer (answerAt s 0) = true ∧ (answerAt s 0).b1.toNat ≤ max.toNat) := by
    rintro ⟨_, hv, hmax⟩
    rcases hbad with hinvalid | hlong
    · exact nomatch hinvalid.symm.trans hv
    · omega
  rw [exec_rdlp_rejected hw hp hb hrejected, endBlock_readFailed_eq max.toNat hread hp hb,
    exchangeWord_after (outsideContract s) hlink, answerAt_zero]
  rfl

/-- The exchange of a data word after `n` good handshakes, whatever it answers: one answer more is used, and a failure is counted. -/
theorem exchangeWord_heldRead (b : BlockRead) (n : Nat) {s : State} (hlink : s.linkBound = true) :
    (exchangeWord (heldRead b (afterHandshakes n s))).after = { heldRead b (afterHandshakes (n + 1) s) with
      diagXferFaults := s.diagXferFaults + (if (answerAt s n).ok then 0 else 1) } := by
  have hanswer : linkAnswerOf (heldRead b (afterHandshakes n s)) = answerAt s n := by
    rw [← answerAt_zero]
    exact answerAt_afterHandshakes n 0 s
  have hused : (heldRead b (afterHandshakes n s)).answers.tail = s.answers.drop (n + 1) := List.tail_drop
  rw [exchangeWord_after (heldRead b (afterHandshakes n s)) hlink, hanswer, hused]
  rfl

/-- After a good length and the data words `bs`, `HOST`'s turn at the first bad data word ends the read (R128, R129). -/
theorem hostTurns_lengthStep_fails {max : Nat} {len : Byte} {bs : List Byte} {s : State} (hw : s.wstate = .idle)
    (hlink : s.linkBound = true) (hmax : len.toNat ≤ max) (hlt : bs.length < len.toNat) (hs : PeerSends s (len :: bs))
    (hv : validAnswer (answerAt s (bs.length + 1)) = false) :
    hostTurns (bs.length + 1) (lengthStep max s) = .next (endBlock max none
      (exchangeWord (heldRead ⟨max, len.toNat - bs.length, bs⟩ (afterHandshakes (bs.length + 1) s))).after) := by
  obtain ⟨⟨hfirst, rfl⟩, hdata⟩ := (peerSends_cons _ _ _).1 hs
  have hleft : (answerAt s 0).b1.toNat - bs.length + bs.length = (answerAt s 0).b1.toNat := by omega
  have hmore : (answerAt s 0).b1.toNat - bs.length ≠ 0 := by omega
  have hstop : validAnswer (answerAt (afterHandshakes (bs.length + 1) s) 0) = false := by
    rw [answerAt_afterHandshakes]
    exact hv
  have hturns := hostTurns_moreData_part max ((answerAt s 0).b1.toNat - bs.length) bs [] 1 hw hlink hdata
  rw [hleft, ← lengthStep_valid hlink hfirst hmax, List.nil_append, moreData_left hmore, Nat.add_comm 1] at hturns
  rw [hostTurns_add, hturns]
  simp only [hostTurns, hostStep_heldRead_fails _ (s := afterHandshakes (bs.length + 1) s) hw hstop]

/-- A direct read at its first bad data word: one exchange for the length, one for each good data word, and the bad one (R128, R129). -/
theorem runSequence_rdlp_badData {max len : Byte} {bs : List Byte} {s : State} (hw : s.wstate = .idle) (hp : s.parse = .idle)
    (hb : s.block = none) (hlink : s.linkBound = true) (hmax : len.toNat ≤ max.toNat) (hlt : bs.length < len.toNat)
    (hs : PeerSends s (len :: bs)) (hv : validAnswer (answerAt s (bs.length + 1)) = false) :
    runSequence (.rdlp max) (bs.length + 1) s = .next { s with
      answers := s.answers.drop (bs.length + 2), linkCount := s.linkCount + (bs.length + 2), linkTx := [0x00, 0x00],
      diagXferFaults := s.diagXferFaults + (if (answerAt s (bs.length + 1)).ok then 0 else 1),
      marked := s.marked || linkAlive s,
      verdict := .done .protocolError, result := .block (List.replicate max.toNat 0) 0 } := by
  have hread (b : BlockRead) := reading_exchangeWord (reading_heldRead b (bs.length + 1) (outsideContract s))
  rw [runSequence, exec_rdlp_direct max (by simp [hw]) hb hp]
  show hostTurns (bs.length + 1) (lengthStep max.toNat (outsideContract s)) = _
  rw [hostTurns_lengthStep_fails (s := outsideContract s) hw hlink hmax hlt hs hv,
    endBlock_readFailed_eq max.toNat (hread _) hp hb, exchangeWord_heldRead _ _ (s := outsideContract s) hlink]
  rfl

/-! ### The obligations -/

/-- Settles O18: the first handshake is bad, or the length is good and a data word is the first bad one; the refusals are those of
`RDLP` beside another user of the link. -/
theorem blockReadFailsAtTheFirstBadWord : Obligations.BlockReadFailsAtTheFirstBadWord :=
  fun max s => ⟨fun hw hp hb => ⟨exec_rdlp_unbound hw hp hb, exec_rdlp_badLength hw hp hb,
    fun len bs hlink hmax hlt hs hv => runSequence_rdlp_badData hw hp hb hlink hmax hlt hs hv⟩,
    exec_rdlp_busy max, fun left i st hp hmax => exec_rdlp_refused (by simp [hp]) hmax⟩

/-- Settles O15: beside no other user of the link, by the three answers of an exchange. -/
theorem frameExchangeOutcomes : Obligations.FrameExchangeOutcomes := by
  refine fun tx s => ⟨fun hw hp hb => ?free, exec_xchg_refused tx⟩
  rw [exec_xchg_free tx (by simp [hw, hp, hb]), exchangeFrame]
  refine ⟨fun hlink => ?unbound, fun hlink hok => ?failed, fun hlink hok => ?answered⟩
  case unbound => rw [exchange_unbound _ _ _ hlink]; rfl
  case failed => rw [exchange_failed _ _ _ hlink hok]; rfl
  case answered => rw [exchange_answered _ _ _ hlink hok]; rfl

/-- Settles O16: a handshake of no sequence by the three answers of an exchange, one of a bring-up by the operation it stands for. -/
theorem handshakeExchangeOutcomes : Obligations.HandshakeExchangeOutcomes := by
  refine fun s => ⟨fun hw hp hb => ?single, fun hw hb => ⟨exec_xchg16_start hw hb, fun left i st => exec_xchg16_field hw hb⟩,
    exec_xchg16_refused⟩
  rw [exec_xchg16_single hw hp hb, singleHandshake, exchangeWord]
  refine ⟨fun hlink => ?unbound, fun hlink hok => ?failed, fun hlink hok => ?answered⟩
  case unbound => rw [exchange_unbound _ _ _ hlink]; rfl
  case failed => rw [exchange_failed _ _ _ hlink hok]; rfl
  case answered => rw [exchange_answered _ _ _ hlink hok]; rfl

end Sys2Proof.Machine
end

section
/-! The scheduler: the request latch, and a worker micro-step by whether `wstate` and `phase` enable it (R140 to R155). -/

namespace Sys2Proof.Machine

/-! ### A micro-step in its phase, and out of it (R24, R140) -/

theorem next_enabled {p : Phase} {s : State} (hw : s.wstate = .running) (hp : s.phase = p) (t : State) :
    (.next (if enabledAt p s then t else s.refuse) : Out) = .next t :=
  congrArg Host.Outcome.next (if_pos ((enabledAt_iff p s).2 ⟨hw, hp⟩))

theorem next_not_enabled {p : Phase} {s : State} (h : ¬(s.wstate = .running ∧ s.phase = p)) (t : State) :
    (.next (if enabledAt p s then t else s.refuse) : Out) = .next (turnedAway s) :=
  congrArg Host.Outcome.next (if_neg (mt (enabledAt_iff p s).1 h))

/-- The phase that names a micro-step is its guard. -/
theorem exec_microStep_refused {i : Instr} {p : Phase} {s : State} (hi : microPhase i = some p)
    (h : ¬(s.wstate = .running ∧ s.phase = p)) : exec i s = .next (turnedAway s) := by
  cases i with
  | itRefill | composeSlot _ | itXchg | itDecay | deliverSlot _ | itCont | cycFlush => cases hi; exact next_not_enabled h _
  | _ => cases hi

/-! ### `REQ_CYCLE`, `CYC_START` and `CYC_FLUSH` (R141, R143, R155) -/

theorem requestCycle_of_not {s : State} (h : ¬(s.lstate = .up ∧ s.wstate = .idle)) : requestCycle s = s := if_neg h

theorem exec_reqCycle_takes {s : State} (hl : s.lstate = .up) (hw : s.wstate = .idle) :
    exec .reqCycle s = .next { s with wstate := .pending, verdict := .done .ok, result := .none } := by
  show Host.Outcome.next (requestCycle s).succeed = _
  rw [requestCycle_up s hl, hw]
  rfl

theorem exec_reqCycle_ignored {s : State} (h : s.lstate ≠ .up ∨ s.wstate ≠ .idle) :
    exec .reqCycle s = .next { s with verdict := .done .ok, result := .none } := by
  show Host.Outcome.next (requestCycle s).succeed = _
  rw [requestCycle_of_not (not_and_or.2 h)]
  rfl

theorem exec_cycStart_pending {s : State} (h : s.wstate = .pending) : exec .cycStart s = .next { s with
    wstate := .running, phase := .refill, verdict := .done .ok, result := .none } :=
  congrArg Host.Outcome.next (if_pos h)

theorem exec_cycStart_refused {s : State} (h : s.wstate ≠ .pending) : exec .cycStart s = .next (turnedAway s) :=
  congrArg Host.Outcome.next (if_neg h)

/-- The final ready event is given exactly if bytes wait and a callback is registered (R155). -/
theorem flushEvent_eq (s : State) : (if !iqEmpty s && s.readyCb then pulseReady s else s) =
    { s with icReady := s.icReady + (if s.iq.count ≠ 0 ∧ s.readyCb = true then 1 else 0) } := by
  have hevent : (!iqEmpty s && s.readyCb) = true ↔ s.iq.count ≠ 0 ∧ s.readyCb = true := by simp [iqEmpty]
  by_cases h : s.iq.count ≠ 0 ∧ s.readyCb = true
  · rw [if_pos (hevent.2 h), if_pos h]; rfl
  · rw [if_neg (mt hevent.1 h), if_neg h]; rfl

theorem exec_cycFlush_enabled {s : State} (hw : s.wstate = .running) (hp : s.phase = .flush) :
    exec .cycFlush s = .next { s with
      icReady := s.icReady + (if s.iq.count ≠ 0 ∧ s.readyCb = true then 1 else 0),
      wstate := .idle, verdict := .done .ok, result := .none } := by
  show execCycFlush s = _
  rw [execCycFlush, flushEvent_eq, next_enabled hw hp]
  rfl

/-! ### The pull of a whole window (R145, R146, R211) -/

theorem peekWindow_eq (s : State) : peekWindow s = s.ocBuf.take s.params.peekMax := by
  rw [peekWindow, Nat.min_comm, ← List.take_eq_take_min]

/-- With room for a full transfer the whole window is accepted, so none of it stays with the client. -/
theorem refillOutbound_whole {s : State} (hok : s.oq.ok = true) (hroom : s.params.peekMax ≤ 4096 - s.oq.count) :
    ∃ q, RingGained s.oq (s.ocBuf.take s.params.peekMax) q ∧ refillOutbound s = { s with
      oq := q, ocBuf := s.ocBuf.drop s.params.peekMax, ocAck := min s.ocBuf.length s.params.peekMax } := by
  have hlen : (peekWindow s).length = min s.ocBuf.length s.params.peekMax := by
    rw [peekWindow_eq, List.length_take, Nat.min_comm]
  have hall : (ringPushAll (peekWindow s) s.oq).1 = (peekWindow s).length := (ringPushAll_fits _ _ hok (by omega)).1
  have hgained := ringPushAll_gained (peekWindow s) s.oq hok
  rw [hall, List.take_length, peekWindow_eq] at hgained
  have hdrop : s.ocBuf.drop (min s.ocBuf.length s.params.peekMax) = s.ocBuf.drop s.params.peekMax := by
    rw [Nat.min_comm, ← List.drop_eq_drop_min]
  refine ⟨_, hgained, ?_⟩
  rw [refillOutbound, hall, hlen, hdrop, peekWindow_eq]

/-- An active client with room for a full transfer is pulled from, after the two flags are cleared. -/
theorem refillStep_pulls {s : State} (ha : s.outActive = true) (hroom : s.params.peekMax ≤ 4096 - s.oq.count) :
    refillStep s = refillOutbound { s with hadData := false, cbFired := false } := by
  have hroom' : hasRoom { s with hadData := false, cbFired := false } = true := (hasRoom_iff _).2 hroom
  exact if_pos (by rw [hroom', ha]; rfl)

/-- With the client closed, or less room than `PEEK_MAX`, only the two flags are cleared: no part of the window is pulled. -/
theorem refillStep_pulls_nothing {s : State} (h : s.outActive = false ∨ 4096 - s.oq.count < s.params.peekMax) :
    refillStep s = { s with hadData := false, cbFired := false } := by
  refine if_neg fun hpull => ?_
  obtain ⟨ha, hroom⟩ := Bool.and_eq_true_iff.1 hpull
  rcases h with hclosed | hfull
  · exact nomatch hclosed.symm.trans ha
  · exact absurd ((hasRoom_iff _).1 hroom) (Nat.not_le.2 hfull)

theorem exec_itRefill_enabled {s : State} (hw : s.wstate = .running) (hp : s.phase = .refill) :
    exec .itRefill s = .next ({ refillStep s with phase := .compose0 } : State).succeed :=
  next_enabled hw hp _

/-! ### The exchange of an iteration (R122, R148) -/

theorem exchangeStep_unbound {s : State} (hlink : s.linkBound = false) : exchangeStep s = { countFault s with
    frameIn := Frame.zero, elapsed := s.now - s.lastXfer, lastXfer := s.now } := by
  rw [exchangeStep, exchangeFrame, exchange_unbound _ _ _ hlink]

/-- On a bound link the bytes cross whether or not the transfer succeeds; a failed one is counted and reads as zeros. -/
theorem exchangeStep_bound {s : State} (hlink : s.linkBound = true) : exchangeStep s = { afterLink (frameBytes s.frameOut) s with
    diagXferFaults := s.diagXferFaults + (if (linkAnswerOf s).ok then 0 else 1),
    frameIn := if (linkAnswerOf s).ok then answerFrame (linkAnswerOf s) else Frame.zero,
    elapsed := s.now - s.lastXfer, lastXfer := s.now } := by
  rw [exchangeStep, exchangeFrame, exchange, if_pos hlink]
  by_cases hok : (linkAnswerOf s).ok = true
  · simp only [if_pos hok]; rfl
  · simp only [if_neg hok]; rfl

theorem exec_itXchg_enabled {s : State} (hw : s.wstate = .running) (hp : s.phase = .xchg) :
    exec .itXchg s = .next ({ exchangeStep s with phase := .decay } : State).succeed :=
  next_enabled hw hp _

/-! ### The end of an iteration (R153) -/

theorem exec_itCont_enabled {s : State} (hw : s.wstate = .running) (hp : s.phase = .cont) :
    exec .itCont s = .next ({ s with phase := if moreWork s then .refill else .flush } : State).succeed :=
  next_enabled hw hp _

/-! ### The obligations -/

/-- Settles O40: with the client active and room for a full transfer the refill is that of a whole window; else it clears the two
flags alone. -/
theorem refillPullsAWholeWindow : Obligations.RefillPullsAWholeWindow := by
  refine fun s hok hw hp => ⟨fun ha hroom => ?pulls, fun h => ?nothing⟩ <;> rw [exec_itRefill_enabled hw hp]
  case pulls =>
    obtain ⟨q, hq, hrefill⟩ := refillOutbound_whole (s := { s with hadData := false, cbFired := false }) hok hroom
    refine ⟨q, hq, ?_⟩
    rw [refillStep_pulls ha hroom, hrefill]
    rfl
  case nothing =>
    rw [refillStep_pulls_nothing h]
    rfl

/-- Settles O38, an operation at a time. -/
theorem cycleIsRequestedStartedAndFlushed : Obligations.CycleIsRequestedStartedAndFlushed :=
  fun _ => ⟨exec_reqCycle_takes, exec_reqCycle_ignored, exec_cycStart_pending, exec_cycFlush_enabled⟩

/-- Settles O39: each micro-step is guarded by its phase, and `CYC_START` by the pending request. -/
theorem microStepsRunOnlyInTheirPhase : Obligations.MicroStepsRunOnlyInTheirPhase :=
  ⟨fun _ _ _ => exec_microStep_refused, fun _ => exec_cycStart_refused⟩

/-- Settles O41: without a link, and on a bound one by what the peer answers. -/
theorem iterationExchange : Obligations.IterationExchange := by
  refine fun s hw hp => ⟨fun hlink => ?unbound, fun hlink => ?bound⟩ <;> rw [exec_itXchg_enabled hw hp]
  case unbound => rw [exchangeStep_unbound hlink]; rfl
  case bound => rw [exchangeStep_bound hlink]; rfl

/-- Settles O42: the continuation test is the disjunction of the five terms. -/
theorem iterationContinues : Obligations.IterationContinues := by
  refine fun s hw hp => ⟨fun hmore => ?goesOn, fun hdata hoq hlevel hled husage => ?leaves⟩ <;> rw [exec_itCont_enabled hw hp]
  case goesOn => rw [if_pos ((moreWork_iff s).2 hmore)]; rfl
  case leaves =>
    have hnone : ¬moreWork s = true := by simp [moreWork_iff, hdata, hoq, hlevel, hled, husage]
    rw [if_neg hnone]
    rfl

end Sys2Proof.Machine
end

section
/-! The composer and the decoder, a step at a time: the LED command (R171), one slot composed (R174), one slot delivered by the worker or
by an inbound data word (R180, R184). -/

namespace Sys2Proof.Machine

/-! ### One slot composed (R174): LED before MIDI before empty -/

theorem composeOne_led (k : SlotIx) {s : State} (hled : s.ledPending = true) : composeOne k s = { s with
    frameOut := setFrameSlot s.frameOut k (ledPair s.ledDuration), ledDuration := 0, ledPending := false } :=
  if_pos hled

/-- With no command pending `CAN_SEND` is the gate alone (R191). -/
theorem canSendFlag_of_no_led {s : State} (hled : s.ledPending = false) : canSendFlag s = true ↔ s.usage + 1000 < 127000 := by
  rw [canSendFlag, hled, Bool.or_false, gateOpen]
  exact decide_eq_true_iff

theorem composeOne_midi (k : SlotIx) {s : State} (hok : s.oq.ok = true) (hled : s.ledPending = false)
    (hgate : s.usage + 1000 < 127000) (hc : s.oq.count ≠ 0) :
    ∃ b q, RingLost s.oq b q ∧ composeOne k s = { s with
      frameOut := setFrameSlot s.frameOut k (midiPair b), oq := q, usage := s.usage + 1000 } := by
  obtain ⟨b, q, hpop, _⟩ := ringPop_spec s.oq hok hc
  refine ⟨b, q, ringPop_lost s.oq q b hok hpop, ?_⟩
  rw [composeOne, if_neg (Bool.eq_false_iff.1 hled), if_pos ((canSendFlag_of_no_led hled).2 hgate), hpop]
  rfl

/-- The slot is empty where the gate is shut and where no byte is queued. -/
theorem composeOne_empty (k : SlotIx) {s : State} (hled : s.ledPending = false)
    (h : ¬(s.usage + 1000 < 127000 ∧ s.oq.count ≠ 0)) :
    composeOne k s = { s with frameOut := setFrameSlot s.frameOut k emptyPair } := by
  rw [composeOne, if_neg (Bool.eq_false_iff.1 hled)]
  by_cases hgate : s.usage + 1000 < 127000
  · have hc : s.oq.count = 0 := not_not.1 fun hc => h ⟨hgate, hc⟩
    rw [if_pos ((canSendFlag_of_no_led hled).2 hgate), ringPop_empty s.oq hc]
    rfl
  · rw [if_neg (mt (canSendFlag_of_no_led hled).1 hgate)]
    rfl

theorem exec_composeSlot_enabled {k : SlotIx} {s : State} (hw : s.wstate = .running) (hp : s.phase = composePhase k) :
    exec (.composeSlot k) s = .next ({ composeOne k s with phase := afterCompose k } : State).succeed :=
  next_enabled hw hp _

/-! ### One byte delivered (R180, R181, R217) -/

theorem deliverByte_full (v : Byte) {s : State} (hok : s.iq.ok = true) (hc : s.iq.count = 4096) :
    deliverByte v s = { s with hadData := true, diagInDrops := s.diagInDrops + 1 } := by
  rcases deliverByte_cases v s hok with ⟨_, he⟩ | ⟨q, hq, _, hcount, _⟩
  · exact he
  · have := ((ring_ok_iff q).1 hq).1
    omega

/-- The queue after a delivery with room is the queue with the byte at the tail, its other places as before. -/
theorem deliverByte_gained (v : Byte) {s : State} (hok : s.iq.ok = true) (hc : s.iq.count < 4096) :
    RingGained s.iq [v] (deliverByte v s).iq := by
  obtain ⟨q, hpush, _⟩ := ringPush_spec s.iq v hok hc
  have hiq : (deliverByte v s).iq = q := by
    rw [deliverByte, storeInbound, hpush]
    dsimp only
    split <;> rfl
  rw [hiq]
  exact ringPush_gained s.iq q v hok hpush

theorem deliverByte_stored (v : Byte) {s : State} (hok : s.iq.ok = true) (hc : s.iq.count < 4096) :
    ∃ q, RingGained s.iq [v] q ∧
      (s.iq.count = 16 ∧ s.cbFired = false ∧ s.readyCb = true →
        deliverByte v s = { s with iq := q, hadData := true, icReady := s.icReady + 1, cbFired := true }) ∧
      (¬(s.iq.count = 16 ∧ s.cbFired = false ∧ s.readyCb = true) → deliverByte v s = { s with iq := q, hadData := true }) := by
  have hgained := deliverByte_gained v hok hc
  rcases deliverByte_cases v s hok with ⟨hfull, _⟩ | ⟨q, _, _, _, ⟨hcount, hfired, hcb, he⟩ | ⟨hno, he⟩⟩
  · omega
  all_goals rw [he] at hgained
  · exact ⟨q, hgained, fun _ => he, fun hno => absurd ⟨hcount, hfired, hcb⟩ hno⟩
  · exact ⟨q, hgained, fun h => absurd h hno, fun _ => he⟩

theorem deliverByte_lstate (v : Byte) {s : State} (hok : s.iq.ok = true) : (deliverByte v s).lstate = s.lstate := by
  rcases deliverByte_cases v s hok with ⟨_, he⟩ | ⟨_, _, _, _, ⟨_, _, _, he⟩ | ⟨_, he⟩⟩ <;> rw [he]

/-! ### `DELIVER_SLOT` and `RX.DATA` (R180, R184) -/

theorem exec_deliverSlot_empty {k : SlotIx} {s : State} (hw : s.wstate = .running) (hp : s.phase = deliverPhase k)
    (htag : (frameSlot s.frameIn k).tag = 0) : exec (.deliverSlot k) s = .next { s with
      phase := afterDeliver k, verdict := .done .ok, result := .none } := by
  have hnone : deliverOne k s = s := if_pos htag
  refine (next_enabled hw hp _).trans ?_
  rw [hnone]
  rfl

theorem exec_deliverSlot_data {k : SlotIx} {s : State} (hw : s.wstate = .running) (hp : s.phase = deliverPhase k)
    (htag : (frameSlot s.frameIn k).tag ≠ 0) : exec (.deliverSlot k) s =
      .next ({ deliverByte (frameSlot s.frameIn k).value s with phase := afterDeliver k } : State).succeed := by
  have hdata : deliverOne k s = deliverByte (frameSlot s.frameIn k).value s := if_neg htag
  refine (next_enabled hw hp _).trans ?_
  rw [hdata]

/-- The word delivers its byte as `DELIVER_SLOT` does, and marks the run (log entries 13 and 15). -/
theorem exec_rxData_delivering {tag : Byte} (v : Byte) {k : SlotIx} {s : State} (htag : tag ≠ 0)
    (hl : s.lstate = .up ∨ s.lstate = .shutdown) (hok : s.iq.ok = true) (hw : s.wstate = .running) (hp : s.phase = deliverPhase k) :
    exec (.rxData tag v) s = .next ({ deliverByte v s with marked := true } : State).succeed := by
  show execRxData tag v s = _
  rw [execRxData, (deliveringSlot_iff s k).2 ⟨hw, hp⟩]
  dsimp only
  rw [deliverPair, if_neg htag, outsideContract_alive (by rwa [deliverByte_lstate v hok])]

/-- With no slot being delivered the word is refused (R170). -/
theorem exec_rxData_refused (tag v : Byte) {s : State}
    (h : ¬(s.wstate = .running ∧ (s.phase = .deliver0 ∨ s.phase = .deliver1))) :
    exec (.rxData tag v) s = .next (turnedAway s) := by
  have h0 : ¬enabledAt .deliver0 s = true := fun he => h (((enabledAt_iff _ s).1 he).imp_right .inl)
  have h1 : ¬enabledAt .deliver1 s = true := fun he => h (((enabledAt_iff _ s).1 he).imp_right .inr)
  have hnone : deliveringSlot s = none := by rw [deliveringSlot, if_neg h0, if_neg h1]
  show execRxData tag v s = _
  rw [execRxData, hnone]
  rfl

/-! ### The obligations -/

/-- Settles O31: the command is written and the cycle requested in one step. -/
theorem flashLedSetsTheCommand : Obligations.FlashLedSetsTheCommand := by
  refine fun d s => ⟨fun hl => ?inUp, fun hl => congrArg Host.Outcome.next (if_neg hl)⟩
  case inUp =>
    show execFlashLed d s = _
    rw [execFlashLed, if_pos hl, requestCycle_up { s with ledDuration := d, ledPending := true } hl]
    rfl

/-- Settles O33, a clause for each of the three things a slot can hold. -/
theorem composeSlotChoosesLedMidiEmpty : Obligations.ComposeSlotChoosesLedMidiEmpty := by
  intro k s hok hw hp
  rw [exec_composeSlot_enabled hw hp]
  refine ⟨fun hled => ?led, fun hled hgate hc => ?midi, fun hled h => ?empty⟩
  case led => rw [composeOne_led k hled]; rfl
  case midi =>
    obtain ⟨b, q, hlost, he⟩ := composeOne_midi k hok hled hgate hc
    exact ⟨b, q, hlost, by rw [he]; rfl⟩
  case empty => rw [composeOne_empty k hled h]; rfl

/-- Settles O35: tag zero delivers nothing; any other tag delivers the byte, into a full queue or into one with room. -/
theorem deliverSlotStoresOrDrops : Obligations.DeliverSlotStoresOrDrops := by
  refine fun k s hok hw hp => ⟨exec_deliverSlot_empty hw hp, fun htag hc => ?full, fun htag hc => ?room⟩ <;>
    rw [exec_deliverSlot_data hw hp htag]
  case full => rw [deliverByte_full _ hok hc]; rfl
  case room =>
    obtain ⟨q, hgained, hevent, hquiet⟩ := deliverByte_stored (frameSlot s.frameIn k).value hok hc
    exact ⟨q, hgained, fun h => by rw [hevent h]; rfl, fun h => by rw [hquiet h]; rfl⟩

/-- Settles O13: where a slot is being delivered the byte is, into a full queue or into one with room; elsewhere the word is refused. -/
theorem inboundDataWordDelivers : Obligations.InboundDataWordDelivers := by
  refine ⟨fun tag v k s htag hl hok hw hp => ?delivered, fun tag v s => exec_rxData_refused tag v⟩
  rw [exec_rxData_delivering v htag hl hok hw hp]
  refine ⟨fun hc => ?full, fun hc => ?room⟩
  case full => rw [deliverByte_full v hok hc]; rfl
  case room =>
    obtain ⟨q, hgained, hevent, hquiet⟩ := deliverByte_stored v hok hc
    exact ⟨q, hgained, fun h => by rw [hevent h]; rfl, fun h => by rw [hquiet h]; rfl⟩

end Sys2Proof.Machine
end

section
/-! The flow controller: the gate read (R191), a byte charged (R193), the estimate decayed (R150, R194), and the bound that every step
keeps (R197). -/

namespace Sys2Proof.Machine

/-! ### `CAN_SEND` (R191) -/

/-- `CAN_SEND` in the numbers of R191. -/
theorem canSendFlag_iff_fits (s : State) : canSendFlag s = true ↔ s.usage + 1000 < 127000 ∨ s.ledPending = true :=
  (canSendFlag_iff s).trans (or_congr_left (by omega))

theorem exec_canSend (s : State) : exec .canSend s = .next { s with verdict := .done .ok, result := .flag (canSendFlag s) } := rfl

/-! ### `ON_SENT` (R193) -/

/-- The contract of `ON_SENT` in the numbers of R193. -/
theorem sentGuard_iff_fits (s : State) : sentGuard s = true ↔
    (s.lstate = .up ∨ s.lstate = .shutdown) ∧ s.usage + 1000 < 127000 ∧ s.ledPending = false :=
  (sentGuard_iff s).trans (and_congr_right fun _ => and_congr_left fun _ => by omega)

theorem exec_onSent_guarded {s : State} (h : sentGuard s = true) :
    exec .onSent s = .next { s with usage := s.usage + 1000, verdict := .done .ok, result := .none } :=
  congrArg Host.Outcome.next (if_pos h)

theorem exec_onSent_refused {s : State} (h : ¬sentGuard s = true) : exec .onSent s = .next (turnedAway s) :=
  congrArg Host.Outcome.next (if_neg h)

/-! ### `ON_ELAPSED` and `IT_DECAY` (R150, R194) -/

theorem exec_onElapsed (n : Nat) (s : State) : exec (.onElapsed n) s = .next (decayUsage n s).succeed := rfl

theorem decayUsage_enough {n : Nat} {s : State} (h : s.params.drainRate * n ≤ s.usage) :
    decayUsage n s = { s with usage := s.usage - s.params.drainRate * n } :=
  congrArg (fun u => ({ s with usage := u } : State)) (if_pos h)

theorem decayUsage_floored {n : Nat} {s : State} (h : s.usage < s.params.drainRate * n) : decayUsage n s = { s with usage := 0 } :=
  congrArg (fun u => ({ s with usage := u } : State)) (if_neg (Nat.not_le.2 h))

theorem exec_itDecay_enabled {s : State} (hw : s.wstate = .running) (hp : s.phase = .decay) :
    exec .itDecay s = .next ({ decayUsage s.elapsed s with phase := .deliver0 } : State).succeed :=
  next_enabled hw hp _

/-! ### The bound on the estimate (R197) -/

/-- The moves of the data path raise the estimate by one charge alone, and only while the gate is open (R191, R193). -/
theorem DataMove.usage_cases {i : Option Instr} {s t : State} (h : DataMove i s t) :
    t.usage ≤ s.usage ∨ (s.usage < 126000 ∧ t.usage = s.usage + 1000) := by
  cases h with
  | records hr => exact .inl (by rw [hr.eq])
  | charged _ hgate => exact .inr ⟨hgate, rfl⟩
  | decayed u hu => exact .inl hu
  | _ => exact .inl (Nat.le_refl _)

/-- A sequence of handshakes leaves the estimate alone, but for a bring-up that ends, which starts it at zero (R51). -/
theorem SequenceStep.usage_le {s t : State} (h : SequenceStep s t) : t.usage ≤ s.usage := by
  cases h with
  | finished st _ _ => rw [finishBringUp_eq]; exact Nat.zero_le _
  | answered max got _ => rw [blockReply_eq]; exact Nat.le_refl _
  | _ => exact Nat.le_refl _

/-- The lifecycle leaves the estimate alone or, with the link torn down, at zero (R293). -/
theorem LinkMove.usage_le {i : Option Instr} {s t : State} (h : LinkMove i s t) : t.usage ≤ s.usage := by
  cases h with
  | sequence _ _ hseq => exact hseq.usage_le
  | tornDown _ _ _ => exact Nat.zero_le _
  | _ => exact Nat.le_refl _

theorem UsageBelowCeiling.of_le {s t : State} (hs : UsageBelowCeiling s) (h : t.usage ≤ s.usage) : UsageBelowCeiling t :=
  Nat.lt_of_le_of_lt h hs

/-- A charge made under the gate stays below the ceiling: the gate leaves room for exactly one (R197). -/
theorem UsageBelowCeiling.of_charge {s t : State} (hgate : s.usage < 126000) (h : t.usage = s.usage + 1000) : UsageBelowCeiling t := by
  rw [UsageBelowCeiling, Config.ceiling]
  omega

theorem Move.usageBelowCeiling {i : Option Instr} {s t : State} (h : Move i s t) (hs : UsageBelowCeiling s) : UsageBelowCeiling t := by
  cases h with
  | link hm => exact hs.of_le hm.usage_le
  | data hm =>
    rcases hm.usage_cases with hle | ⟨hgate, hcharged⟩
    · exact hs.of_le hle
    · exact .of_charge hgate hcharged

theorem hardReset_usageBelowCeiling (s : State) : UsageBelowCeiling (hardReset s) := (by decide : 0 < Config.ceiling)

/-! ### The obligations -/

/-- Settles O46: every move keeps the bound, the clock leaves the estimate alone, and the reset clears it. -/
theorem usageStaysBelowTheCeiling : Obligations.UsageStaysBelowTheCeiling := by
  intro s t hs h
  exact step_keeps_of_moves UsageBelowCeiling (fun _ _ _ hm => hm.usageBelowCeiling) (fun _ _ _ hx _ => hx)
    hardReset_usageBelowCeiling h hs

/-- Settles O43: the answer is `CAN_SEND`, which is the gate or the pending command. -/
theorem canSendReadsTheGate : Obligations.CanSendReadsTheGate := by
  refine fun s => ⟨fun h => ?sends, fun hgate hled => ?withheld⟩ <;> rw [exec_canSend]
  case sends => rw [(canSendFlag_iff_fits s).2 h]
  case withheld =>
    have hshut : canSendFlag s = false := Bool.eq_false_iff.2 (mt (canSendFlag_of_no_led hled).1 hgate)
    rw [hshut]

/-- Settles O44: the guard's three conditions together, or one of them missing. -/
theorem onSentChargesUnderItsGuard : Obligations.OnSentChargesUnderItsGuard := by
  refine fun s => ⟨fun hl hgate hled => exec_onSent_guarded ((sentGuard_iff_fits s).2 ⟨hl, hgate, hled⟩), fun h => ?refused⟩
  refine exec_onSent_refused fun hguard => ?_
  obtain ⟨hl, hgate, hled⟩ := (sentGuard_iff_fits s).1 hguard
  rcases h with hdown | hfull | hpending
  · exact hdown hl
  · exact hfull hgate
  · exact nomatch hled.symm.trans hpending

/-- Settles O45: the micro-step in its phase, and the operation where the estimate holds the whole product and where it does not. -/
theorem decayIsExactAndFloored : Obligations.DecayIsExactAndFloored := by
  refine ⟨fun s => exec_itDecay_enabled, fun n s => ⟨fun h => ?enough, fun h => ?floored⟩⟩ <;> rw [exec_onElapsed]
  case enough => rw [decayUsage_enough h]; rfl
  case floored => rw [decayUsage_floored h]; rfl

end Sys2Proof.Machine
end

section
/-! The byte queues: the operations of the worker's steps taken alone (R209, R215, R217), and the commands on the queues (R207, R219,
R221). -/

namespace Sys2Proof.Machine

/-! ### Pushes and pops, with the places they leave alone (R66, R206) -/

theorem ringPush_room {r : Ring} (b : Byte) (hok : r.ok = true) (hc : r.count < 4096) :
    ∃ q, RingGained r [b] q ∧ ringPush r b = some q := by
  obtain ⟨q, hpush, _⟩ := ringPush_spec r b hok hc
  exact ⟨q, ringPush_gained r q b hok hpush, hpush⟩

theorem ringPop_nonempty {r : Ring} (hok : r.ok = true) (hc : r.count ≠ 0) : ∃ b q, RingLost r b q ∧ ringPop r = some (b, q) := by
  obtain ⟨b, q, hpop, _⟩ := ringPop_spec r hok hc
  exact ⟨b, q, ringPop_lost r q b hok hpop, hpop⟩

/-- What a refill moves is bounded three ways: by the bytes held, by the peek window and by the room (R211, R215). -/
theorem refillOutbound_gained {s : State} (hok : s.oq.ok = true) :
    ∃ q n, n = min (min s.ocBuf.length s.params.peekMax) (4096 - s.oq.count) ∧ RingGained s.oq (s.ocBuf.take n) q ∧
      refillOutbound s = { s with oq := q, ocBuf := s.ocBuf.drop n, ocAck := n } := by
  obtain ⟨_, haccepted, _⟩ := ringPushAll_spec (peekWindow s) s.oq hok
  have hn : (ringPushAll (peekWindow s) s.oq).1 = min (min s.ocBuf.length s.params.peekMax) (4096 - s.oq.count) := by
    rw [haccepted, peekWindow, List.length_take, Nat.min_eq_left (Nat.min_le_left _ _)]
  have htake : (peekWindow s).take (ringPushAll (peekWindow s) s.oq).1 = s.ocBuf.take (ringPushAll (peekWindow s) s.oq).1 := by
    rw [hn, peekWindow, List.take_take, Nat.min_eq_left (Nat.min_le_left _ _)]
  exact ⟨_, _, hn, htake ▸ ringPushAll_gained (peekWindow s) s.oq hok, rfl⟩

/-! ### Where a command (R207, R219) and where an inner operation taken alone (R71, R222) finds the queues -/

theorem next_up {s : State} (hl : s.lstate = .up) (t : State) : (.next (if s.lstate = .up then t else s.refuse) : Out) = .next t :=
  congrArg Host.Outcome.next (if_pos hl)

theorem next_not_up {s : State} (hl : s.lstate ≠ .up) (t : State) :
    (.next (if s.lstate = .up then t else s.refuse) : Out) = .next (turnedAway s) :=
  congrArg Host.Outcome.next (if_neg hl)

theorem next_queueOpen {s : State} (hl : s.lstate = .up ∨ s.lstate = .shutdown) (hw : s.wstate ≠ .running) (t : State) :
    (.next (if queueOpen s then t else s.refuse) : Out) = .next t :=
  congrArg Host.Outcome.next (if_pos ((queueOpen_iff s).2 ⟨hl, hw⟩))

theorem next_queueShut {s : State} (h : ¬(s.lstate = .up ∨ s.lstate = .shutdown) ∨ s.wstate = .running) (t : State) :
    (.next (if queueOpen s then t else s.refuse) : Out) = .next (turnedAway s) := by
  refine congrArg Host.Outcome.next (if_neg fun hopen => ?_)
  obtain ⟨hl, hw⟩ := (queueOpen_iff s).1 hopen
  exact h.elim (absurd hl) hw

/-! ### `OQ_POP`, `OQ_REFILL` and `IQ_PUSH` taken alone: each marks the run (log entry 13) -/

theorem exec_oqPop_takes {b : Byte} {q : Ring} {s : State} (hl : s.lstate = .up ∨ s.lstate = .shutdown) (hw : s.wstate ≠ .running)
    (hpop : ringPop s.oq = some (b, q)) :
    exec .oqPop s = .next { s with oq := q, marked := true, verdict := .done .ok, result := .byte b } := by
  refine (next_queueOpen hl hw _).trans ?_
  rw [hpop]
  dsimp only
  rw [outsideContract_alive (s := { s with oq := q }) hl]
  rfl

theorem exec_oqPop_empty {s : State} (hl : s.lstate = .up ∨ s.lstate = .shutdown) (hw : s.wstate ≠ .running) (hc : s.oq.count = 0) :
    exec .oqPop s = .next { s with marked := true, verdict := .done .ok, result := .none } := by
  refine (next_queueOpen hl hw _).trans ?_
  rw [ringPop_empty s.oq hc, outsideContract_alive hl]
  rfl

theorem exec_oqRefill_moves {q : Ring} {n : Nat} {s : State} (hl : s.lstate = .up ∨ s.lstate = .shutdown) (hw : s.wstate ≠ .running)
    (hrefill : refillOutbound s = { s with oq := q, ocBuf := s.ocBuf.drop n, ocAck := n }) :
    exec .oqRefill s = .next { s with
      oq := q, ocBuf := s.ocBuf.drop n, ocAck := n, marked := true, verdict := .done .ok, result := .number n } := by
  refine (next_queueOpen hl hw _).trans ?_
  rw [hrefill, outsideContract_alive (s := { s with oq := q, ocBuf := s.ocBuf.drop n, ocAck := n }) hl]
  rfl

/-- The answer is that of the queue half, whose effect is all there is beside the mark. -/
theorem exec_iqPush_open {b : Byte} {stored : Bool} {s t : State} (hl : s.lstate = .up ∨ s.lstate = .shutdown)
    (hw : s.wstate ≠ .running) (hpush : storeInbound b s = (stored, t)) (ht : t.lstate = s.lstate) :
    exec (.iqPush b) s = .next { t with marked := true, verdict := .done .ok, result := .flag stored } := by
  refine (next_queueOpen hl hw _).trans ?_
  rw [hpush]
  dsimp only
  rw [outsideContract_alive (ht.symm ▸ hl)]
  rfl

theorem storeInbound_full {b : Byte} {s : State} (hc : s.iq.count = 4096) :
    storeInbound b s = (false, { s with diagInDrops := s.diagInDrops + 1 }) := by
  rw [storeInbound, ringPush_full s.iq b hc.ge]

theorem storeInbound_room {b : Byte} {q : Ring} {s : State} (hpush : ringPush s.iq b = some q) :
    storeInbound b s = (true, { s with iq := q }) := by
  rw [storeInbound, hpush]

/-! ### `OQ_PUSH` (R221) -/

theorem exec_oqPush_refused {b : Byte} {s : State} (h : s.lstate ≠ .up ∨ s.wstate = .running) :
    exec (.oqPush b) s = .next (turnedAway s) :=
  congrArg Host.Outcome.next (if_pos h)

theorem exec_oqPush_full {b : Byte} {s : State} (hl : s.lstate = .up) (hw : s.wstate ≠ .running) (hc : s.oq.count = 4096) :
    exec (.oqPush b) s = .next { s with verdict := .done .ok, result := .flag false } := by
  show execOqPush b s = _
  rw [execOqPush, if_neg (not_or.2 ⟨not_not.2 hl, hw⟩), ringPush_full s.oq b hc.ge]
  rfl

/-- A push into an empty queue requests a cycle; one into a queue that holds bytes leaves the latch alone. -/
theorem exec_oqPush_room {b : Byte} {q : Ring} {s : State} (hl : s.lstate = .up) (hw : s.wstate ≠ .running)
    (hpush : ringPush s.oq b = some q) : exec (.oqPush b) s = .next { s with
      oq := q, wstate := if s.oq.count = 0 then requested s.wstate else s.wstate, verdict := .done .ok, result := .flag true } := by
  show execOqPush b s = _
  rw [execOqPush, if_neg (not_or.2 ⟨not_not.2 hl, hw⟩), hpush]
  dsimp only
  by_cases hc : s.oq.count = 0
  · rw [if_pos ((oqEmpty_iff s).2 hc), if_pos hc, requestCycle_up { s with oq := q } hl]
    rfl
  · rw [if_neg (mt (oqEmpty_iff s).1 hc), if_neg hc]
    rfl

/-! ### The obligations -/

/-- Settles O47: refused, into a full queue, or into one with room. -/
theorem testPushAppends : Obligations.TestPushAppends := by
  refine fun b s hok => ⟨exec_oqPush_refused, exec_oqPush_full, fun hl hw hc => ?room⟩
  obtain ⟨q, hgained, hpush⟩ := ringPush_room b hok hc
  exact ⟨q, hgained, exec_oqPush_room hl hw hpush⟩

/-- Settles O48: from a queue that holds bytes, from an empty one, or refused. -/
theorem popTakesTheOldest : Obligations.PopTakesTheOldest := by
  refine fun s hok => ⟨fun hl hw hc => ?takes, exec_oqPop_empty, fun h => next_queueShut h _⟩
  obtain ⟨b, q, hlost, hpop⟩ := ringPop_nonempty hok hc
  exact ⟨b, q, hlost, exec_oqPop_takes hl hw hpop⟩

/-- Settles O49: where the queue is open the refill moves what fits; elsewhere it is refused. -/
theorem refillMovesWhatFits : Obligations.RefillMovesWhatFits := by
  refine fun s hok => ⟨fun hl hw => ?moves, fun h => next_queueShut h _⟩
  obtain ⟨q, n, hn, hgained, hrefill⟩ := refillOutbound_gained hok
  exact ⟨q, n, hn, hgained, exec_oqRefill_moves hl hw hrefill⟩

/-- Settles O50: into a full queue, into one with room, or refused. -/
theorem inboundPushStoresOrDrops : Obligations.InboundPushStoresOrDrops := by
  refine fun b s hok => ⟨fun hl hw hc => exec_iqPush_open hl hw (storeInbound_full hc) rfl, fun hl hw hc => ?room,
    fun h => next_queueShut h _⟩
  obtain ⟨q, hgained, hpush⟩ := ringPush_room b hok hc
  exact ⟨q, hgained, exec_iqPush_open hl hw (storeInbound_room hpush) rfl⟩

/-- Settles O51: the answer is the content before the drain, and the drain writes the read index and the count alone. -/
theorem drainTakesEverything : Obligations.DrainTakesEverything := by
  refine fun s hok => ⟨fun hl => ?drained, fun hl => next_not_up hl _⟩
  obtain ⟨hdrained, hlist, _, hwr⟩ := ringDrain_spec s.iq hok
  exact ⟨ringDrain s.iq, hdrained, hlist, hwr, fun _ => rfl, next_up hl _⟩

/-- Settles O52: the count register of a ring is the length of its content. -/
theorem lengthQueries : Obligations.LengthQueries := by
  refine fun s => ⟨fun hl => ?answered, fun hl => ⟨next_not_up hl _, next_not_up hl _⟩⟩
  rw [ringList_length, ringList_length]
  exact ⟨next_up hl _, next_up hl _⟩

end Sys2Proof.Machine
end

section
/-! The identity: the accessor (R243), what a step taken in `BRINGUP` can do (R240, R286 to R290), and a parse that stops at its first
failure (R232 to R240). -/

namespace Sys2Proof.Machine

/-! ### A bring-up that is rolled back (R290, R293) -/

theorem AtResetValues.identityOf_eq {s : State} (h : AtResetValues s) : identityOf s = ([], [], [], Config.hwverDefault, false) := by
  obtain ⟨hserial, huid, hfw, hhw, hvalid⟩ := h.identity
  rw [identityOf, hserial, huid, hfw, hhw, hvalid]

/-- In `BRINGUP` nothing is published yet: the identity is at its defaults (R241). -/
theorem DownIsReset.identityOf_bringup {s : State} (h : DownIsReset s) (hl : s.lstate = .bringup) :
    identityOf s = ([], [], [], Config.hwverDefault, false) := (h.bringup hl).identityOf_eq

/-- From `s` in `BRINGUP` the block has gone back to `DOWN`, which is one state, with nothing published (R290). -/
structure RolledBack (s t : State) : Prop where
  down : t.lstate = .down
  reset : AtResetValues t
  identity : identityOf t = identityOf s

theorem RolledBack.of_down {s t : State} (hs : DownIsReset s) (hl : s.lstate = .bringup) (ht : DownIsReset t)
    (hdown : t.lstate = .down) : RolledBack s t :=
  ⟨hdown, ht.down hdown, (ht.down hdown).identityOf_eq.trans (hs.identityOf_bringup hl).symm⟩

/-- A bring-up that fails is rolled back, whatever its exchanges have recorded (R289, R290). -/
theorem failBringUp_rolledBack {s x : State} (hs : Inv s) (hd : DownIsReset s) (hl : s.lstate = .bringup) (hx : Recorded s x) :
    RolledBack s (failBringUp x) := by
  have hdx : DownIsReset x := (DataMove.records (i := none) hx).downIsReset hs hd
  have hlx : x.lstate = .bringup := hx.lstate.trans hl
  have hparse : x.parse ≠ .idle := (hx.inv hs).parsing.2 hlx
  exact .of_down hd hl ((SequenceStep.failed hparse).downIsReset (hx.inv hs) hdx) rfl

/-! ### A step taken in `BRINGUP` (R240, R286, R289) -/

/-- From `s` to `t` a bring-up goes on with nothing published. -/
def GoesOn (s t : State) : Prop := t.lstate = .bringup ∧ t.linkBound = true ∧ identityOf t = identityOf s

theorem SameLink.goesOn {s x y : State} (h : SameLink x y) (hx : GoesOn s x) : GoesOn s y := by
  obtain ⟨hl, hlink, hid⟩ := hx
  refine ⟨h.lstate.trans hl, h.linkBound.trans hlink, ?_⟩
  rw [← hid]
  simp only [identityOf, h.serial, h.uid, h.fw, h.hw, h.valid]

theorem Recorded.sameLink {s t : State} (h : Recorded s t) : SameLink s t := (DataMove.records (i := none) h).sameLink

/-- No move but a handshake ends a bring-up: `LINK_UP` and `LINK_DOWN` act from the other lifecycle states (R294). -/
theorem Move.goesOn {i : Option Instr} {s x y : State} (h : Move i x y) (hi : ∀ j, i = some j → makesHandshake j = false)
    (hx : GoesOn s x) : GoesOn s y := by
  cases h with
  | data hm => exact hm.sameLink.goesOn hx
  | link hm =>
    obtain ⟨hl, _, _⟩ := hx
    cases hm with
    | sequence hj hshake _ => exact nomatch (hi _ hj).symm.trans hshake
    | absent _ hdown | bound _ hdown => exact nomatch hl.symm.trans hdown
    | shut _ hup => exact nomatch hl.symm.trans hup
    | tornDown _ hshut _ => exact nomatch hl.symm.trans hshut

/-- Everything one exchange of a bring-up can lead to: it goes on, it is finished, or it fails (R9, R231). -/
theorem SequenceStep.bringUp_cases {s x t : State} (h : SequenceStep x t) (hx : GoesOn s x) :
    GoesOn s t ∨ (∃ st, t = finishBringUp st x) ∨ t = failBringUp x := by
  cases h with
  | failed _ => exact .inr (.inr rfl)
  | finished st _ _ => exact .inr (.inl ⟨st, rfl⟩)
  | field _ _ _ _ _ _ _ _ | word _ _ _ _ _ => exact .inl hx
  | answered max got _ =>
    rw [blockReply_eq]
    exact .inl hx

/-- What an instruction run in `BRINGUP` at `s` can do: the bring-up goes on, or one handshake finishes it or rolls it back (R240, R241). -/
def BringUpStep (s t : State) : Prop :=
  GoesOn s t ∨
  (t.lstate = .up ∧ t.linkBound = true ∧ t.idValid = true ∧ IdentityLimits t ∧ t.verdict = .done .ok ∧
    t.linkCount = s.linkCount + 1) ∨
  (RolledBack s t ∧ t.verdict = .done .protocolError ∧ t.linkCount = s.linkCount + 1)

theorem exec_handshake_bringUp {j : Instr} {s t : State} (hs : Inv s) (hd : DownIsReset s) (hlim : IdentityLimits s)
    (hl : s.lstate = .bringup) (hj : makesHandshake j = true) (h : exec j s = .next t) : BringUpStep s t := by
  have hstart : GoesOn s s := ⟨hl, hs.parsing_bound hl, rfl⟩
  rcases exec_handshake_cases hj h with hr | ⟨x, hx, hseq⟩
  · exact .inl (hr.sameLink.goesOn hstart)
  · have hcount : t.linkCount = s.linkCount + 1 := hseq.linkCount.trans (hx.counted (hs.parsing_bound hl))
    have hxon : GoesOn s x := hx.recorded.sameLink.goesOn hstart
    rcases hseq.bringUp_cases hxon with hon | ⟨st, rfl⟩ | rfl
    · exact .inl hon
    · have hlimits := hseq.identityLimits (hlim.sameLink hx.recorded.sameLink)
      rw [finishBringUp_eq] at hcount hlimits ⊢
      exact .inr (.inl ⟨rfl, hxon.2.1, rfl, hlimits, rfl, hcount⟩)
    · exact .inr (.inr ⟨failBringUp_rolledBack hs hd hl hx.recorded, rfl, hcount⟩)

/-- Every instruction run in `BRINGUP`: a handshake, or one that leaves the bring-up alone. -/
theorem exec_bringUp {j : Instr} {s t : State} (hs : Inv s) (hd : DownIsReset s) (hlim : IdentityLimits s)
    (hl : s.lstate = .bringup) (h : exec j s = .next t) : BringUpStep s t := by
  cases hj : makesHandshake j with
  | true => exact exec_handshake_bringUp hs hd hlim hl hj h
  | false =>
    refine .inl ((exec_moves h).keeps (GoesOn s) (fun x y hm hx => hm.goesOn (fun k hk => ?_) hx)
      ⟨hl, hs.parsing_bound hl, rfl⟩)
    cases hk
    exact hj

/-! ### Fields that are good, and the first that is not (R233 to R239) -/

theorem length_flatMap_blockPayloads (fields : List (List Byte)) :
    (fields.flatMap blockPayloads).length = blockExchanges fields := by
  induction fields with
  | nil => rfl
  | cons f fs ih => rw [List.flatMap_cons, List.length_append, ih, blockExchanges_cons]; rfl

/-- The handshakes of a count and whole blocks (R101). -/
theorem length_count_blocks (n : Byte) (fields : List (List Byte)) :
    (n :: fields.flatMap blockPayloads).length = 1 + blockExchanges fields := by
  rw [List.length_cons, length_flatMap_blockPayloads, Nat.add_comm]

/-- After good fields the first that breaks its length rule is not staged (R234 to R238). -/
theorem stageField_of_misfit {fields : List (List Byte)} {bad : List Byte} (hfit : fieldsFit fields = true)
    (hbad : fieldsFit (fields ++ [bad]) = false) (st : Staging) : stageField fields.length bad st = none := by
  match fields with
  | [] =>
    have hlen : bad.length ≠ 2 := by simpa [fieldsFit] using hbad
    exact (stageField_zero bad st).trans (if_neg hlen)
  | [_] =>
    have hlen : ¬bad.length ≤ 10 := by simp_all [fieldsFit]
    exact (stageField_one bad st).trans (if_neg hlen)
  | [_, _] =>
    have hlen : ¬bad.length ≤ 12 := by simp_all [fieldsFit]
    exact (stageField_two bad st).trans (if_neg hlen)
  | [_, _, _] =>
    have hlen : bad.length ≠ 2 := by simp_all [fieldsFit]
    exact (stageField_three bad st).trans (if_neg hlen)
  | _ :: _ :: _ :: _ :: _ => exact nomatch hfit.symm.trans hbad

/-- Good fields that the peer sends whole, with `left` more to read after them (R231). -/
theorem hostTurns_goodFields (fields : List (List Byte)) (left i n : Nat) {st st' : Staging} {s : State} (hw : s.wstate = .idle)
    (hlink : s.linkBound = true) (hlen : ∀ f ∈ fields, f.length ≤ 255) (hst : stageFields i fields st = some st')
    (hs : PeerSends (afterHandshakes n s) (fields.flatMap blockPayloads)) :
    hostTurns (blockExchanges fields) (nextField (left + fields.length) i st (afterHandshakes n s)) =
      .next (nextField left (i + fields.length) st' (afterHandshakes (n + blockExchanges fields) s)) := by
  induction fields generalizing i n st with
  | nil =>
    cases hst
    rfl
  | cons f fs ih =>
    obtain ⟨st1, hst1, hrest⟩ := Option.bind_eq_some_iff.1 hst
    obtain ⟨hfirst, hothers⟩ := (peerSends_append _ _ _).1 hs
    rw [afterHandshakes_add] at hothers
    have hcount : n + (1 + f.length) = n + (blockPayloads f).length := by rw [Nat.add_comm 1]; rfl
    have hfield := hostTurns_heldField (left := left + fs.length) (s := afterHandshakes n s) hw hlink (hlen f List.mem_cons_self)
      hst1 hfirst
    rw [afterHandshakes_add, hcount] at hfield
    have hfs := ih (i + 1) _ (fun g hg => hlen g (List.mem_cons_of_mem f hg)) hrest hothers
    rw [blockExchanges_cons, hostTurns_add, List.length_cons, ← Nat.add_assoc, nextField_left (Nat.succ_ne_zero _), hfield]
    rwa [Nat.add_assoc n, Nat.add_assoc i, Nat.add_comm 1] at hfs

/-- `HOST`'s turn before a field is the handshake of its length (R231, R233). -/
theorem hostStep_heldField (left i : Nat) (st : Staging) {s : State} (hw : s.wstate = .idle) :
    hostStep (heldField left i st s) = .next (lengthStep Config.rdlpScratch (heldField left i st s)) :=
  hostStep_lengthStep _ left i st hw rfl rfl

/-- A field that breaks its length rule fails the bring-up when it has been read in full (R234, R236 to R238). -/
theorem hostTurns_heldField_misfit {left i : Nat} {st : Staging} {f : List Byte} {s : State} (hw : s.wstate = .idle)
    (hlink : s.linkBound = true) (hlen : f.length ≤ 255) (hst : stageField i f st = none) (hs : PeerSends s (blockPayloads f)) :
    hostTurns (f.length + 1) (heldField left i st s) = .next (failBringUp (afterHandshakes (1 + f.length) s)) := by
  have hread := hostTurns_lengthStep (s := heldField left i st s) hw hlink (Nat.lt_succ_of_le hlen) hlen hs
  have hfails := endBlock_field_fails Config.rdlpScratch (got := some f)
    (s := heldField left i st (afterHandshakes (1 + f.length) s)) rfl hst
  rw [hostTurns, hostStep_heldField left i st hw]
  exact hread.trans (congrArg Host.Outcome.next hfails)

/-! ### A response that is not valid (R232, R239, R240) -/

/-- A bring-up that fails at an exchange keeps neither where the parse stood nor the outcome and the bytes sent before. -/
theorem failBringUp_exchangeWord (p : ParseStep) (b : Option BlockRead) (v : Verdict) (r : Result) (tx : List Byte) {s : State}
    (hlink : s.linkBound = true) :
    failBringUp (exchangeWord { s with parse := p, block := b, verdict := v, result := r, linkTx := tx }).after =
      failBringUp (exchangeWord s).after := by
  rw [exchangeWord_after { s with parse := p, block := b, verdict := v, result := r, linkTx := tx } hlink, exchangeWord_after s hlink]
  rfl

/-- At the length of a field (R128, R240). -/
theorem hostTurns_heldField_badLength {left i : Nat} {st : Staging} {s : State} (hw : s.wstate = .idle)
    (hlink : s.linkBound = true) (hv : validAnswer (answerAt s 0) = false) :
    hostTurns 1 (heldField left i st s) = .next (failBringUp (exchangeWord s).after) := by
  have hrx : hsPayload (exchangeWord (heldField left i st s)).rx = none := exchangeWord_invalid _ hv
  have hstep : lengthStep Config.rdlpScratch (heldField left i st s) = handshake (heldField left i st s) := rfl
  have hfails := handshake_fails_bringUp hrx (by simp [heldField]) (fun _ => rfl)
  rw [hostTurns, hostStep_heldField left i st hw, hstep, hfails]
  exact congrArg Host.Outcome.next (failBringUp_exchangeWord _ _ _ _ s.linkTx hlink)

/-- At a data byte of a field, one that is discarded included (R129, R239, R240). -/
theorem hostTurns_heldField_badData {left i : Nat} {st : Staging} {len : Byte} {bs : List Byte} {s : State} (hw : s.wstate = .idle)
    (hlink : s.linkBound = true) (hlt : bs.length < len.toNat) (hs : PeerSends s (len :: bs))
    (hv : validAnswer (answerAt s (bs.length + 1)) = false) :
    hostTurns (bs.length + 2) (heldField left i st s) =
      .next (failBringUp (exchangeWord (afterHandshakes (bs.length + 1) s)).after) := by
  have hread := hostTurns_lengthStep_fails (s := heldField left i st s) hw hlink (Nat.le_of_lt_succ len.isLt) hlt hs hv
  have hparse (b : BlockRead) :
      (exchangeWord (heldRead b (afterHandshakes (bs.length + 1) (heldField left i st s)))).after.parse = .fields left i st := by
    rw [(exchangeWord_onlyLink _).eq]
    rfl
  rw [endBlock_field_fails _ (hparse _) rfl] at hread
  rw [hostTurns, hostStep_heldField left i st hw]
  exact hread.trans (congrArg Host.Outcome.next
    (failBringUp_exchangeWord _ _ _ _ [0x00, 0x00] (s := afterHandshakes (bs.length + 1) s) hlink))

/-! ### `ID_PARSE` up to its failure -/

/-- A sequence carried on by further turns of `HOST`'s. -/
theorem runSequence_add {i : Instr} {m : Nat} {s t : State} (h : runSequence i m s = .next t) (n : Nat) :
    runSequence i (m + n) s = hostTurns n t := by
  obtain ⟨u, hu⟩ := exec_next i s
  simp only [runSequence, hu] at h ⊢
  rw [hostTurns_add, h]

/-- `ID_PARSE` after a count and good fields, with more to read: it is held before the next (R231). -/
theorem runSequence_idParse_goodFields {n : Byte} {fields : List (List Byte)} {s : State} (hw : s.wstate = .idle)
    (hlink : s.linkBound = true) (hp : s.parse = .start) (hleft : fields.length < n.toNat) (hlen : ∀ f ∈ fields, f.length ≤ 255)
    (hfit : fieldsFit fields = true) (hs : PeerSends s (n :: fields.flatMap blockPayloads)) :
    runSequence .idParse (blockExchanges fields) s =
      .next (heldField (n.toNat - fields.length) fields.length (renderedFields fields)
        (afterHandshakes (1 + blockExchanges fields) s)) := by
  obtain ⟨⟨hv, hn⟩, hblocks⟩ := (peerSends_cons _ _ _).1 hs
  have hmore : n.toNat - fields.length ≠ 0 := by omega
  have hturns := hostTurns_goodFields fields (n.toNat - fields.length) 0 1 hw hlink hlen (stageFields_of_fit hfit) hblocks
  rw [Nat.sub_add_cancel (Nat.le_of_lt hleft), Nat.zero_add, nextField_left hmore] at hturns
  rw [runSequence, exec_idParse_valid hlink hp hv, hn]
  exact hturns

/-- `ID_PARSE` on a field that breaks its length rule, after good ones: it fails when that field has been read in full (R240). -/
theorem runSequence_idParse_misfit {n : Byte} {fields : List (List Byte)} {bad : List Byte} {s : State} (hw : s.wstate = .idle)
    (hlink : s.linkBound = true) (hp : s.parse = .start) (hleft : fields.length < n.toNat)
    (hlen : ∀ f ∈ fields ++ [bad], f.length ≤ 255) (hfit : fieldsFit fields = true)
    (hbad : fieldsFit (fields ++ [bad]) = false) (hs : PeerSends s (n :: (fields ++ [bad]).flatMap blockPayloads)) :
    runSequence .idParse (blockExchanges (fields ++ [bad])) s =
      .next (failBringUp (afterHandshakes (1 + blockExchanges (fields ++ [bad])) s)) := by
  have hsplit : (fields ++ [bad]).flatMap blockPayloads = fields.flatMap blockPayloads ++ blockPayloads bad := by simp
  have hcount : blockExchanges (fields ++ [bad]) = blockExchanges fields + (bad.length + 1) := by
    rw [← length_flatMap_blockPayloads, hsplit, List.length_append, length_flatMap_blockPayloads]
    rfl
  rw [hsplit, ← List.cons_append] at hs
  obtain ⟨hgood, hlast⟩ := (peerSends_append _ _ _).1 hs
  rw [length_count_blocks] at hlast
  have hrun := runSequence_idParse_goodFields hw hlink hp hleft (fun f hf => hlen f (List.mem_append_left _ hf)) hfit hgood
  have hfails := hostTurns_heldField_misfit (s := afterHandshakes (1 + blockExchanges fields) s)
    (left := n.toNat - fields.length) hw hlink (hlen bad (by simp)) (stageField_of_misfit hfit hbad (renderedFields fields)) hlast
  rw [hcount, runSequence_add hrun, hfails, afterHandshakes_add, Nat.add_comm 1 bad.length, Nat.add_assoc 1]

/-- `ID_PARSE` on a transcript cut short by a response that is not valid: it fails at that exchange (R232, R239, R240). -/
theorem runSequence_idParse_cut {payloads : List Byte} {s : State} (hw : s.wstate = .idle) (hlink : s.linkBound = true)
    (hp : s.parse = .start) (hcut : CutTranscript payloads) (hs : PeerSends s payloads)
    (hv : validAnswer (answerAt s payloads.length) = false) :
    runSequence .idParse payloads.length s = .next (failBringUp (exchangeWord (afterHandshakes payloads.length s)).after) := by
  have hstop : validAnswer (answerAt (afterHandshakes payloads.length s) 0) = false := by
    rw [answerAt_afterHandshakes]
    exact hv
  cases hcut with
  | count =>
    have hexec : exec .idParse s = .next (countStep s) := congrArg Host.Outcome.next (if_pos hp)
    have hcount : countStep s = failBringUp (exchangeWord s).after := by
      simp only [countStep, exchangeWord_invalid s hv]
    rw [runSequence, hexec, hcount]
    exact congrArg Host.Outcome.next (failBringUp_exchangeWord s.parse s.block s.verdict s.result [0x00, 0x00] hlink).symm
  | length n read hleft hlen hfit =>
    have hrun := runSequence_idParse_goodFields hw hlink hp hleft hlen hfit hs
    rw [length_count_blocks] at hstop ⊢
    have hends := (runSequence_add hrun 1).trans
      (hostTurns_heldField_badLength (s := afterHandshakes (1 + blockExchanges read) s) hw hlink hstop)
    rwa [Nat.add_comm (blockExchanges read)] at hends
  | data n read len bs hleft hlen hfit hlt =>
    obtain ⟨hgood, hlast⟩ := (peerSends_append _ _ _).1 hs
    have hrun := runSequence_idParse_goodFields hw hlink hp hleft hlen hfit hgood
    have hcount : (n :: read.flatMap blockPayloads ++ len :: bs).length = 1 + blockExchanges read + (bs.length + 1) := by
      rw [List.length_append, length_count_blocks]
      rfl
    rw [length_count_blocks] at hlast
    rw [hcount] at hv ⊢
    have hturns : 1 + blockExchanges read + (bs.length + 1) = blockExchanges read + (bs.length + 2) := by omega
    have hbad := hostTurns_heldField_badData (left := n.toNat - read.length) (i := read.length) (st := renderedFields read)
      (s := afterHandshakes (1 + blockExchanges read) s) hw hlink hlt hlast (by rwa [answerAt_afterHandshakes])
    rw [afterHandshakes_add] at hbad
    rw [hturns, runSequence_add hrun, hbad, hturns]

/-! ### The obligations -/

/-- Settles O23: `ID_GET` answers by its selector, whatever the lifecycle state. -/
theorem identityAccessors : Obligations.IdentityAccessors :=
  fun s => ⟨rfl, rfl, rfl, rfl, fun _ hsel => exec_idGet_refused hsel s⟩

/-- Settles O22: an instruction either leaves a bring-up alone or makes its next handshake; no other step but the reset ends it. -/
theorem identityParseIsAllOrNothing : Obligations.IdentityParseIsAllOrNothing := by
  intro s t hs hd hlim hl h
  have hstart : GoesOn s s := ⟨hl, hs.parsing_bound hl, rfl⟩
  rcases step_effects h with ⟨i, _, he⟩ | hr | ⟨_, rfl⟩ | ⟨dt, l, rfl⟩ | ⟨rest, hsched, rfl⟩
  · have hr := recorded_sched s.sched.tail s
    have hd' : DownIsReset { s with sched := s.sched.tail } := (DataMove.records (i := none) hr).downIsReset hs hd
    rcases exec_bringUp (hr.inv hs) hd' (hlim.sameLink hr.sameLink) hl he with hon | hup | ⟨hback, hfailed⟩
    · exact .inl hon
    · exact .inr (.inl hup)
    · exact .inr (.inr ⟨hback.down, hback.reset, hback.identity, .inl hfailed⟩)
  · exact .inl (hr.sameLink.goesOn hstart)
  · rw [resumeLinkDown_elsewhere (by simp [hl])]
    exact .inl hstart
  · exact .inl hstart
  · have hback : RolledBack s (hardReset { s with sched := rest }) := .of_down hd hl (hardReset_downIsReset _) rfl
    exact .inr (.inr ⟨hback.down, hback.reset, hback.identity, .inr ⟨rest, hsched⟩⟩)

/-- Settles O21: good fields lead to the field that breaks its rule or to the response that is not valid, and there the bring-up is
rolled back. -/
theorem identityParseStopsAtTheFirstFailure : Obligations.IdentityParseStopsAtTheFirstFailure := by
  refine ⟨fun s hs hd hp => ?_, fun s hp => congrArg Host.Outcome.next (if_neg hp)⟩
  have hl : s.lstate = .bringup := hs.bringup_of_parse (by simp [hp])
  have hw : s.wstate = .idle := hs.worker_idle (.inr hl)
  have hlink : s.linkBound = true := hs.parsing_bound hl
  have hgood (k : Nat) : Recorded s (afterHandshakes k s) := ⟨rfl, Nat.le_refl _, Nat.le_refl _⟩
  refine ⟨fun n fields bad hleft hlen hfit hbad hsends => ?misfit, fun payloads hcut hsends hv => ?cut⟩
  case misfit =>
    rw [length_flatMap_blockPayloads, identityExchanges_eq]
    obtain ⟨hdown, hreset, hid⟩ := failBringUp_rolledBack hs hd hl (hgood (1 + blockExchanges (fields ++ [bad])))
    exact ⟨_, runSequence_idParse_misfit hw hlink hp hleft hlen hfit hbad hsends, rfl, hdown, hreset, hid, rfl, rfl⟩
  case cut =>
    have hmade := exchangeWord_made (afterHandshakes payloads.length s)
    obtain ⟨hdown, hreset, hid⟩ := failBringUp_rolledBack hs hd hl ((hgood payloads.length).trans hmade.recorded)
    exact ⟨_, runSequence_idParse_cut hw hlink hp hcut hsends hv, rfl, hdown, hreset, hid, hmade.counted hlink⟩

end Sys2Proof.Machine
end

section
/-! The signal bridge: when the edge notification requests a cycle and when it changes nothing, one sample of the line in each
case, and the bridge's three instructions. -/

namespace Sys2Proof.Machine

/-! ### The edge notification (R254) -/

/-- Armed, in `UP`: a cycle request and nothing else. -/
theorem notifyEdge_armed_up {s : State} (ha : s.sbArmed = true) (hl : s.lstate = .up) :
    notifyEdge s = { s with wstate := requested s.wstate } :=
  (if_pos ha).trans (requestCycle_up s hl)

/-- Unarmed, or armed outside `UP`, where a cycle request is a no-op. -/
theorem notifyEdge_ignored {s : State} (h : s.sbArmed = false ∨ s.lstate ≠ .up) : notifyEdge s = s := by
  unfold notifyEdge
  split
  next ha => exact requestCycle_elsewhere s (h.resolve_left (by simp [ha]))
  next => rfl

/-! ### One sample of the line (R252) -/

/-- An armed 0-to-1 change of the level: the sample hands the shifted state to the edge notification. -/
theorem sampleLine_rising (v : Bool) {s : State} (ha : s.sbArmed = true) (hlow : s.sbLevel = false) (hmeta : s.sbMeta = true) :
    sampleLine v s = notifyEdge { s with sbPrev := false, sbLevel := true, sbMeta := v } := by
  simp [sampleLine, ha, hlow, hmeta]

/-- On an armed 0-to-1 change in `UP` the sample shifts the stages and requests a cycle. -/
theorem sampleLine_rising_up (v : Bool) {s : State} (ha : s.sbArmed = true) (hlow : s.sbLevel = false) (hmeta : s.sbMeta = true)
    (hl : s.lstate = .up) :
    sampleLine v s = { s with sbPrev := false, sbLevel := true, sbMeta := v, wstate := requested s.wstate } :=
  (sampleLine_rising v ha hlow hmeta).trans (notifyEdge_armed_up ha hl)

/-- In every other case it shifts the stages and nothing else. -/
theorem sampleLine_shifts (v : Bool) {s : State}
    (h : ¬(s.sbArmed = true ∧ s.sbLevel = false ∧ s.sbMeta = true ∧ s.lstate = .up)) :
    sampleLine v s = { s with sbPrev := s.sbLevel, sbLevel := s.sbMeta, sbMeta := v } := by
  rcases sampleLine_cases v s with ⟨ha, hlow, hmeta, hl, _⟩ | hshift
  · exact absurd ⟨ha, hlow, hmeta, hl⟩ h
  · exact hshift

/-! ### The instructions of the bridge (R252 to R254) -/

theorem exec_sbEdge (s : State) : exec .sbEdge s = .next (notifyEdge s).succeed := rfl

theorem exec_sbSample (v : Bool) (s : State) : exec (.sbSample v) s = .next (sampleLine v s).succeed := rfl

theorem exec_sbLevel (s : State) : exec .sbLevel s = .next { s with verdict := .done .ok, result := .flag s.sbLevel } := rfl

/-! ### The obligation -/

/-- Settles O53: the edge handler by its arming and the lifecycle state, the sample by whether it makes an armed rising edge in
`UP`. -/
theorem signalBridgeSamplesAndNotifies : Obligations.SignalBridgeSamplesAndNotifies := by
  refine ⟨fun s => ⟨fun ha hl => ?edgeTaken, fun h => ?edgeIgnored, exec_sbLevel s⟩,
    fun v s => ⟨fun ha hlow hmeta hl => ?rising, fun h => ?shifts⟩⟩
  case edgeTaken => rw [exec_sbEdge, notifyEdge_armed_up ha hl]; rfl
  case edgeIgnored => rw [exec_sbEdge, notifyEdge_ignored h]; rfl
  case rising => rw [exec_sbSample, sampleLine_rising_up v ha hlow hmeta hl]; rfl
  case shifts => rw [exec_sbSample, sampleLine_shifts v h]; rfl

end Sys2Proof.Machine
end

section
/-! The stream endpoints: the seven commands that do not wait, in `UP`, and `OUT_DRAIN` where it is refused. -/

namespace Sys2Proof.Machine

/-! ### The commands that write endpoint bits, in `UP` (R266, R267, R271, R272, R274) -/

theorem exec_outOpen_up {s : State} (hl : s.lstate = .up) :
    exec .outOpen s = .next { s with outActive := true, verdict := .done .ok, result := .none } := next_up hl _

theorem exec_outClose_up {s : State} (hl : s.lstate = .up) :
    exec .outClose s = .next { s with outActive := false, verdict := .done .ok, result := .none } := next_up hl _

theorem exec_inOpen_up {s : State} (hl : s.lstate = .up) :
    exec .inOpen s = .next { s with inActive := true, verdict := .done .ok, result := .none } := next_up hl _

theorem exec_inClose_up {s : State} (hl : s.lstate = .up) :
    exec .inClose s = .next { s with inActive := false, readyCb := false, verdict := .done .ok, result := .none } := next_up hl _

theorem exec_inStop_up {s : State} (hl : s.lstate = .up) :
    exec .inStop s = .next { s with readyCb := false, verdict := .done .ok, result := .none } := next_up hl _

/-! ### The two starts, in `UP`: the cycle request writes the latch alone (R268, R273) -/

theorem exec_outStart_up {s : State} (hl : s.lstate = .up) :
    exec .outStart s = .next { s with wstate := requested s.wstate, verdict := .done .ok, result := .none } := by
  refine (next_up hl (requestCycle s).succeed).trans ?_
  rw [requestCycle_up s hl]
  rfl

theorem exec_inStart_up {s : State} (hl : s.lstate = .up) :
    exec .inStart s =
      .next { s with readyCb := true, wstate := requested s.wstate, verdict := .done .ok, result := .none } := by
  refine (next_up hl (requestCycle { s with readyCb := true }).succeed).trans ?_
  rw [requestCycle_up { s with readyCb := true } hl]
  rfl

/-! ### `OUT_DRAIN` outside `UP` (R269); in `UP` it stands with its held caller above -/

/-- Refused, and no caller is held any more. -/
theorem exec_outDrain_refused {s : State} (hl : s.lstate ≠ .up) :
    exec .outDrain s = .next { turnedAway s with drainWait := false } :=
  congrArg Host.Outcome.next (if_pos hl)

/-! ### The obligations -/

/-- Settles O54, a command at a time. -/
theorem endpointCommandsInUp : Obligations.EndpointCommandsInUp :=
  fun _ hl => ⟨exec_outOpen_up hl, exec_outClose_up hl, exec_outStart_up hl, exec_inOpen_up hl, exec_inClose_up hl,
    exec_inStart_up hl, exec_inStop_up hl⟩

/-- Settles O55: refused outside `UP`; in `UP` over an empty queue, or over one that holds bytes. -/
theorem drainWaitsForTheOutboundQueue : Obligations.DrainWaitsForTheOutboundQueue :=
  fun _ => ⟨exec_outDrain_refused, exec_outDrain_empty, exec_outDrain_bytes⟩

end Sys2Proof.Machine
end

section
/-! The lifecycle: `LINK_UP` on a peer that sends an identity and on one that does not (R286 to R290), `LINK_DOWN` at once and resumed
(R291 to R293), and what is refused outside `UP` (R318). -/

namespace Sys2Proof.Machine

/-! ### What is admitted in `UP` alone (R265, R307, R318) -/

/-- Each of these commands is guarded by the lifecycle state alone, but for `OQ_PUSH`, which also waits for the worker (R221). -/
theorem exec_upOnly_refused {i : Instr} {s : State} (hi : upOnly i = true) (hl : s.lstate ≠ .up) :
    exec i s = .next (turnedAway s) := by
  cases i with
  | linkDown | flashLed _ | outOpen | outClose | outStart | inOpen | inClose | inStart | inStop | iqDrain | oqLen | iqLen =>
    exact next_not_up hl _
  | oqPush b => exact exec_oqPush_refused (.inl hl)
  | _ => cases hi

/-! ### `LINK_DOWN` and `QUIESCE` (R291 to R293) -/

theorem quiesceThenTearDown_idle {s : State} (hw : s.wstate = .idle) : quiesceThenTearDown s = (tearDown s).succeed := if_pos hw

theorem quiesceThenTearDown_busy {s : State} (hw : s.wstate ≠ .idle) : quiesceThenTearDown s = s.hold := if_neg hw

theorem exec_linkDown_up {s : State} (hl : s.lstate = .up) : exec .linkDown s = .next (quiesceThenTearDown (shutOut s)) :=
  next_up hl _

theorem exec_quiesce_idle {s : State} (hw : s.wstate = .idle) :
    exec .quiesce s = .next { s with verdict := .done .ok, result := .none } :=
  congrArg Host.Outcome.next (if_pos hw)

theorem exec_quiesce_busy {s : State} (hw : s.wstate ≠ .idle) :
    exec .quiesce s = .next { s with verdict := .held, result := .none } :=
  congrArg Host.Outcome.next (if_neg hw)

/-- In `SHUTDOWN` `HOST`'s turn beside a busy worker tries the held `LINK_DOWN` again, and it stays held (R292). -/
theorem hostStep_shutdown_busy {s : State} (hl : s.lstate = .shutdown) (hw : s.wstate ≠ .idle) : hostStep s = .next s.hold := by
  rw [hostStep_of_none (hostInstr_busy hw), resumeLinkDown, if_pos hl, quiesceThenTearDown_busy hw]

/-- In `SHUTDOWN` `HOST`'s turn beside an idle worker, with no block read to finish, tears the link down (R291). -/
theorem hostStep_shutdown_idle {s : State} (hs : Inv s) (hl : s.lstate = .shutdown) (hw : s.wstate = .idle) (hb : s.block = none) :
    hostStep s = .next (tearDown s).succeed := by
  have hp : s.parse = .idle := hs.parse_idle (by simp [hl])
  rw [hostStep_of_none (hostInstr_idle hb hp), resumeLinkDown_idle hl hw]

/-! ### `LINK_UP` up to its first exchange (R286, R288) -/

/-- `LINK_UP` is held before its first exchange: the link is bound and `ID_PARSE` begins (R286, log entry 10). -/
def heldBringUp (s : State) : State := (bindLink (beginBringUp s)).hold

theorem exec_linkUp_present {s : State} (hl : s.lstate = .down) (hpeer : s.peerPresent = true) :
    exec .linkUp s = .next (heldBringUp s) := by
  show execLinkUp s = _
  rw [execLinkUp, if_pos hl, startBringUp, if_pos hpeer]
  rfl

theorem exec_linkUp_absent {s : State} (hl : s.lstate = .down) (hpeer : s.peerPresent = false) :
    exec .linkUp s = .next ((rollBack (beginBringUp s)).raise .linkUnavailable) := by
  show execLinkUp s = _
  rw [execLinkUp, if_pos hl, startBringUp, if_neg (Bool.eq_false_iff.1 hpeer)]

theorem exec_linkUp_refused {s : State} (hl : s.lstate ≠ .down) : exec .linkUp s = .next (turnedAway s) :=
  congrArg Host.Outcome.next (if_neg hl)

/-- The first of `HOST`'s turns after `LINK_UP` is `ID_PARSE`. -/
theorem runSequence_linkUp (n : Nat) {s : State} (hl : s.lstate = .down) (hpeer : s.peerPresent = true) :
    runSequence .linkUp (n + 1) s = runSequence .idParse n (heldBringUp s) := by
  have hturn : hostStep (heldBringUp s) = exec .idParse (heldBringUp s) := hostStep_of_instr (hostInstr_start rfl rfl rfl)
  simp only [runSequence, exec_linkUp_present hl hpeer, hostTurns, hturn]
  rfl

/-- Every instruction keeps the invariants, and with them that `DOWN` is one state. -/
theorem exec_keeps_downIsReset {i : Instr} {s t : State} (hs : Inv s) (hd : DownIsReset s) (h : exec i s = .next t) :
    Inv t ∧ DownIsReset t :=
  (exec_moves h).keeps (fun x => Inv x ∧ DownIsReset x) (fun _ _ hm ⟨hx, hxd⟩ => ⟨hm.inv hx, hm.downIsReset hx hxd⟩) ⟨hs, hd⟩

/-- With no peripheral present `LINK_UP` ends where it began, in `DOWN` at reset values (R288, R293). -/
theorem exec_linkUp_absent_atReset {s : State} (hs : Inv s) (hd : DownIsReset s) (hl : s.lstate = .down)
    (hpeer : s.peerPresent = false) :
    ∃ t, exec .linkUp s = .next t ∧ t.verdict = .done .linkUnavailable ∧ t.lstate = .down ∧ AtResetValues t ∧
      t.linkCount = s.linkCount := by
  have hexec := exec_linkUp_absent hl hpeer
  exact ⟨_, hexec, rfl, rfl, (exec_keeps_downIsReset hs hd hexec).2.down rfl, rfl⟩

/-- In `DOWN` at reset values `LINK_UP` writes the lifecycle state, the link and the parse alone (R286). -/
theorem exec_linkUp_present_atReset {s : State} (hd : DownIsReset s) (hl : s.lstate = .down) (hpeer : s.peerPresent = true) :
    exec .linkUp s = .next { s with
      lstate := .bringup, linkBound := true, parse := .start, verdict := .held, result := .none } := by
  obtain ⟨_, hw, _, hb⟩ := (hd.down hl).link
  rw [exec_linkUp_present hl hpeer, hw, hb]
  rfl

/-! ### `LINK_UP` on a peer that sends a whole identity (R286, R51, R256) -/

/-- With the worker idle, the end of a bring-up leaves a cycle pending exactly where the level is 1 (R256). -/
theorem finishBringUp_idle (st : Staging) {s : State} (hw : s.wstate = .idle) : finishBringUp st s =
    ({ createLink (publish st s) with wstate := if s.sbLevel then .pending else .idle } : State).succeed := by
  have hworker : (createLink (publish st s)).wstate = .idle := hw
  have hlevel : levelFlag (createLink (publish st s)) = s.sbLevel := rfl
  rw [finishBringUp, kick, hlevel, requestCycle_up _ rfl, hworker]
  cases s.sbLevel with
  | true => rfl
  | false => exact hworker ▸ rfl

/-- `LINK_UP` takes the whole `ID_XACT`, one handshake a turn, and brings the link up (R101, R286). -/
theorem runSequence_linkUp_fits {fields : List (List Byte)} {s : State} (hl : s.lstate = .down) (hpeer : s.peerPresent = true)
    (hframe : fieldsFrame fields) (hfit : fieldsFit fields = true) (hsends : PeerSends s (identityPayloads fields)) :
    runSequence .linkUp (identityExchanges fields) s =
      .next (finishBringUp (renderedFields fields) (afterHandshakes (identityExchanges fields) (heldBringUp s))) := by
  have hcount : identityExchanges fields - 1 + 1 = identityExchanges fields := by
    rw [identityExchanges_eq]
    omega
  rw [← runSequence_idParse (s := heldBringUp s) rfl rfl rfl hframe hfit hsends, ← runSequence_linkUp _ hl hpeer, hcount]

/-! ### What a peer can send in place of a whole identity (R100, R101, R240) -/

/-- The peer sends no whole `ID_XACT` of fitting fields: after good fields one breaks its length rule, or a response is not valid. -/
inductive PeerFails (s : State) : Prop where
  | misfit (n : Byte) (fields : List (List Byte)) (bad : List Byte) : fields.length < n.toNat →
      (∀ f ∈ fields ++ [bad], f.length ≤ 255) → fieldsFit fields = true → fieldsFit (fields ++ [bad]) = false →
      PeerSends s (n :: (fields ++ [bad]).flatMap blockPayloads) → PeerFails s
  | cut (payloads : List Byte) : CutTranscript payloads → PeerSends s payloads →
      validAnswer (answerAt s payloads.length) = false → PeerFails s

/-- The peer sends the count `n` and then these fields whole, which fit (R101). -/
structure SendsGood (n : Byte) (read : List (List Byte)) (s : State) : Prop where
  lengths : ∀ f ∈ read, f.length ≤ 255
  fit : fieldsFit read = true
  sends : PeerSends s (n :: read.flatMap blockPayloads)

/-- What the peer's next responses are, read as a block: no length, a length and too few bytes, or a whole block (R100). -/
theorem peer_block_cases (s : State) :
    validAnswer (answerAt s 0) = false ∨
    (∃ (len : Byte) (bs : List Byte), bs.length < len.toNat ∧ PeerSends s (len :: bs) ∧
      validAnswer (answerAt s (bs.length + 1)) = false) ∨
    ∃ bs : List Byte, bs.length ≤ 255 ∧ PeerSends s (blockPayloads bs) := by
  cases hv : validAnswer (answerAt s 0) with
  | false => exact .inl rfl
  | true =>
    rcases peerSends_or_stops (answerAt s 0).b1.toNat (afterHandshakes 1 s) with ⟨bs, hlen, hs⟩ | ⟨bs, hlt, hs, hstop⟩
    · exact .inr (.inr ⟨bs, by omega, peerSends_block hv hlen hs⟩)
    · rw [answerAt_afterHandshakes, Nat.add_comm] at hstop
      exact .inr (.inl ⟨_, bs, hlt, (peerSends_cons _ _ _).2 ⟨⟨hv, rfl⟩, hs⟩, hstop⟩)

/-- After good fields, with more to come, the peer sends one more that fits, or it fails (R231, R233, R240). -/
theorem SendsGood.next_or_fails {n : Byte} {read : List (List Byte)} {s : State} (h : SendsGood n read s)
    (hleft : read.length < n.toNat) : (∃ f, SendsGood n (read ++ [f]) s) ∨ PeerFails s := by
  rcases peer_block_cases (afterHandshakes (n :: read.flatMap blockPayloads).length s) with
    hv | ⟨len, bs, hlt, hs, hv⟩ | ⟨f, hlen, hs⟩
  · rw [answerAt_afterHandshakes] at hv
    exact .inr (.cut _ (.length n read hleft h.lengths h.fit) h.sends hv)
  · rw [answerAt_afterHandshakes] at hv
    refine .inr (.cut _ (.data n read len bs hleft h.lengths h.fit hlt) ((peerSends_append _ _ _).2 ⟨h.sends, hs⟩) ?_)
    rw [List.length_append]
    exact hv
  · have hlengths : ∀ g ∈ read ++ [f], g.length ≤ 255 := by
      simpa [or_imp, forall_and] using ⟨h.lengths, hlen⟩
    have hblocks : n :: (read ++ [f]).flatMap blockPayloads = (n :: read.flatMap blockPayloads) ++ blockPayloads f := by simp
    have hsends : PeerSends s (n :: (read ++ [f]).flatMap blockPayloads) := hblocks ▸ (peerSends_append _ _ _).2 ⟨h.sends, hs⟩
    cases hfit : fieldsFit (read ++ [f]) with
    | true => exact .inl ⟨f, hlengths, hfit, hsends⟩
    | false => exact .inr (.misfit n read f hleft hlengths h.fit hfit hsends)

/-- After a valid count the peer sends as many good fields as it says, or it fails. -/
theorem sendsGood_or_fails {n : Byte} {s : State} (hn : PeerSends s [n]) (k : Nat) (hk : k ≤ n.toNat) :
    (∃ read, read.length = k ∧ SendsGood n read s) ∨ PeerFails s := by
  induction k with
  | zero => exact .inl ⟨[], rfl, by simp, rfl, hn⟩
  | succ k ih =>
    rcases ih (Nat.le_of_succ_le hk) with ⟨read, rfl, hgood⟩ | hfails
    · rcases hgood.next_or_fails hk with ⟨f, hmore⟩ | hfails
      · exact .inl ⟨read ++ [f], List.length_append, hmore⟩
      · exact .inr hfails
    · exact .inr hfails

/-- Every peer sends a whole `ID_XACT` of fitting fields, or fails. -/
theorem peer_identifies_or_fails (s : State) :
    (∃ fields, fieldsFrame fields ∧ fieldsFit fields = true ∧ PeerSends s (identityPayloads fields)) ∨ PeerFails s := by
  cases hv : validAnswer (answerAt s 0) with
  | false => exact .inr (.cut [] .count (fun _ _ h => nomatch h) hv)
  | true =>
    have hcount : PeerSends s [(answerAt s 0).b1] := (peerSends_cons _ _ _).2 ⟨⟨hv, rfl⟩, fun _ _ h => nomatch h⟩
    rcases sendsGood_or_fails hcount _ (Nat.le_refl _) with ⟨fields, hlen, hgood⟩ | hfails
    · have hword : BitVec.ofNat 8 fields.length = (answerAt s 0).b1 := by rw [hlen, BitVec.ofNat_toNat, BitVec.setWidth_eq]
      refine .inl ⟨fields, ⟨by omega, hgood.lengths⟩, hgood.fit, ?_⟩
      rw [identityPayloads, hword]
      exact hgood.sends
    · exact .inr hfails

/-! ### `LINK_UP` on a peer that fails (R240, R289, R290) -/

/-- On a peer that fails `ID_PARSE` comes to an end in the rollback, and only the link's record has changed before it. -/
theorem runSequence_idParse_fails {s : State} (hw : s.wstate = .idle) (hlink : s.linkBound = true) (hp : s.parse = .start)
    (h : PeerFails s) : ∃ n x, Recorded s x ∧ runSequence .idParse n s = .next (failBringUp x) := by
  have hgood (k : Nat) : Recorded s (afterHandshakes k s) := ⟨rfl, Nat.le_refl _, Nat.le_refl _⟩
  cases h with
  | misfit n fields bad hleft hlen hfit hbad hsends =>
    exact ⟨_, _, hgood _, runSequence_idParse_misfit hw hlink hp hleft hlen hfit hbad hsends⟩
  | cut payloads hcut hsends hv =>
    exact ⟨_, _, (hgood _).trans (exchangeWord_made _).recorded, runSequence_idParse_cut hw hlink hp hcut hsends hv⟩

/-- On a peer that fails `LINK_UP` comes to an end in `ProtocolError`, in `DOWN` at reset values. -/
theorem runSequence_linkUp_fails {s : State} (hs : Inv s) (hd : DownIsReset s) (hl : s.lstate = .down) (hpeer : s.peerPresent = true)
    (h : PeerFails (heldBringUp s)) :
    ∃ n t, runSequence .linkUp n s = .next t ∧ t.verdict = .done .protocolError ∧ t.lstate = .down ∧ AtResetValues t := by
  obtain ⟨hheld, hheldReset⟩ := exec_keeps_downIsReset hs hd (exec_linkUp_present hl hpeer)
  obtain ⟨n, x, hx, hrun⟩ := runSequence_idParse_fails (s := heldBringUp s) rfl rfl rfl h
  have hback : RolledBack (heldBringUp s) (failBringUp x) := failBringUp_rolledBack hheld hheldReset rfl hx
  exact ⟨n + 1, _, (runSequence_linkUp n hl hpeer).trans hrun, rfl, hback.down, hback.reset⟩

/-! ### The obligations -/

/-- Settles O29: each of the commands is guarded by the lifecycle state. -/
theorem commandsRefusedOutsideUp : Obligations.CommandsRefusedOutsideUp := fun _ _ => exec_upOnly_refused

/-- Settles O27: new work is shut out, and with the worker idle the link is torn down. -/
theorem linkDownShutsTheLink : Obligations.LinkDownShutsTheLink := by
  refine fun s hl => ⟨fun hw => ⟨Ring.empty, Ring.empty, rfl, rfl, ring_empty_ok, ring_empty_ok, ?atOnce⟩, fun hw => ?held⟩
  case atOnce =>
    rw [exec_linkDown_up hl, quiesceThenTearDown_idle (s := shutOut s) hw]
    rfl
  case held =>
    rw [exec_linkDown_up hl, quiesceThenTearDown_busy (s := shutOut s) hw]
    rfl

/-- Settles O28: `QUIESCE` by the worker's state, and `HOST`'s turn in `SHUTDOWN` by it and by a block read in progress. -/
theorem heldLinkDownCompletesWhenIdle : Obligations.HeldLinkDownCompletesWhenIdle := by
  refine ⟨fun s => ⟨exec_quiesce_idle, exec_quiesce_busy⟩, fun s rest hs hl hsched => ?_⟩
  have hrest : Inv { s with sched := rest } := (recorded_sched rest s).inv hs
  rw [step_of_event hsched]
  refine ⟨fun hw => ?held, fun hw hb => ?read, fun hw hb => ?completes⟩
  case held => exact hostStep_shutdown_busy (s := { s with sched := rest }) hl hw
  case read => exact (hostStep_idleWorker (s := { s with sched := rest }) hw).1 hb
  case completes =>
    have hreset : AtResetValues (tearDown { s with sched := rest }).succeed :=
      tearDown_atResetValues hw (hrest.not_draining (by simp [hl])) (hrest.not_armed (by simp [hl]))
    exact ⟨_, hostStep_shutdown_idle hrest hl hw hb, rfl, rfl, hreset, rfl, rfl, rfl, rfl, rfl⟩

/-- Settles O25: the run ends in what a finished bring-up makes of the state after its handshakes. -/
theorem linkUpBringsTheLinkUp : Obligations.LinkUpBringsTheLinkUp := by
  intro fields s hl hpeer hframe hfit hsends
  refine ⟨Ring.empty, Ring.empty, rfl, rfl, ring_empty_ok, ring_empty_ok, ?_⟩
  rw [runSequence_linkUp_fits hl hpeer hframe hfit hsends, finishBringUp_idle _ rfl]
  rfl

/-- Settles O26: every peer sends a whole identity that fits, which brings the link up, or fails, which rolls it back. -/
theorem linkUpIsAllOrNothing : Obligations.LinkUpIsAllOrNothing := by
  refine ⟨fun s hs hd hl => ⟨exec_linkUp_absent_atReset hs hd hl,
    fun hpeer => ⟨exec_linkUp_present_atReset hd hl hpeer, ?ends⟩⟩, fun s => exec_linkUp_refused⟩
  by_cases hidentity : ∃ fields, fieldsFrame fields ∧ fieldsFit fields = true ∧ PeerSends s (identityPayloads fields)
  · obtain ⟨fields, hframe, hfit, hsends⟩ := hidentity
    have hrun := runSequence_linkUp_fits hl hpeer hframe hfit hsends
    rw [finishBringUp_eq] at hrun
    exact ⟨_, _, hrun, .inl ⟨rfl, rfl, rfl, rfl, fields, hframe, hfit, hsends, rfl⟩⟩
  · have hfails : PeerFails (heldBringUp s) := (peer_identifies_or_fails (heldBringUp s)).resolve_left hidentity
    obtain ⟨n, t, hrun, hverdict, hdown, hreset⟩ := runSequence_linkUp_fails hs hd hl hpeer hfails
    exact ⟨n, t, hrun, .inr ⟨hverdict, hdown, hreset, hidentity⟩⟩

end Sys2Proof.Machine
end
